-- ==== Sys2Proof/Word.lean ====
section
/-!
DEFINITION. The word types of pressense-dsp: every register, memory entry, operand and response word is one whole
32-bit word (R11, R62). What the bits of an `S` mean is in `Sys2Proof/Machine/Float.lean`.
-/

namespace Sys2Proof

/-- The sample type `S` of rule R11: the bit pattern of one IEEE 754 binary32 value (bit 31 sign, bits 30:23 exponent,
bits 22:0 fraction). -/
abbrev S := BitVec 32

/-- One byte of a MIDI stream or of a serialised command. -/
abbrev Byte := BitVec 8

end Sys2Proof
end

