-- ==== Sys2Proof/Syntax.lean ====
section
/-!
DEFINITION. The commands of the block as syntax: the 96-bit command and response triples (R80, R83), the decoded
instruction (one constructor per row of spec/opcode_table.json, R85), and what the host and an application callback tell each
other (R270, R272, R273).
-/

namespace Sys2Proof

/-- A command: header, operand A, operand B (R80, R81, R82). -/
structure Command where
  w0 : BitVec 32
  w1 : BitVec 32
  w2 : BitVec 32
  deriving DecidableEq, Repr

/-- A response: `RS`, `R0`, `R1` (R83). -/
structure Response where
  rs : BitVec 32
  r0 : BitVec 32
  r1 : BitVec 32
  deriving DecidableEq, Repr

/-- A decoded command. The 8-bit fields `v` (voice) and `u` (envelope, mode, algorithm or table index) and the operand
words stand as the command holds them: checks 4 to 7 of R84 are made by the meanings. -/
inductive Instr where
  /-- `NOP`, R250. -/
  | nop
  /-- `STATUS.RD`, R251. -/
  | statusRd
  /-- `OSC.WT v, shape`, R111. -/
  | oscWt (v : BitVec 8) (shape : S)
  /-- `OSC.RST v`, R112. -/
  | oscRst (v : BitVec 8)
  /-- `OSC.NEXT v, frequency`, R114. -/
  | oscNext (v : BitVec 8) (frequency : S)
  /-- `OSC.RDT v, i`, R115. -/
  | oscRdt (v : BitVec 8) (i : BitVec 8)
  /-- `FLT.MODE v, mode`, R136. -/
  | fltMode (v : BitVec 8) (mode : BitVec 8)
  /-- `FLT.CUT v, cutoff`, R137. -/
  | fltCut (v : BitVec 8) (cutoff : S)
  /-- `FLT.Q v, q`, R138. -/
  | fltQ (v : BitVec 8) (q : S)
  /-- `FLT.RST v`, R139. -/
  | fltRst (v : BitVec 8)
  /-- `FLT.PROC v, x`, R140. -/
  | fltProc (v : BitVec 8) (x : S)
  /-- `ENV.SETA v, e, t`, R165. -/
  | envSetA (v : BitVec 8) (e : BitVec 8) (t : S)
  /-- `ENV.SETD v, e, t`, R166. -/
  | envSetD (v : BitVec 8) (e : BitVec 8) (t : S)
  /-- `ENV.SETS v, e, s`, R167. -/
  | envSetS (v : BitVec 8) (e : BitVec 8) (level : S)
  /-- `ENV.SETR v, e, t`, R168. -/
  | envSetR (v : BitVec 8) (e : BitVec 8) (t : S)
  /-- `ENV.TRIG v, e`, R169. -/
  | envTrig (v : BitVec 8) (e : BitVec 8)
  /-- `ENV.RLS v, e`, R170. -/
  | envRls (v : BitVec 8) (e : BitVec 8)
  /-- `ENV.NEXT v, e`, R171. -/
  | envNext (v : BitVec 8) (e : BitVec 8)
  /-- `ENV.RDP v, e`, R172. -/
  | envRdp (v : BitVec 8) (e : BitVec 8)
  /-- `V.TRIG v, frequency, volume`, R194. -/
  | vTrig (v : BitVec 8) (frequency : S) (volume : S)
  /-- `V.RLS v`, R195. -/
  | vRls (v : BitVec 8)
  /-- `V.NEXT v`, R196. -/
  | vNext (v : BitVec 8)
  /-- `V.BEND v, bend`, R197. -/
  | vBend (v : BitVec 8) (bend : S)
  /-- `V.BRNG v, semitones`, R198. -/
  | vBrng (v : BitVec 8) (semitones : S)
  /-- `V.CUT v, cutoff`, R199. -/
  | vCut (v : BitVec 8) (cutoff : S)
  /-- `V.DEPTH v, depth`, R200. -/
  | vDepth (v : BitVec 8) (depth : S)
  /-- `V.ACTIVE v`, R201. -/
  | vActive (v : BitVec 8)
  /-- `OP.ALGO index`, R225. -/
  | opAlgo (index : BitVec 8)
  /-- `OP.DRIVE drive`, R226. -/
  | opDrive (drive : S)
  /-- `OP.PROC x`, R227. -/
  | opProc (x : S)
  /-- `RENDER`, R228. -/
  | render
  deriving DecidableEq, Repr

/-- The voice allocator (R290): the note assigned to each slot, and the last-stolen index. -/
structure Machine.Allocator where
  slots : List (Option Byte)
  lastStolen : Nat
  deriving DecidableEq, Repr

/-- A call of an application callback by the host's decoder, with the arguments the rules give it. A `&mut` argument stands
as the callback receives it; what the callback does with it are its `CallbackAction`s. -/
inductive HostCall where
  /-- R270: `(channel, note, pressure, &mut voice)`, where the voice is that of slot `k`. -/
  | polyAftertouch (channel : Nat) (note : Byte) (pressure : Byte) (k : Nat)
  /-- R272: `(channel, cc, value, &mut allocator)`. -/
  | controlChange (channel : Nat) (cc : Byte) (value : Byte) (allocator : Machine.Allocator)
  /-- R273: `(channel, program, &mut allocator)`. -/
  | programChange (channel : Nat) (program : Byte) (allocator : Machine.Allocator)
  deriving DecidableEq, Repr

/-- One thing an application callback does with its `&mut` argument. `findAllocated` and the iteration of `forEachVoice` change
nothing by themselves (R292, R293): the callback reads the allocator, and its voice methods are commands (R276). -/
inductive CallbackAction where
  /-- A voice method, or a command to the output unit (R272, R276). -/
  | command (i : Instr)
  /-- `allocate(note)` (R291). -/
  | allocate (note : Byte)
  deriving DecidableEq, Repr

/-- What a callback gets back from one of its actions. -/
inductive CallbackResult where
  /-- The response of its command (R83). -/
  | response (r : Response)
  /-- The slot that `allocate` returns (R291). -/
  | slot (k : Nat)
  deriving DecidableEq, Repr

end Sys2Proof
end

