-- ==== Sys2Proof/Decode.lean ====
section
/-!
DEFINITION. Decoding and encoding of commands (R80 to R89): checks 1 to 3 of R84 over the header word, total on any 96 bits,
each refusal by name; the encoder from the same map; the byte transport of R62; and the host's table words.
-/

namespace Sys2Proof

/-- Why a header is no command: checks 1 to 3 of R84. The block treats all alike (R311, R315). -/
inductive DecodeError where
  /-- check 1: `op` is not in the opcode map (R86) -/
  | unknownOpcode (op : BitVec 8)
  /-- check 2: `W0[7:0]` is not zero -/
  | reservedNotZero
  /-- check 3: the command does not use `v`, and `W0[23:16]` is not zero -/
  | unusedVoiceField
  /-- check 3: the command does not use `u`, and `W0[15:8]` is not zero -/
  | unusedUnitField
  deriving DecidableEq, Repr

/-- The outcome of decoding. -/
inductive Decoded where
  | command (i : Instr)
  | illegal (why : DecodeError)
  deriving DecidableEq, Repr

/-- The command of a decoding, if there is one. -/
def Decoded.toOption : Decoded → Option Instr
  | .command i => some i
  | .illegal _ => none

/-! ### Header fields (R81) -/

def Command.opField (c : Command) : BitVec 8 := c.w0.extractLsb' 24 8
def Command.vField (c : Command) : BitVec 8 := c.w0.extractLsb' 16 8
def Command.uField (c : Command) : BitVec 8 := c.w0.extractLsb' 8 8
def Command.rsvField (c : Command) : BitVec 8 := c.w0.extractLsb' 0 8

/-- One row of the opcode map: which header fields the command uses, and the command its fields and operands make. -/
structure OpcodeRow where
  usesV : Bool
  usesU : Bool
  make : (v u : BitVec 8) → (a b : S) → Instr

/-- The opcode map of R85. -/
def opcodeRow (op : BitVec 8) : Option OpcodeRow :=
  match op with
  | 0x00#8 => some ⟨false, false, fun _ _ _ _ => .nop⟩
  | 0x01#8 => some ⟨false, false, fun _ _ _ _ => .statusRd⟩
  | 0x10#8 => some ⟨true, false, fun v _ a _ => .oscWt v a⟩
  | 0x11#8 => some ⟨true, false, fun v _ _ _ => .oscRst v⟩
  | 0x12#8 => some ⟨true, false, fun v _ a _ => .oscNext v a⟩
  | 0x13#8 => some ⟨true, true, fun v u _ _ => .oscRdt v u⟩
  | 0x20#8 => some ⟨true, true, fun v u _ _ => .fltMode v u⟩
  | 0x21#8 => some ⟨true, false, fun v _ a _ => .fltCut v a⟩
  | 0x22#8 => some ⟨true, false, fun v _ a _ => .fltQ v a⟩
  | 0x23#8 => some ⟨true, false, fun v _ _ _ => .fltRst v⟩
  | 0x24#8 => some ⟨true, false, fun v _ a _ => .fltProc v a⟩
  | 0x30#8 => some ⟨true, true, fun v u a _ => .envSetA v u a⟩
  | 0x31#8 => some ⟨true, true, fun v u a _ => .envSetD v u a⟩
  | 0x32#8 => some ⟨true, true, fun v u a _ => .envSetS v u a⟩
  | 0x33#8 => some ⟨true, true, fun v u a _ => .envSetR v u a⟩
  | 0x34#8 => some ⟨true, true, fun v u _ _ => .envTrig v u⟩
  | 0x35#8 => some ⟨true, true, fun v u _ _ => .envRls v u⟩
  | 0x36#8 => some ⟨true, true, fun v u _ _ => .envNext v u⟩
  | 0x37#8 => some ⟨true, true, fun v u _ _ => .envRdp v u⟩
  | 0x40#8 => some ⟨true, false, fun v _ a b => .vTrig v a b⟩
  | 0x41#8 => some ⟨true, false, fun v _ _ _ => .vRls v⟩
  | 0x42#8 => some ⟨true, false, fun v _ _ _ => .vNext v⟩
  | 0x43#8 => some ⟨true, false, fun v _ a _ => .vBend v a⟩
  | 0x44#8 => some ⟨true, false, fun v _ a _ => .vBrng v a⟩
  | 0x45#8 => some ⟨true, false, fun v _ a _ => .vCut v a⟩
  | 0x46#8 => some ⟨true, false, fun v _ a _ => .vDepth v a⟩
  | 0x47#8 => some ⟨true, false, fun v _ _ _ => .vActive v⟩
  | 0x50#8 => some ⟨false, true, fun _ u _ _ => .opAlgo u⟩
  | 0x51#8 => some ⟨false, false, fun _ _ a _ => .opDrive a⟩
  | 0x52#8 => some ⟨false, false, fun _ _ a _ => .opProc a⟩
  | 0x60#8 => some ⟨false, false, fun _ _ _ _ => .render⟩
  | _ => none

/-- Decoding: checks 1 to 3 of R84, in its order. Operand words the command does not use are ignored (R82). -/
def decode (c : Command) : Decoded :=
  match opcodeRow c.opField with
  | none => .illegal (.unknownOpcode c.opField)
  | some row =>
    if c.rsvField ≠ 0 then .illegal .reservedNotZero
    else if !row.usesV && c.vField ≠ 0 then .illegal .unusedVoiceField
    else if !row.usesU && c.uField ≠ 0 then .illegal .unusedUnitField
    else .command (row.make c.vField c.uField c.w1 c.w2)

/-! ### Encoding -/

/-- The header word with these fields and a zero reserved byte (R81). -/
def header (op v u : BitVec 8) : BitVec 32 := op ++ v ++ u ++ 0#8

/-- The command of an instruction (R81, R82, R85). An unused field is zero, and so is an unused operand word (R90). -/
def encode : Instr → Command
  | .nop => ⟨header 0x00 0 0, 0, 0⟩
  | .statusRd => ⟨header 0x01 0 0, 0, 0⟩
  | .oscWt v a => ⟨header 0x10 v 0, a, 0⟩
  | .oscRst v => ⟨header 0x11 v 0, 0, 0⟩
  | .oscNext v a => ⟨header 0x12 v 0, a, 0⟩
  | .oscRdt v i => ⟨header 0x13 v i, 0, 0⟩
  | .fltMode v m => ⟨header 0x20 v m, 0, 0⟩
  | .fltCut v a => ⟨header 0x21 v 0, a, 0⟩
  | .fltQ v a => ⟨header 0x22 v 0, a, 0⟩
  | .fltRst v => ⟨header 0x23 v 0, 0, 0⟩
  | .fltProc v a => ⟨header 0x24 v 0, a, 0⟩
  | .envSetA v e a => ⟨header 0x30 v e, a, 0⟩
  | .envSetD v e a => ⟨header 0x31 v e, a, 0⟩
  | .envSetS v e a => ⟨header 0x32 v e, a, 0⟩
  | .envSetR v e a => ⟨header 0x33 v e, a, 0⟩
  | .envTrig v e => ⟨header 0x34 v e, 0, 0⟩
  | .envRls v e => ⟨header 0x35 v e, 0, 0⟩
  | .envNext v e => ⟨header 0x36 v e, 0, 0⟩
  | .envRdp v e => ⟨header 0x37 v e, 0, 0⟩
  | .vTrig v a b => ⟨header 0x40 v 0, a, b⟩
  | .vRls v => ⟨header 0x41 v 0, 0, 0⟩
  | .vNext v => ⟨header 0x42 v 0, 0, 0⟩
  | .vBend v a => ⟨header 0x43 v 0, a, 0⟩
  | .vBrng v a => ⟨header 0x44 v 0, a, 0⟩
  | .vCut v a => ⟨header 0x45 v 0, a, 0⟩
  | .vDepth v a => ⟨header 0x46 v 0, a, 0⟩
  | .vActive v => ⟨header 0x47 v 0, 0, 0⟩
  | .opAlgo u => ⟨header 0x50 0 u, 0, 0⟩
  | .opDrive a => ⟨header 0x51 0 0, a, 0⟩
  | .opProc a => ⟨header 0x52 0 0, a, 0⟩
  | .render => ⟨header 0x60 0 0, 0, 0⟩

/-! ### A byte transport (R62, D22; log 15): words in the order W0, W1, W2, each word's bits 7:0 first -/

/-- A word as four bytes, bits 7:0 first. -/
def wordToBytes (w : BitVec 32) : List Byte :=
  [w.extractLsb' 0 8, w.extractLsb' 8 8, w.extractLsb' 16 8, w.extractLsb' 24 8]

/-- A command as twelve bytes. -/
def Command.toBytes (c : Command) : List Byte := wordToBytes c.w0 ++ wordToBytes c.w1 ++ wordToBytes c.w2

/-- A response as twelve bytes, in the order RS, R0, R1. -/
def Response.toBytes (r : Response) : List Byte := wordToBytes r.rs ++ wordToBytes r.r0 ++ wordToBytes r.r1

/-- The first command of a byte stream and the bytes after it; none while fewer than twelve bytes have come. -/
def Command.ofBytes : List Byte → Option (Command × List Byte)
  | a0 :: a1 :: a2 :: a3 :: b0 :: b1 :: b2 :: b3 :: c0 :: c1 :: c2 :: c3 :: rest =>
    some (⟨a3 ++ a2 ++ a1 ++ a0, b3 ++ b2 ++ b1 ++ b0, c3 ++ c2 ++ c1 ++ c0⟩, rest)
  | _ => none

/-! ### The host's table words -/

/-- The command whose bits are `w`, bit 0 the least significant bit of W0, W1 from bit 32, W2 from bit 64; the bits from
`nbits` on are zero. -/
def tableCommand (nbits w : Nat) : Command :=
  let bits := w % 2 ^ nbits
  ⟨BitVec.ofNat 32 bits, BitVec.ofNat 32 (bits / 2 ^ 32), BitVec.ofNat 32 (bits / 2 ^ 64)⟩

/-- The instruction the decoder reads from a table word. -/
def decodeTableWord (nbits w : Nat) : Option Instr := (decode (tableCommand nbits w)).toOption

end Sys2Proof
end

