-- ==== Sys2Proof/Config.lean ====
section
/-!
DEFINITION. What the spec leaves open. The body-less constants are free values: nothing in Lean can evaluate them, so a
claim about the machine holds whatever they are. The spec's bounds on them are put on in `Machine/Num.lean` and
`Machine/HostAgent.lean`. The last three numbers are used by `State.reset` alone.
-/

namespace Sys2Proof.Config

/-- The arithmetic operation whose result is a NaN. -/
inductive NanSource where
  | add | sub | mul | div
  deriving DecidableEq, Repr

/-- Free value (log 5): the bits an operation with these operands gives its NaN result, before they are forced to be
a NaN's. IEEE 754 leaves sign and payload open, and R12 says no more than "NaN produced as IEEE 754 says". -/
opaque nanBits : NanSource → S → S → S

/-- Free value (log 4): `NUM.sin` before the bounds of R13 are put on it. -/
opaque sin : S → S
/-- Free value (log 4): `NUM.cos` before the bounds of R13. -/
opaque cos : S → S
/-- Free value (log 4): `NUM.tanh` before the bounds of R13. -/
opaque tanh : S → S
/-- Free value (log 4): `NUM.exp2` before the bounds of R13. -/
opaque exp2 : S → S
/-- Free value (log 4): `NUM.pow100` before the bounds of R13. -/
opaque pow100 : S → S

/-- Free value (log 13): the binary32 operand the host computes for `440 * 2^((note-69)/12)` (R267, N19). -/
opaque noteFrequency : Byte → S

/-- Free value (log 13): the binary32 operand the host computes for `velocity/127` (R267, N19). -/
opaque velocityVolume : Byte → S

/-- Free value (log 12): what the application's callback does next (U15), given all calls so far (newest first, its own at
the head), all results that callbacks have got so far (newest first), and the allocator as it stands. `none`: it returns. An
absent callback returns at once (R275). -/
opaque callbackAction : List HostCall → List CallbackResult → Machine.Allocator → Option CallbackAction

/-- The host computes a note's frequency and a velocity's volume to within one part in this number (R267 and N19 leave the
precision open; DESIGN CHOICE, log 13). -/
def hostPrecision : Nat := 65536

/-- SAMPLE_RATE of `State.reset` (R5 leaves it OPEN, D9 "A model instantiates it"; DESIGN CHOICE, log 2). -/
def sampleRate : Nat := 48000

/-- NVOICES of `State.reset` (R6 leaves it OPEN, D10; DESIGN CHOICE, log 2). -/
def nVoices : Nat := 4

/-- LISTEN_CHANNEL of `State.reset` (R8 leaves it OPEN; DESIGN CHOICE, log 2). -/
def listenChannel : Nat := 0

end Sys2Proof.Config
end

