-- ==== Sys2Proof/Machine/Float.lean ====
section
/-!
DEFINITION. IEEE 754 binary32 arithmetic on bit patterns (R11, R12) and the helper functions of R14.

Every finite binary32 is a whole number of units of 2^-149 (the smallest subnormal). An operation converts its operands
to such whole numbers, computes the exact quotient of two natural numbers, and rounds once, to nearest, ties to even.
-/

namespace Sys2Proof.Machine

/-! ### Fields -/

/-- The sign bit, bit 31. -/
def fSign (x : S) : Bool := x.getLsbD 31

/-- Bits 30:0, the magnitude as an integer: it orders the magnitudes of all values that are not NaN. -/
def fMag (x : S) : Nat := x.toNat % 2 ^ 31

/-- The magnitude of the infinities: exponent field all ones, fraction zero. -/
def infMag : Nat := 255 * 2 ^ 23

/-- Put a sign on a magnitude. -/
def fPack (neg : Bool) (mag : Nat) : S := BitVec.ofNat 32 (mag + if neg then 2 ^ 31 else 0)

/-- `finite(x)` of R14: the exponent field is not all ones. -/
def fFinite (x : S) : Bool := fMag x / 2 ^ 23 != 255

def fIsNaN (x : S) : Bool := infMag < fMag x

def fIsInf (x : S) : Bool := fMag x == infMag

def fIsZero (x : S) : Bool := fMag x == 0

/-! ### Finite values as whole numbers of units of 2^-149 -/

/-- The value of a finite magnitude, in units of 2^-149. -/
def magUnits (mag : Nat) : Nat :=
  if mag / 2 ^ 23 = 0 then mag else (2 ^ 23 + mag % 2 ^ 23) * 2 ^ (mag / 2 ^ 23 - 1)

/-- The absolute value of a finite `x`, in units of 2^-149. -/
def fUnits (x : S) : Nat := magUnits (fMag x)

/-- The value of a finite `x`, in units of 2^-149. -/
def fInt (x : S) : Int := if fSign x then -(fUnits x : Int) else (fUnits x : Int)

/-! ### Rounding -/

/-- `n / d` rounded to the nearest integer, ties to even. -/
def roundNearestEven (n d : Nat) : Nat :=
  if 2 * (n % d) < d ∨ (2 * (n % d) = d ∧ n / d % 2 = 0) then n / d else n / d + 1

/-- The magnitude nearest to `n / d` units of 2^-149: `RN32` of R14 on magnitudes. The significand keeps 24 bits, or all
bits down to the unit for small values (subnormals are kept, R12); too large a value gives infinity. -/
def roundMag (n d : Nat) : Nat :=
  let s := Nat.log2 (n / d) - 23
  min (s * 2 ^ 23 + roundNearestEven n (d * 2 ^ s)) infMag

/-- The binary32 nearest to the integer `z` (exact for the integers used here, R14, R15). -/
def fOfInt (z : Int) : S := fPack (z < 0) (roundMag (z.natAbs * 2 ^ 149) 1)

/-! ### The four operations of R12 -/

/-- The NaN result of an operation: bits free (log 5), but always those of a NaN. -/
def fNaN (op : Config.NanSource) (a b : S) : S :=
  let free := Config.nanBits op a b
  let frac := free.toNat % 2 ^ 23
  fPack (fSign free) (infMag + if frac = 0 then 2 ^ 22 else frac)

/-- The sum of two finite values. A sum that is exactly zero is `+0` unless both operands are negative (IEEE 754, round to
nearest; R116 (b), R142). -/
def addFinite (a b : S) : S :=
  let z := fInt a + fInt b
  if z = 0 then fPack (fSign a && fSign b) 0 else fPack (z < 0) (roundMag z.natAbs 1)

/-- `-x` of R12: flips the sign bit. -/
def fNeg (x : S) : S := x ^^^ 0x80000000#32

/-- `abs` of R222: clears the sign bit. -/
def fAbs (x : S) : S := x &&& 0x7FFFFFFF#32

/-- `a + b` (R12). -/
def fAdd (a b : S) : S :=
  if fIsNaN a || fIsNaN b then fNaN .add a b
  else if fIsInf a then (if fIsInf b && fSign a != fSign b then fNaN .add a b else a)
  else if fIsInf b then b
  else addFinite a b

/-- `a - b` (R12). -/
def fSub (a b : S) : S :=
  if fIsNaN a || fIsNaN b then fNaN .sub a b
  else if fIsInf a then (if fIsInf b && fSign a == fSign b then fNaN .sub a b else a)
  else if fIsInf b then fNeg b
  else addFinite a (fNeg b)

/-- `a * b` (R12). -/
def fMul (a b : S) : S :=
  let neg := fSign a != fSign b
  if fIsNaN a || fIsNaN b then fNaN .mul a b
  else if fIsInf a || fIsInf b then (if fIsZero a || fIsZero b then fNaN .mul a b else fPack neg infMag)
  else fPack neg (roundMag (fUnits a * fUnits b) (2 ^ 149))

/-- `a / b` (R12). -/
def fDiv (a b : S) : S :=
  let neg := fSign a != fSign b
  if fIsNaN a || fIsNaN b then fNaN .div a b
  else if fIsInf a then (if fIsInf b then fNaN .div a b else fPack neg infMag)
  else if fIsInf b then fPack neg 0
  else if fIsZero b then (if fIsZero a then fNaN .div a b else fPack neg infMag)
  else fPack neg (roundMag (fUnits a * 2 ^ 149) (fUnits b))

/-! ### Comparisons of R12: `-0 == +0`, and with a NaN every comparison is false but `!=` -/

/-- The place of a value that is not NaN in the order of the reals with both infinities. -/
def fOrd (x : S) : Int := if fSign x then -(fMag x : Int) else (fMag x : Int)

def fLt (a b : S) : Bool := !fIsNaN a && !fIsNaN b && decide (fOrd a < fOrd b)

def fLe (a b : S) : Bool := !fIsNaN a && !fIsNaN b && decide (fOrd a ≤ fOrd b)

def fGt (a b : S) : Bool := fLt b a

def fGe (a b : S) : Bool := fLe b a

def fEq (a b : S) : Bool := !fIsNaN a && !fIsNaN b && decide (fOrd a = fOrd b)

def fNe (a b : S) : Bool := !fEq a b

/-! ### Helpers of R14 -/

/-- `clamp(x, lo, hi)` of R14, for finite `x` and `lo <= hi`. -/
def clamp (x lo hi : S) : S := if fLt x lo then lo else if fGt x hi then hi else x

/-- `floor(x)` of R14 as a mathematical integer, for finite `x`. -/
def floorInt (x : S) : Int := fInt x / 2 ^ 149

/-- `floor(x)` of R14 as an `S` value, for finite `x`. A zero keeps its sign, and a value that is not finite is returned
as it is (log 9). -/
def fFloor (x : S) : S := if fIsZero x || !fFinite x then x else fOfInt (floorInt x)

/-! ### The named constants of R16 -/

abbrev f0 : S := 0x00000000#32
abbrev f0p1 : S := 0x3DCCCCCD#32
abbrev f0p5 : S := 0x3F000000#32
abbrev f0p707 : S := 0x3F34FDF4#32
abbrev f0p99 : S := 0x3F7D70A4#32
abbrev f1 : S := 0x3F800000#32
abbrev f2 : S := 0x40000000#32
abbrev f3 : S := 0x40400000#32
abbrev f4 : S := 0x40800000#32
abbrev f9 : S := 0x41100000#32
abbrev f12 : S := 0x41400000#32
abbrev f20 : S := 0x41A00000#32
abbrev f100 : S := 0x42C80000#32
abbrev f256 : S := 0x43800000#32
abbrev f440 : S := 0x43DC0000#32
abbrev f1000 : S := 0x447A0000#32
abbrev f10000 : S := 0x461C4000#32
abbrev fTwoPi : S := 0x40C90FDB#32
abbrev fHalfPi : S := 0x3FC90FDB#32
/-- `-1.0`, the low half of the square wave (R110) and the least bend (R197). -/
abbrev fNeg1 : S := 0xBF800000#32
/-- `-2.0` of the coefficient formulas (R134). -/
abbrev fNeg2 : S := 0xC0000000#32
/-- `3.12` of NUM-P4 (R13), the binary32 nearest to it. -/
abbrev f3p12 : S := 0x4047AE14#32
/-- `+infinity`. -/
abbrev fInf : S := 0x7F800000#32
/-- `127.0`, the divisor of the host's volume (R267). -/
abbrev f127 : S := 0x42FE0000#32
/-- `8192.0`, the divisor of the host's pitch bend (R274). -/
abbrev f8192 : S := 0x46000000#32

/-- `Q_MIN`, R16. -/
abbrev qMin : S := f0p1
/-- `Q_MAX`, R16. -/
abbrev qMax : S := f20
/-- `CUT_MIN`, R16. -/
abbrev cutMin : S := f20

/-- `SRf`, SAMPLE_RATE as a binary32 value (R5; exact for the legal rates). -/
def srf (sampleRate : Nat) : S := fOfInt sampleRate

/-- `CUT_MAX = 0.99 * (SRf * 0.5)`, R16. -/
def cutMax (sampleRate : Nat) : S := fMul f0p99 (fMul (srf sampleRate) f0p5)

end Sys2Proof.Machine
end

