-- ==== Sys2Proof/Machine/State.lean ====
section
/-!
DEFINITION. The state of the machine (R20): the block's registers and wavetables, its command and response port, the host
agent beside it (R42), and the parameters of the step (R5, R6, R8; log 1). And the state right after reset (R41).
-/

namespace Sys2Proof.Machine

/-! ### Names the registers hold -/

/-- The five filter modes (R25), numbered 0 to 4 in this order. -/
inductive FilterMode where
  | lowpass | highpass | bandpass | notch | allpass
  deriving DecidableEq, Repr

/-- The five envelope phases (R33), numbered 0 to 4 in this order. -/
inductive EnvPhase where
  | idle | attack | decay | sustain | release
  deriving DecidableEq, Repr

/-- The three waveshaping algorithms (R35), numbered 0 to 2 in this order. -/
inductive Algo where
  | tanhClip | waveFold | softWaveFold
  deriving DecidableEq, Repr

/-! ### The units of the block -/

/-- A wavetable memory (R60): cells (index, word), indices strictly rising, no cell equal to what an unlisted index reads
as (`Memory.unlisted`, the reset contents). The word is the smallest addressable unit (R62, R64; log 8). -/
abbrev Memory := List (Nat × S)

/-- The oscillator of a voice unit (R23, R24). -/
structure Oscillator where
  phase : S
  wt : Memory
  deriving DecidableEq, Repr

/-- One filter register set (R25 to R28): `V[v].FLT` or `PF`. The fields `b0` to `a2` are the coefficient registers
`B0` to `A2`. -/
structure Biquad where
  mode : FilterMode
  cutoff : S
  q : S
  dirty : Bool
  b0 : S
  b1 : S
  b2 : S
  a1 : S
  a2 : S
  z1 : S
  z2 : S
  deriving DecidableEq, Repr

/-- One envelope register set `V[v].ENV[e]` (R29 to R33). -/
structure Envelope where
  atk : S
  dcy : S
  sus : S
  rel : S
  atkRate : S
  dcyRate : S
  relRate : S
  level : S
  phase : EnvPhase
  deriving DecidableEq, Repr

/-- One voice unit (R21, R34): `amp` is `ENV[0]`, `feg` is `ENV[1]`. -/
structure Voice where
  osc : Oscillator
  flt : Biquad
  amp : Envelope
  feg : Envelope
  baseFreq : S
  volume : S
  bend : S
  bendRange : S
  baseCutoff : S
  fegDepth : S
  deriving DecidableEq, Repr

/-- The output unit (R35, R36). -/
structure OutputUnit where
  algo : Algo
  drive : S
  pf : Biquad
  deriving DecidableEq, Repr

/-! ### The host agent (R42) -/

/-- The states of the MIDI stream decoder (R260). -/
inductive DecoderState where
  | initial | need2Bytes | need1Byte
  deriving DecidableEq, Repr

/-- The channel commands the decoder keeps as its current command (R263). -/
inductive MidiCommand where
  | noteOff | noteOn | polyAftertouch | controlChange | programChange | channelPressure | pitchBend
  deriving DecidableEq, Repr

/-- `DecoderState` of the source (R260). -/
structure Decoder where
  state : DecoderState
  cmd : Option MidiCommand
  byte1 : Byte
  deriving DecidableEq, Repr

/-- What is done with the slot that `allocate` returns. -/
inductive NoteAction where
  /-- The decoder triggers its voice (R267). -/
  | trigger (frequency : S) (volume : S)
  /-- The decoder releases its voice (R268, R269). -/
  | release
  /-- The application callback that asked for it gets it (R272, R273). -/
  | handOver
  deriving DecidableEq, Repr

/-- What the host is in the middle of. -/
inductive HostTask where
  /-- Nothing: it takes the next event. -/
  | ready
  /-- Case (c) of `allocate` (R291): it has issued `V.ACTIVE k` for this note and waits for the response. -/
  | scanning (note : Byte) (k : Nat) (act : NoteAction)
  /-- An application callback, that of the newest call: it does the next thing (R270, R272, R273). When `due`, the last
  response is that of its own command, which it has not heard yet. -/
  | inCallback (due : Bool)
  deriving DecidableEq, Repr

/-- Inputs from outside the block and the host agent. -/
inductive HostEvent where
  /-- A MIDI byte arrives (R261). -/
  | midi (b : Byte)
  /-- The platform asks for this many frames (R277). -/
  | frames (n : Nat)
  /-- The block is reset from outside (R330). -/
  | blockReset
  deriving DecidableEq, Repr

/-- The host agent (R42, R260, R290; log 11). -/
structure HostAgent where
  decoder : Decoder
  alloc : Allocator
  task : HostTask
  /-- inputs not yet handled, oldest first -/
  events : List HostEvent
  /-- application callbacks called so far, newest first -/
  calls : List HostCall
  /-- what callbacks got back from their actions so far, newest first -/
  seen : List CallbackResult
  deriving DecidableEq, Repr

/-! ### The machine -/

/-- Parameters of the step (R5, R8): no step writes them (log 1). NVOICES (R6) is the length of `State.voices`. -/
structure Params where
  sampleRate : Nat
  listenChannel : Nat
  deriving DecidableEq, Repr

/-- The state of the machine (R20, R42). -/
structure State where
  params : Params
  voices : List Voice
  op : OutputUnit
  status : BitVec 32
  /-- commands presented to the block and not yet executed, oldest first (R18, R67; log 6) -/
  pending : List Command
  /-- responses the block has emitted, newest first (R83; log 6) -/
  responses : List Response
  host : HostAgent
  deriving DecidableEq, Repr

/-- NVOICES (R6). -/
def State.nVoices (s : State) : Nat := s.voices.length

/-- Reasons a step can stop with a fault. There are none: "every command has an outcome" (spec/93, end of part 1), and
Illegal is a next state (R311). No one raises a fault, which is safe (log 18). -/
inductive Fault where
  deriving DecidableEq, Repr

/-- Reasons a step can be refused. -/
inductive Refusal where
  /-- Raised by an arm of `exec` whose instruction has no meaning yet; no arm is (log 18). Safe: nothing is claimed of
  such a step. -/
  | notModelled (mnemonic : String)
  deriving DecidableEq, Repr

/-! ### Reset (R41, R330) -/

/-- A filter after reset. The coefficient registers are unspecified (R27); they hold zero (DESIGN CHOICE, log 3). -/
def Biquad.reset (cutoff : S) : Biquad :=
  { mode := .lowpass, cutoff := cutoff, q := f0p707, dirty := true,
    b0 := f0, b1 := f0, b2 := f0, a1 := f0, a2 := f0, z1 := f0, z2 := f0 }

/-- An envelope after reset. -/
def Envelope.reset : Envelope :=
  { atk := f0, dcy := f0, sus := f1, rel := f0, atkRate := f1, dcyRate := f1, relRate := f1, level := f0, phase := .idle }

/-- A voice unit after reset. Its wavetable is the shape-0 table, so nothing is listed (log 8). -/
def Voice.reset : Voice :=
  { osc := { phase := f0, wt := [] }, flt := Biquad.reset f1000, amp := Envelope.reset, feg := Envelope.reset,
    baseFreq := f440, volume := f0, bend := f0, bendRange := f2, baseCutoff := f1000, fegDepth := f0 }

/-- The output unit after reset (R41, R230). -/
def OutputUnit.reset (sampleRate : Nat) : OutputUnit :=
  { algo := .tanhClip, drive := f0p5, pf := Biquad.reset (clamp f10000 cutMin (cutMax sampleRate)) }

/-- The host agent before its first event (R260, R290; log 14). -/
def HostAgent.reset (nVoices : Nat) : HostAgent :=
  { decoder := { state := .initial, cmd := none, byte1 := 0 },
    alloc := { slots := List.replicate nVoices none, lastStolen := nVoices - 1 },
    task := .ready, events := [], calls := [], seen := [] }

/-- The machine right after reset, for given parameters (R41). -/
def State.resetAt (params : Params) (nVoices : Nat) : State :=
  { params := params, voices := List.replicate nVoices Voice.reset, op := OutputUnit.reset params.sampleRate,
    status := 0, pending := [], responses := [], host := HostAgent.reset nVoices }

/-- The machine right after reset, with the parameters of Config (log 2). -/
def State.reset : State :=
  State.resetAt { sampleRate := Config.sampleRate, listenChannel := Config.listenChannel } Config.nVoices

end Sys2Proof.Machine
end

