-- ==== Sys2Proof/Machine/Flags.lean ====
section
/-!
DEFINITION. The flags of R38 that are single bits: `STATUS.ILL` (R37) and the dirty flag of a filter (R26). The third
condition-like state, the envelope phase, is written by `Machine/Envelope.lean`. No arithmetic flags exist (R38).
-/

namespace Sys2Proof.Machine

/-- `STATUS.ILL`, bit 0 (R37). -/
def illFlag (status : BitVec 32) : Bool := status.getLsbD 0

/-- `STATUS.ILL <- 1`, the other bits as they are (R37, R311). -/
def setIll (status : BitVec 32) : BitVec 32 := status ||| 1#32

/-- `F.dirty <- 1` (R26). -/
def Biquad.markDirty (f : Biquad) : Biquad := { f with dirty := true }

end Sys2Proof.Machine
end

