-- ==== Sys2Proof/Machine/Operands.lean ====
section
/-!
DEFINITION. The operand forms of a command (R81, R82, R87): the `u` field as envelope number, filter mode or algorithm
index, the voice it names, and the register set an envelope number selects.
-/

namespace Sys2Proof.Machine

/-- An envelope number (R21, R87): 0 amplitude, 1 filter. -/
inductive EnvSel where
  | amp | feg
  deriving DecidableEq, Repr

/-- The envelope number in the `u` field, none when out of range (R87). -/
def EnvSel.ofCode? (u : BitVec 8) : Option EnvSel :=
  match u.toNat with
  | 0 => some .amp
  | 1 => some .feg
  | _ => none

/-- The filter mode in the `u` field, none when out of range (R25, R87). -/
def FilterMode.ofCode? (u : BitVec 8) : Option FilterMode :=
  match u.toNat with
  | 0 => some .lowpass
  | 1 => some .highpass
  | 2 => some .bandpass
  | 3 => some .notch
  | 4 => some .allpass
  | _ => none

/-- The algorithm index in the `u` field, none when out of range (R35, R87). -/
def Algo.ofCode? (u : BitVec 8) : Option Algo :=
  match u.toNat with
  | 0 => some .tanhClip
  | 1 => some .waveFold
  | 2 => some .softWaveFold
  | _ => none

/-- The number of an envelope phase as a response word (R33, R172). -/
def EnvPhase.code : EnvPhase → BitVec 32
  | .idle => 0
  | .attack => 1
  | .decay => 2
  | .sustain => 3
  | .release => 4

/-- `V[v].ENV[e]` (R21). -/
def Voice.env (u : Voice) : EnvSel → Envelope
  | .amp => u.amp
  | .feg => u.feg

/-- `V[v].ENV[e] <- x`. -/
def Voice.setEnv (u : Voice) (e : EnvSel) (x : Envelope) : Voice :=
  match e with
  | .amp => { u with amp := x }
  | .feg => { u with feg := x }

/-- The voice unit a `v` field names, none when `v >= NVOICES` (check 4 of R84). -/
def State.voice? (s : State) (v : BitVec 8) : Option Voice := s.voices[v.toNat]?

end Sys2Proof.Machine
end

