-- ==== Sys2Proof/Machine/Wavetable.lean ====
section
/-!
DEFINITION. The contents of a wavetable for a shape (R110).
-/

namespace Sys2Proof.Machine

/-- `t` of R110, the place of entry `i` in the period. -/
def wtTime (i : Nat) : S := fDiv (fOfInt i) f256

/-- The sawtooth of R110, `2t - 1`. -/
def wtSaw (i : Nat) : S := fSub (fMul f2 (wtTime i)) f1

/-- The triangle of R110. -/
def wtTri (i : Nat) : S :=
  if i < 128 then fSub (fMul f4 (wtTime i)) f1 else fSub f3 (fMul f4 (wtTime i))

/-- The square of R110. -/
def wtSquare (i : Nat) : S := if i < 128 then f1 else fNeg1

/-- The cross-fade `(1 - m) * a + m * b` of R110. -/
def crossFade (m a b : S) : S := fAdd (fMul (fSub f1 m) a) (fMul m b)

/-- `wt_entry(shape, i)` of R110, for `shape` in `[0, 1]`. -/
def wtEntry (shape : S) (i : Nat) : S :=
  if fLt shape f0p5 then crossFade (fMul shape f2) (wtSaw i) (wtTri i)
  else crossFade (fMul (fSub shape f0p5) f2) (wtTri i) (wtSquare i)

end Sys2Proof.Machine
end

