-- ==== Sys2Proof/Machine/Ops.lean ====
section
/-!
DEFINITION. The named operations over memory, registers and the port (R17): `MemRead`, `MemWrite`, `respond`,
`raise Illegal`, and the two shapes in which a command acts on one voice unit. The block has no return from an exception
(R317): none stands here.
-/

namespace Sys2Proof.Machine

/-! ### The wavetable memory (R60, R64; log 8) -/

/-- What an entry that is not listed reads as: the reset contents (R24, R41). -/
def Memory.unlisted (i : Nat) : S := wtEntry f0 i

/-- `MemRead(WT[v], i)` (R17). -/
def Memory.read : Memory → Nat → S
  | [], i => Memory.unlisted i
  | (j, x) :: m, i => if i = j then x else Memory.read m i

/-- The memory with entry `i` not listed. -/
def Memory.erase : Memory → Nat → Memory
  | [], _ => []
  | (j, x) :: m, i => if i < j then (j, x) :: m else if i = j then m else (j, x) :: Memory.erase m i

/-- The memory with entry `i` listed as `x`. -/
def Memory.insert : Memory → Nat → S → Memory
  | [], i, x => [(i, x)]
  | (j, y) :: m, i, x =>
    if i < j then (i, x) :: (j, y) :: m else if i = j then (i, x) :: m else (j, y) :: Memory.insert m i x

/-- `MemWrite(WT[v], i, x)` (R17), keeping the canonical form. -/
def Memory.write (m : Memory) (i : Nat) (x : S) : Memory :=
  if x = Memory.unlisted i then Memory.erase m i else Memory.insert m i x

/-- `for i in 0 .. 255: MemWrite(WT[v], i, f i)` (R111). The writes are to distinct entries in one atomic step (R64), so
their order does not show. -/
def Memory.writeAll (m : Memory) (f : Nat → S) : Memory :=
  (List.range 256).foldr (fun i acc => Memory.write acc i (f i)) m

/-- The canonical form: indices strictly rising and below 256, no cell equal to what its index reads as unlisted. -/
abbrev Memory.wf (m : Memory) : Prop :=
  m.Pairwise (fun a b => a.1 < b.1) ∧ ∀ c ∈ m, c.1 < 256 ∧ c.2 ≠ Memory.unlisted c.1

/-! ### Responses and Illegal -/

/-- `respond(a, b)` (R17, R83). -/
def State.respond (s : State) (r0 r1 : BitVec 32) : State := { s with responses := ⟨0, r0, r1⟩ :: s.responses }

/-- `raise Illegal` (R17, R311): the block's one exception. It saves nothing and transfers control nowhere (R316). -/
def State.raiseIllegal (s : State) : State :=
  { s with status := setIll s.status, responses := ⟨1, 0, 0⟩ :: s.responses }

/-! ### Commands on one voice unit -/

/-- `V[v] <- u`. -/
def State.setVoice (s : State) (v : BitVec 8) (u : Voice) : State := { s with voices := s.voices.set v.toNat u }

/-- A command with a voice operand: Illegal when the voice does not exist (check 4 of R84) or the command's other checks
fail (`legal`); else `f` gives the voice unit after it and the two result words. -/
def State.onVoice (s : State) (v : BitVec 8) (legal : Bool) (f : Voice → Voice × BitVec 32 × BitVec 32) :
    Host.Outcome State Fault Refusal :=
  match s.voice? v with
  | none => .next s.raiseIllegal
  | some u => if legal then .next ((s.setVoice v (f u).1).respond (f u).2.1 (f u).2.2) else .next s.raiseIllegal

/-- A command with a voice and an envelope operand (check 5 of R84): `f` gives the envelope after it and the results. -/
def State.onEnv (s : State) (v e : BitVec 8) (legal : Bool) (f : Envelope → Envelope × BitVec 32 × BitVec 32) :
    Host.Outcome State Fault Refusal :=
  match EnvSel.ofCode? e with
  | none => .next s.raiseIllegal
  | some sel => s.onVoice v legal (fun u => (u.setEnv sel (f (u.env sel)).1, (f (u.env sel)).2))

end Sys2Proof.Machine
end

