-- ==== Sys2Proof/Machine/Envelope.lean ====
section
/-!
DEFINITION. The ADSR envelope generator (spec/42): micro-operations R160 to R164 over an envelope register set, and commands
R165 to R172.
-/

namespace Sys2Proof.Machine

/-- One rate of R160: `num / (time * SRf)`, or 1.0 for a time that is not positive. -/
def envRate (sampleRate : Nat) (num time : S) : S :=
  if fLe time f0 then f1 else fDiv num (fMul time (srf sampleRate))

/-- The three rates `env_rates` gives (R160). -/
structure Rates where
  atk : S
  dcy : S
  rel : S
  deriving DecidableEq, Repr

/-- `env_rates(atk, dcy, sus, rel)`, R160. -/
def envRates (sampleRate : Nat) (atk dcy sus rel : S) : Rates :=
  { atk := envRate sampleRate f1 atk, dcy := envRate sampleRate (fSub f1 sus) dcy, rel := envRate sampleRate sus rel }

/-- The rate registers of an envelope. -/
def Envelope.rates (e : Envelope) : Rates := ⟨e.atkRate, e.dcyRate, e.relRate⟩

/-- The second half of `env_set`: all three rates from the parameters (R161). -/
def envUpdateRates (sampleRate : Nat) (e : Envelope) : Envelope :=
  let r := envRates sampleRate e.atk e.dcy e.sus e.rel
  { e with atkRate := r.atk, dcyRate := r.dcy, relRate := r.rel }

/-- The parameter `env_set` writes (R161). -/
inductive EnvParam where
  | atk | dcy | sus | rel
  deriving DecidableEq, Repr

/-- The first half of `env_set`: write one parameter, the sustain level clamped (R161). -/
def envWriteParam (e : Envelope) (which : EnvParam) (x : S) : Envelope :=
  match which with
  | .atk => { e with atk := x }
  | .dcy => { e with dcy := x }
  | .sus => { e with sus := clamp x f0 f1 }
  | .rel => { e with rel := x }

/-- `env_set(E, which, x)`, R161. -/
def envSet (sampleRate : Nat) (e : Envelope) (which : EnvParam) (x : S) : Envelope :=
  envUpdateRates sampleRate (envWriteParam e which x)

/-- `env_trigger(E)`, R162. -/
def envTrigger (e : Envelope) : Envelope := { e with phase := .attack, level := f0 }

/-- `env_release(E)`, R163. -/
def envRelease (e : Envelope) : Envelope := if e.phase ≠ .idle then { e with phase := .release } else e

/-- The envelope `env_next(E)` leaves (R164). -/
def envStep (e : Envelope) : Envelope :=
  match e.phase with
  | .idle => e
  | .attack =>
    let l := fAdd e.level e.atkRate
    if fGe l f1 then { e with level := f1, phase := .decay } else { e with level := l }
  | .decay =>
    let l := fSub e.level e.dcyRate
    if fLe l e.sus then { e with level := e.sus, phase := .sustain } else { e with level := l }
  | .sustain => { e with level := e.sus }
  | .release =>
    let l := fSub e.level e.relRate
    if fLe l f0 then { e with level := f0, phase := .idle } else { e with level := l }

/-- `env_next(E)`, R164: returns the updated level. -/
def envNext (e : Envelope) : Envelope × S := (envStep e, (envStep e).level)

/-! ### Commands -/

/-- `ENV.SETA v, e, t`, R165. -/
def execEnvSetA (v e : BitVec 8) (t : S) (s : State) : Host.Outcome State Fault Refusal :=
  s.onEnv v e (fFinite t) fun x => (envSet s.params.sampleRate x .atk t, 0, 0)

/-- `ENV.SETD v, e, t`, R166. -/
def execEnvSetD (v e : BitVec 8) (t : S) (s : State) : Host.Outcome State Fault Refusal :=
  s.onEnv v e (fFinite t) fun x => (envSet s.params.sampleRate x .dcy t, 0, 0)

/-- `ENV.SETS v, e, s`, R167. -/
def execEnvSetS (v e : BitVec 8) (level : S) (s : State) : Host.Outcome State Fault Refusal :=
  s.onEnv v e (fFinite level) fun x => (envSet s.params.sampleRate x .sus level, 0, 0)

/-- `ENV.SETR v, e, t`, R168. -/
def execEnvSetR (v e : BitVec 8) (t : S) (s : State) : Host.Outcome State Fault Refusal :=
  s.onEnv v e (fFinite t) fun x => (envSet s.params.sampleRate x .rel t, 0, 0)

/-- `ENV.TRIG v, e`, R169. -/
def execEnvTrig (v e : BitVec 8) (s : State) : Host.Outcome State Fault Refusal :=
  s.onEnv v e true fun x => (envTrigger x, 0, 0)

/-- `ENV.RLS v, e`, R170. -/
def execEnvRls (v e : BitVec 8) (s : State) : Host.Outcome State Fault Refusal :=
  s.onEnv v e true fun x => (envRelease x, 0, 0)

/-- `ENV.NEXT v, e`, R171. -/
def execEnvNext (v e : BitVec 8) (s : State) : Host.Outcome State Fault Refusal :=
  s.onEnv v e true fun x => ((envNext x).1, (envNext x).2, 0)

/-- `ENV.RDP v, e`, R172. -/
def execEnvRdp (v e : BitVec 8) (s : State) : Host.Outcome State Fault Refusal :=
  s.onEnv v e true fun x => (x, x.phase.code, x.level)

end Sys2Proof.Machine
end

