-- ==== Sys2Proof/Machine/Num.lean ====
section
/-!
DEFINITION. The record `NUM` of rules R9 and R13: five total functions, of which only NUM-P1 to NUM-P7 are known. The
machine's `NUM` is the free functions of Config with the bounds of R13 put on them (log 4): it may be any admitted `NUM`
(an admitted one passes through `NumFns.bounded` unchanged) and is always one. NUM-P1 is what a function type says.
-/

namespace Sys2Proof.Machine

/-- The record `NUM` (R13). It is a parameter of the micro-operations, never a field of State. -/
structure NumFns where
  sin : S → S
  cos : S → S
  tanh : S → S
  exp2 : S → S
  pow100 : S → S

/-- The magnitude of a finite value at most 1. -/
def absAtMostOne (r : S) : Bool := fFinite r && fLe (fAbs r) f1

/-- The operands NUM-P4 speaks of: finite `w` with `0 <= w <= 3.12`. -/
def inP4Range (w : S) : Bool := fFinite w && fLe f0 w && fLe w f3p12

/-- The results NUM-P7 allows: `+0`, positive finite, or `+infinity`. -/
def notNegativeNorNaN (r : S) : Bool := !fSign r && !fIsNaN r

/-- The results NUM-P6 allows: finite, `1 <= r <= 100`. -/
def inP6Range (r : S) : Bool := fFinite r && fLe f1 r && fLe r f100

/-- What R13 lets the machine assume of `NUM`. -/
structure NumFns.Admitted (num : NumFns) : Prop where
  /-- NUM-P2 -/
  p2 : num.exp2 f0 = f1 ∧ num.exp2 (fNeg f0) = f1
  /-- NUM-P3 -/
  p3 : num.sin f0 = f0 ∧ num.sin (fNeg f0) = fNeg f0 ∧ num.tanh f0 = f0 ∧ num.tanh (fNeg f0) = fNeg f0
  /-- NUM-P4 -/
  p4 : ∀ w, inP4Range w = true →
    fFinite (num.sin w) = true ∧ fLe f0 (num.sin w) = true ∧ absAtMostOne (num.cos w) = true
  /-- NUM-P5 -/
  p5 : ∀ x, fFinite x = true → absAtMostOne (num.tanh x) = true ∧ absAtMostOne (num.sin x) = true
  /-- NUM-P6 -/
  p6 : (∀ d, fFinite d = true → fLe f0 d = true → fLe d f1 = true → inP6Range (num.pow100 d) = true) ∧
    num.pow100 f0 = f1 ∧ num.pow100 f1 = f100
  /-- NUM-P7 -/
  p7 : ∀ x, fFinite x = true → notNegativeNorNaN (num.exp2 x) = true

/-- `NUM.sin` from a free function: the bounds NUM-P3, NUM-P4, NUM-P5. -/
def boundedSin (free : S → S) (x : S) : S :=
  if fIsZero x then x
  else if !fFinite x then free x
  else if absAtMostOne (free x) && (!inP4Range x || fLe f0 (free x)) then free x
  else f0

/-- `NUM.cos` from a free function: the bound NUM-P4. -/
def boundedCos (free : S → S) (x : S) : S :=
  if inP4Range x && !absAtMostOne (free x) then f1 else free x

/-- `NUM.tanh` from a free function: the bounds NUM-P3, NUM-P5. -/
def boundedTanh (free : S → S) (x : S) : S :=
  if fIsZero x then x else if fFinite x && !absAtMostOne (free x) then f0 else free x

/-- `NUM.exp2` from a free function: the bounds NUM-P2, NUM-P7. -/
def boundedExp2 (free : S → S) (x : S) : S :=
  if fIsZero x then f1 else if fFinite x && !notNegativeNorNaN (free x) then f1 else free x

/-- `NUM.pow100` from a free function: the bound NUM-P6. -/
def boundedPow100 (free : S → S) (d : S) : S :=
  if d = f0 then f1
  else if d = f1 then f100
  else if fFinite d && fLe f0 d && fLe d f1 && !inP6Range (free d) then f1
  else free d

/-- A free record with the bounds of R13 put on it. -/
def NumFns.bounded (free : NumFns) : NumFns :=
  { sin := boundedSin free.sin, cos := boundedCos free.cos, tanh := boundedTanh free.tanh,
    exp2 := boundedExp2 free.exp2, pow100 := boundedPow100 free.pow100 }

/-- The machine's `NUM` (R9). -/
def NumFns.machine : NumFns := NumFns.bounded ⟨Config.sin, Config.cos, Config.tanh, Config.exp2, Config.pow100⟩

end Sys2Proof.Machine
end

