-- ==== Sys2Proof/Machine/Filter.lean ====
section
/-!
DEFINITION. The biquad filter and its coefficient update control (spec/41): micro-operations R130 to R135 over a filter
register set (`V[v].FLT` or `PF`), and commands R136 to R140.
-/

namespace Sys2Proof.Machine

/-! ### Setters and the dirty flag -/

/-- `flt_set_mode(F, m)`, R130. -/
def fltSetMode (f : Biquad) (m : FilterMode) : Biquad := if m ≠ f.mode then { f with mode := m }.markDirty else f

/-- The cutoff `flt_set_cutoff` stores for `c` (R131); the two branches for a value that is not finite are the rule's own. -/
def cutoffStored (sampleRate : Nat) (c : S) : S :=
  if fFinite c then clamp c cutMin (cutMax sampleRate) else if fEq c fInf then cutMax sampleRate else cutMin

/-- `flt_set_cutoff(F, c)`, R131: compared after clamping. -/
def fltSetCutoff (sampleRate : Nat) (f : Biquad) (c : S) : Biquad :=
  if fNe (cutoffStored sampleRate c) f.cutoff then { f with cutoff := cutoffStored sampleRate c }.markDirty else f

/-- `flt_set_q(F, q)`, R132. -/
def fltSetQ (f : Biquad) (q : S) : Biquad :=
  if fNe (clamp q qMin qMax) f.q then { f with q := clamp q qMin qMax }.markDirty else f

/-- `flt_reset(F)`, R133. -/
def fltReset (f : Biquad) : Biquad := { f with z1 := f0, z2 := f0 }

/-! ### Coefficients -/

/-- The five normalised coefficients (R27, R134). -/
structure Coeffs where
  b0 : S
  b1 : S
  b2 : S
  a1 : S
  a2 : S
  deriving DecidableEq, Repr

/-- The numerator `(b0, b1, b2)` of each mode (R134), from `cs` and `alpha`. -/
def numerator (mode : FilterMode) (cs alpha : S) : S × S × S :=
  match mode with
  | .lowpass => (fDiv (fSub f1 cs) f2, fSub f1 cs, fDiv (fSub f1 cs) f2)
  | .highpass => (fDiv (fAdd f1 cs) f2, fNeg (fAdd f1 cs), fDiv (fAdd f1 cs) f2)
  | .bandpass => (alpha, f0, fNeg alpha)
  | .notch => (f1, fMul fNeg2 cs, f1)
  | .allpass => (fSub f1 alpha, fMul fNeg2 cs, fAdd f1 alpha)

/-- `w0` of R134. -/
def angularFrequency (sampleRate : Nat) (cutoff : S) : S := fDiv (fMul fTwoPi cutoff) (srf sampleRate)

/-- `coeffs(mode, cutoff, q)`, R134. -/
def coeffs (num : NumFns) (sampleRate : Nat) (mode : FilterMode) (cutoff q : S) : Coeffs :=
  let w0 := angularFrequency sampleRate cutoff
  let cs := num.cos w0
  let alpha := fDiv (num.sin w0) (fMul f2 q)
  let a0 := fAdd f1 alpha
  let a1 := fMul fNeg2 cs
  let a2 := fSub f1 alpha
  let b := numerator mode cs alpha
  { b0 := fDiv b.1 a0, b1 := fDiv b.2.1 a0, b2 := fDiv b.2.2 a0, a1 := fDiv a1 a0, a2 := fDiv a2 a0 }

/-- The coefficient registers of a filter. -/
def Biquad.coeffs (f : Biquad) : Coeffs := ⟨f.b0, f.b1, f.b2, f.a1, f.a2⟩

/-- `flt_recompute(F)`, R134. -/
def fltRecompute (num : NumFns) (sampleRate : Nat) (f : Biquad) : Biquad :=
  let k := Machine.coeffs num sampleRate f.mode f.cutoff f.q
  { f with b0 := k.b0, b1 := k.b1, b2 := k.b2, a1 := k.a1, a2 := k.a2, dirty := false }

/-! ### One sample -/

/-- The difference equations of R135, with the coefficients the registers hold. -/
def fltRun (f : Biquad) (x : S) : Biquad × S :=
  let y := fAdd (fMul f.b0 x) f.z1
  ({ f with z1 := fAdd (fSub (fMul f.b1 x) (fMul f.a1 y)) f.z2, z2 := fSub (fMul f.b2 x) (fMul f.a2 y) }, y)

/-- `flt_process(F, x)`, R135: recompute when dirty, then run. -/
def fltProcess (num : NumFns) (sampleRate : Nat) (f : Biquad) (x : S) : Biquad × S :=
  fltRun (if f.dirty then fltRecompute num sampleRate f else f) x

/-! ### Commands -/

/-- `FLT.MODE v, mode`, R136. -/
def execFltMode (v : BitVec 8) (mode : BitVec 8) (s : State) : Host.Outcome State Fault Refusal :=
  match FilterMode.ofCode? mode with
  | none => .next s.raiseIllegal
  | some m => s.onVoice v true fun u => ({ u with flt := fltSetMode u.flt m }, 0, 0)

/-- `FLT.CUT v, cutoff`, R137. -/
def execFltCut (v : BitVec 8) (cutoff : S) (s : State) : Host.Outcome State Fault Refusal :=
  s.onVoice v (fFinite cutoff) fun u => ({ u with flt := fltSetCutoff s.params.sampleRate u.flt cutoff }, 0, 0)

/-- `FLT.Q v, q`, R138. -/
def execFltQ (v : BitVec 8) (q : S) (s : State) : Host.Outcome State Fault Refusal :=
  s.onVoice v (fFinite q) fun u => ({ u with flt := fltSetQ u.flt q }, 0, 0)

/-- `FLT.RST v`, R139. -/
def execFltRst (v : BitVec 8) (s : State) : Host.Outcome State Fault Refusal :=
  s.onVoice v true fun u => ({ u with flt := fltReset u.flt }, 0, 0)

/-- `FLT.PROC v, x` for a given `NUM`, R140. -/
def execFltProcWith (num : NumFns) (v : BitVec 8) (x : S) (s : State) : Host.Outcome State Fault Refusal :=
  s.onVoice v (fFinite x) fun u =>
    let r := fltProcess num s.params.sampleRate u.flt x
    ({ u with flt := r.1 }, r.2, 0)

/-- `FLT.PROC v, x`, R140. -/
def execFltProc (v : BitVec 8) (x : S) (s : State) : Host.Outcome State Fault Refusal :=
  execFltProcWith NumFns.machine v x s

end Sys2Proof.Machine
end

