-- ==== Sys2Proof/Machine/Oscillator.lean ====
section
/-!
DEFINITION. The wavetable oscillator (spec/40): micro-operations R112, R113 and commands R111, R112, R114, R115.
-/

namespace Sys2Proof.Machine

/-- The table index of a position, `floor(pos)` (R113), reduced mod 256 so that it is an index in every state (log 9). -/
def tableIndex (pos : S) : Nat := (floorInt pos % 256).toNat

/-- The phase register after an advance to `p` (R113): wrapped into `[0, 1)`, or `+0.0`. -/
def wrapPhase (p : S) : S :=
  if fFinite p then
    let p2 := fSub p (fFloor p)
    if fGe p2 f0 && fLt p2 f1 then p2 else f0
  else f0

/-- The linear interpolation of R113 at position `pos`. -/
def interpolate (wt : Memory) (pos : S) : S :=
  let k := tableIndex pos
  let frac := fSub pos (fFloor pos)
  let a := Memory.read wt k
  let b := Memory.read wt ((k + 1) % 256)
  fAdd a (fMul frac (fSub b a))

/-- `osc_reset(v)`, R112. -/
def oscReset (o : Oscillator) : Oscillator := { o with phase := f0 }

/-- `osc_next(v, f)`, R113: read first, then advance. -/
def oscNext (sampleRate : Nat) (o : Oscillator) (f : S) : Oscillator × S :=
  ({ o with phase := wrapPhase (fAdd o.phase (fDiv f (srf sampleRate))) }, interpolate o.wt (fMul o.phase f256))

/-- `OSC.WT v, shape`, R111. -/
def execOscWt (v : BitVec 8) (shape : S) (s : State) : Host.Outcome State Fault Refusal :=
  s.onVoice v (fFinite shape) fun u =>
    ({ u with osc := { u.osc with wt := Memory.writeAll u.osc.wt (wtEntry (clamp shape f0 f1)) } }, 0, 0)

/-- `OSC.RST v`, R112. -/
def execOscRst (v : BitVec 8) (s : State) : Host.Outcome State Fault Refusal :=
  s.onVoice v true fun u => ({ u with osc := oscReset u.osc }, 0, 0)

/-- `OSC.NEXT v, frequency`, R114. -/
def execOscNext (v : BitVec 8) (frequency : S) (s : State) : Host.Outcome State Fault Refusal :=
  s.onVoice v (fFinite frequency) fun u =>
    let r := oscNext s.params.sampleRate u.osc frequency
    ({ u with osc := r.1 }, r.2, 0)

/-- `OSC.RDT v, i`, R115. -/
def execOscRdt (v : BitVec 8) (i : BitVec 8) (s : State) : Host.Outcome State Fault Refusal :=
  s.onVoice v true fun u => (u, Memory.read u.osc.wt i.toNat, 0)

end Sys2Proof.Machine
end

