-- ==== Sys2Proof/Machine/Voice.lean ====
section
/-!
DEFINITION. The voice unit (spec/43): micro-operations R190 to R193 and commands R194 to R201.
-/

namespace Sys2Proof.Machine

/-- `voice_trigger(v, f, vol)`, R190. -/
def voiceTrigger (u : Voice) (frequency volume : S) : Voice :=
  { u with baseFreq := frequency, volume := clamp volume f0 f1, osc := oscReset u.osc, flt := fltReset u.flt,
           amp := envTrigger u.amp, feg := envTrigger u.feg }

/-- `voice_release(v)`, R191. -/
def voiceRelease (u : Voice) : Voice := { u with amp := envRelease u.amp, feg := envRelease u.feg }

/-- `voice_is_active(v)`, R193. -/
def voiceIsActive (u : Voice) : Bool := u.amp.phase ≠ .idle

/-- The bent frequency `f` of R192. -/
def bentFrequency (num : NumFns) (u : Voice) : S :=
  fMul u.baseFreq (num.exp2 (fDiv (fMul u.bend u.bendRange) f12))

/-- The modulated cutoff `c` of R192, for the filter-envelope level `e`. -/
def modulatedCutoff (u : Voice) (e : S) : S := fMul u.baseCutoff (fAdd f1 (fMul (fMul e u.fegDepth) f9))

/-- `voice_next(v)`, R192. -/
def voiceNext (num : NumFns) (sampleRate : Nat) (u : Voice) : Voice × S :=
  if u.amp.phase = .idle then (u, f0)
  else
    let osc := oscNext sampleRate u.osc (bentFrequency num u)
    let a := envNext u.amp
    let e := envNext u.feg
    let flt := fltProcess num sampleRate (fltSetCutoff sampleRate u.flt (modulatedCutoff u e.2)) osc.2
    ({ u with osc := osc.1, amp := a.1, feg := e.1, flt := flt.1 }, fMul flt.2 (fMul a.2 u.volume))

/-! ### Commands -/

/-- `V.TRIG v, frequency, volume`, R194. -/
def execVTrig (v : BitVec 8) (frequency volume : S) (s : State) : Host.Outcome State Fault Refusal :=
  s.onVoice v (fFinite frequency && fFinite volume && fGt frequency f0) fun u =>
    (voiceTrigger u frequency volume, 0, 0)

/-- `V.RLS v`, R195. -/
def execVRls (v : BitVec 8) (s : State) : Host.Outcome State Fault Refusal :=
  s.onVoice v true fun u => (voiceRelease u, 0, 0)

/-- `V.NEXT v` for a given `NUM`, R196. -/
def execVNextWith (num : NumFns) (v : BitVec 8) (s : State) : Host.Outcome State Fault Refusal :=
  s.onVoice v true fun u =>
    let r := voiceNext num s.params.sampleRate u
    (r.1, r.2, 0)

/-- `V.NEXT v`, R196. -/
def execVNext (v : BitVec 8) (s : State) : Host.Outcome State Fault Refusal := execVNextWith NumFns.machine v s

/-- `V.BEND v, bend`, R197. -/
def execVBend (v : BitVec 8) (bend : S) (s : State) : Host.Outcome State Fault Refusal :=
  s.onVoice v (fFinite bend) fun u => ({ u with bend := clamp bend fNeg1 f1 }, 0, 0)

/-- `V.BRNG v, semitones`, R198: stored as it is. -/
def execVBrng (v : BitVec 8) (semitones : S) (s : State) : Host.Outcome State Fault Refusal :=
  s.onVoice v (fFinite semitones) fun u => ({ u with bendRange := semitones }, 0, 0)

/-- `V.CUT v, cutoff`, R199. -/
def execVCut (v : BitVec 8) (cutoff : S) (s : State) : Host.Outcome State Fault Refusal :=
  s.onVoice v (fFinite cutoff) fun u => ({ u with baseCutoff := clamp cutoff cutMin (cutMax s.params.sampleRate) }, 0, 0)

/-- `V.DEPTH v, depth`, R200. -/
def execVDepth (v : BitVec 8) (depth : S) (s : State) : Host.Outcome State Fault Refusal :=
  s.onVoice v (fFinite depth) fun u => ({ u with fegDepth := clamp depth f0 f1 }, 0, 0)

/-- `V.ACTIVE v`, R201. -/
def execVActive (v : BitVec 8) (s : State) : Host.Outcome State Fault Refusal :=
  s.onVoice v true fun u => (u, if voiceIsActive u then 1 else 0, 0)

end Sys2Proof.Machine
end

