-- ==== Sys2Proof/Machine/Output.lean ====
section
/-!
DEFINITION. The output unit (spec/44): the gain R220, the transfer functions R221 to R223, `op_process` R224, and commands
R225 to R228.
-/

namespace Sys2Proof.Machine

/-- `op_gain(drive)`, R220. -/
def opGain (num : NumFns) (drive : S) : S := fMul f0p1 (num.pow100 drive)

/-- Algorithm 1, WaveFold (R222). -/
def waveFold (u : S) : S :=
  let d := fSub u f1
  let r := fSub d (fMul f4 (fFloor (fDiv d f4)))
  fSub (fAbs (fSub r f2)) f1

/-- The transfer function of an algorithm on the amplified sample (R221, R222, R223; log 19). -/
def shaper (num : NumFns) (algo : Algo) (u : S) : S :=
  match algo with
  | .tanhClip => num.tanh u
  | .waveFold => waveFold u
  | .softWaveFold => num.sin (fMul fHalfPi u)

/-- The first half of `op_process` (R224): amplify and shape; a sample that is not finite is muted. -/
def shapeSample (num : NumFns) (algo : Algo) (drive x : S) : S :=
  let u := fMul (opGain num drive) x
  if fFinite u then shaper num algo u else f0

/-- `op_process(x)`, R224. -/
def opProcess (num : NumFns) (sampleRate : Nat) (o : OutputUnit) (x : S) : OutputUnit × S :=
  let r := fltProcess num sampleRate o.pf (shapeSample num o.algo o.drive x)
  ({ o with pf := r.1 }, r.2)

/-- The loop of `RENDER` (R228): every voice in ascending number advances one sample, and `acc` adds them up. -/
def renderVoices (num : NumFns) (sampleRate : Nat) : List Voice → S → List Voice × S
  | [], acc => ([], acc)
  | u :: us, acc =>
    let r := voiceNext num sampleRate u
    let rest := renderVoices num sampleRate us (fAdd acc r.2)
    (r.1 :: rest.1, rest.2)

/-! ### Commands -/

/-- `OP.ALGO index`, R225. -/
def execOpAlgo (index : BitVec 8) (s : State) : Host.Outcome State Fault Refusal :=
  match Algo.ofCode? index with
  | none => .next s.raiseIllegal
  | some a => .next ({ s with op := { s.op with algo := a, pf := fltReset s.op.pf } }.respond 0 0)

/-- `OP.DRIVE drive`, R226. -/
def execOpDrive (drive : S) (s : State) : Host.Outcome State Fault Refusal :=
  if fFinite drive then .next ({ s with op := { s.op with drive := clamp drive f0 f1 } }.respond 0 0)
  else .next s.raiseIllegal

/-- `OP.PROC x` for a given `NUM`, R227. -/
def execOpProcWith (num : NumFns) (x : S) (s : State) : Host.Outcome State Fault Refusal :=
  if fFinite x then
    let r := opProcess num s.params.sampleRate s.op x
    .next ({ s with op := r.1 }.respond r.2 0)
  else .next s.raiseIllegal

/-- `OP.PROC x`, R227. -/
def execOpProc (x : S) (s : State) : Host.Outcome State Fault Refusal := execOpProcWith NumFns.machine x s

/-- `RENDER` for a given `NUM`, R228. -/
def execRenderWith (num : NumFns) (s : State) : Host.Outcome State Fault Refusal :=
  let mix := renderVoices num s.params.sampleRate s.voices f0
  let r := opProcess num s.params.sampleRate s.op mix.2
  .next ({ s with voices := mix.1, op := r.1 }.respond r.2 r.2)

/-- `RENDER`, R228. -/
def execRender (s : State) : Host.Outcome State Fault Refusal := execRenderWith NumFns.machine s

end Sys2Proof.Machine
end

