-- ==== Sys2Proof/Machine/System.lean ====
section
/-!
DEFINITION. The system commands (spec/45): `NOP` R250 and `STATUS.RD` R251. There are no others (R252).
-/

namespace Sys2Proof.Machine

/-- `NOP`, R250. -/
def execNop (s : State) : Host.Outcome State Fault Refusal := .next (s.respond 0 0)

/-- `STATUS.RD`, R251: reading does not clear the flag. -/
def execStatusRd (s : State) : Host.Outcome State Fault Refusal := .next (s.respond s.status 0)

end Sys2Proof.Machine
end

