-- ==== Sys2Proof/Machine/Dispatch.lean ====
section
/-!
DEFINITION. The meaning of every command: one arm per constructor, one meaning per arm.
-/

namespace Sys2Proof.Machine

def exec (i : Instr) (s : State) : Host.Outcome State Fault Refusal :=
  match i with
  -- system (spec/45)
  | .nop => Sys2Proof.Machine.execNop s
  | .statusRd => Sys2Proof.Machine.execStatusRd s
  -- oscillator (spec/40)
  | .oscWt v shape => Sys2Proof.Machine.execOscWt v shape s
  | .oscRst v => Sys2Proof.Machine.execOscRst v s
  | .oscNext v frequency => Sys2Proof.Machine.execOscNext v frequency s
  | .oscRdt v i' => Sys2Proof.Machine.execOscRdt v i' s
  -- filter (spec/41)
  | .fltMode v mode => Sys2Proof.Machine.execFltMode v mode s
  | .fltCut v cutoff => Sys2Proof.Machine.execFltCut v cutoff s
  | .fltQ v q => Sys2Proof.Machine.execFltQ v q s
  | .fltRst v => Sys2Proof.Machine.execFltRst v s
  | .fltProc v x => Sys2Proof.Machine.execFltProc v x s
  -- envelope (spec/42)
  | .envSetA v e t => Sys2Proof.Machine.execEnvSetA v e t s
  | .envSetD v e t => Sys2Proof.Machine.execEnvSetD v e t s
  | .envSetS v e level => Sys2Proof.Machine.execEnvSetS v e level s
  | .envSetR v e t => Sys2Proof.Machine.execEnvSetR v e t s
  | .envTrig v e => Sys2Proof.Machine.execEnvTrig v e s
  | .envRls v e => Sys2Proof.Machine.execEnvRls v e s
  | .envNext v e => Sys2Proof.Machine.execEnvNext v e s
  | .envRdp v e => Sys2Proof.Machine.execEnvRdp v e s
  -- voice (spec/43)
  | .vTrig v frequency volume => Sys2Proof.Machine.execVTrig v frequency volume s
  | .vRls v => Sys2Proof.Machine.execVRls v s
  | .vNext v => Sys2Proof.Machine.execVNext v s
  | .vBend v bend => Sys2Proof.Machine.execVBend v bend s
  | .vBrng v semitones => Sys2Proof.Machine.execVBrng v semitones s
  | .vCut v cutoff => Sys2Proof.Machine.execVCut v cutoff s
  | .vDepth v depth => Sys2Proof.Machine.execVDepth v depth s
  | .vActive v => Sys2Proof.Machine.execVActive v s
  -- output unit (spec/44)
  | .opAlgo index => Sys2Proof.Machine.execOpAlgo index s
  | .opDrive drive => Sys2Proof.Machine.execOpDrive drive s
  | .opProc x => Sys2Proof.Machine.execOpProc x s
  | .render => Sys2Proof.Machine.execRender s

end Sys2Proof.Machine
end

