-- ==== Sys2Proof/WellFormed.lean ====
section
/-!
DEFINITION. The checks by value that R84 makes on a decoded command and that depend on the command alone: 5 (ranges of the
`u` field, R87), 6 (used operand words are finite, R88) and 7 (frequency of `V.TRIG`). Check 4 (`v < NVOICES`) needs
NVOICES: `Instr.voiceBelow`. A command that fails one is refused as Illegal by its meaning (R312).
-/

namespace Sys2Proof

open Sys2Proof.Machine

/-- Check 5 of R84, with the ranges of R87. -/
def Instr.unitInRange : Instr → Bool
  | .envSetA _ e _ | .envSetD _ e _ | .envSetS _ e _ | .envSetR _ e _ => e.toNat ≤ 1
  | .envTrig _ e | .envRls _ e | .envNext _ e | .envRdp _ e => e.toNat ≤ 1
  | .fltMode _ m => m.toNat ≤ 4
  | .opAlgo u => u.toNat ≤ 2
  | .nop | .statusRd | .oscWt _ _ | .oscRst _ | .oscNext _ _ | .oscRdt _ _ | .fltCut _ _ | .fltQ _ _ | .fltRst _
  | .fltProc _ _ | .vTrig _ _ _ | .vRls _ | .vNext _ | .vBend _ _ | .vBrng _ _ | .vCut _ _ | .vDepth _ _ | .vActive _
  | .opDrive _ | .opProc _ | .render => true

/-- Check 6 of R84: every operand word the command uses is finite (R88, R312). -/
def Instr.operandsFinite : Instr → Bool
  | .oscWt _ a | .oscNext _ a | .fltCut _ a | .fltQ _ a | .fltProc _ a => fFinite a
  | .envSetA _ _ a | .envSetD _ _ a | .envSetS _ _ a | .envSetR _ _ a => fFinite a
  | .vTrig _ a b => fFinite a && fFinite b
  | .vBend _ a | .vBrng _ a | .vCut _ a | .vDepth _ a => fFinite a
  | .opDrive a | .opProc a => fFinite a
  | .nop | .statusRd | .oscRst _ | .oscRdt _ _ | .fltMode _ _ | .fltRst _ | .envTrig _ _ | .envRls _ _ | .envNext _ _
  | .envRdp _ _ | .vRls _ | .vNext _ | .vActive _ | .opAlgo _ | .render => true

/-- Check 7 of R84: the frequency of `V.TRIG` is above zero (R194). -/
def Instr.frequencyPositive : Instr → Bool
  | .vTrig _ a _ => fGt a f0
  | .nop | .statusRd | .oscWt _ _ | .oscRst _ | .oscNext _ _ | .oscRdt _ _ | .fltMode _ _ | .fltCut _ _ | .fltQ _ _
  | .fltRst _ | .fltProc _ _ | .envSetA _ _ _ | .envSetD _ _ _ | .envSetS _ _ _ | .envSetR _ _ _ | .envTrig _ _
  | .envRls _ _ | .envNext _ _ | .envRdp _ _ | .vRls _ | .vNext _ | .vBend _ _ | .vBrng _ _ | .vCut _ _ | .vDepth _ _
  | .vActive _ | .opAlgo _ | .opDrive _ | .opProc _ | .render => true

/-- Checks 5, 6 and 7 of R84. -/
def Instr.wellFormed (i : Instr) : Bool := i.unitInRange && i.operandsFinite && i.frequencyPositive

/-- The voice operand of a command, for the commands that use the `v` field (R85). -/
def Instr.voiceField : Instr → Option (BitVec 8)
  | .oscWt v _ | .oscRst v | .oscNext v _ | .oscRdt v _ => some v
  | .fltMode v _ | .fltCut v _ | .fltQ v _ | .fltRst v | .fltProc v _ => some v
  | .envSetA v _ _ | .envSetD v _ _ | .envSetS v _ _ | .envSetR v _ _ => some v
  | .envTrig v _ | .envRls v _ | .envNext v _ | .envRdp v _ => some v
  | .vTrig v _ _ | .vRls v | .vNext v | .vBend v _ | .vBrng v _ | .vCut v _ | .vDepth v _ | .vActive v => some v
  | .nop | .statusRd | .opAlgo _ | .opDrive _ | .opProc _ | .render => none

/-- Check 4 of R84: a command that uses `v` names a voice unit that exists. -/
def Instr.voiceBelow (nVoices : Nat) (i : Instr) : Bool :=
  match i.voiceField with
  | some v => v.toNat < nVoices
  | none => true

/-- The command reads operand A (column "uses" of R85). -/
def Instr.usesA : Instr → Bool
  | .oscWt _ _ | .oscNext _ _ | .fltCut _ _ | .fltQ _ _ | .fltProc _ _ | .envSetA _ _ _ | .envSetD _ _ _ | .envSetS _ _ _
  | .envSetR _ _ _ | .vTrig _ _ _ | .vBend _ _ | .vBrng _ _ | .vCut _ _ | .vDepth _ _ | .opDrive _ | .opProc _ => true
  | .nop | .statusRd | .oscRst _ | .oscRdt _ _ | .fltMode _ _ | .fltRst _ | .envTrig _ _ | .envRls _ _ | .envNext _ _
  | .envRdp _ _ | .vRls _ | .vNext _ | .vActive _ | .opAlgo _ | .render => false

/-- The command reads operand B (column "uses" of R85). -/
def Instr.usesB (i : Instr) : Bool :=
  match i with
  | .vTrig _ _ _ => true
  | .nop | .statusRd | .oscWt _ _ | .oscRst _ | .oscNext _ _ | .oscRdt _ _ | .fltMode _ _ | .fltCut _ _ | .fltQ _ _
  | .fltRst _ | .fltProc _ _ | .envSetA _ _ _ | .envSetD _ _ _ | .envSetS _ _ _ | .envSetR _ _ _ | .envTrig _ _
  | .envRls _ _ | .envNext _ _ | .envRdp _ _ | .vRls _ | .vNext _ | .vBend _ _ | .vBrng _ _ | .vCut _ _ | .vDepth _ _
  | .vActive _ | .opAlgo _ | .opDrive _ | .opProc _ | .render => false

end Sys2Proof
end

