-- ==== Sys2Proof/Machine/HostAgent.lean ====
section
/-!
DEFINITION. The host agent (R4, R42): the MIDI stream decoder (spec/48), the voice allocator (spec/49), and the render loop
(R277). It acts on the block only by issuing commands, and reads of it only responses: the allocator that of `V.ACTIVE`
(R291), an application callback those of its own commands (R270, R272, R273). It moves when no command is pending (log 11).
-/

namespace Sys2Proof.Machine

/-! ### The decoder (R260 to R266) -/

/-- The channel command of a status byte's high nibble (R263); 0xF is no channel command. -/
def MidiCommand.ofNibble (n : Nat) : Option MidiCommand :=
  match n with
  | 0x8 => some .noteOff
  | 0x9 => some .noteOn
  | 0xA => some .polyAftertouch
  | 0xB => some .controlChange
  | 0xC => some .programChange
  | 0xD => some .channelPressure
  | 0xE => some .pitchBend
  | _ => none

/-- The state in which the decoder waits for the data bytes of a command (R263, R265). -/
def MidiCommand.waiting : MidiCommand → DecoderState
  | .programChange | .channelPressure => .need1Byte
  | .noteOff | .noteOn | .polyAftertouch | .controlChange | .pitchBend => .need2Bytes

/-- A complete message: `cmd`, `byte1`, `byte2`. For a one-data-byte command `byte1` is dead (R265). -/
structure MidiMessage where
  cmd : MidiCommand
  byte1 : Byte
  byte2 : Byte
  deriving DecidableEq, Repr

/-- Step 2 of the decoder, R263: a status byte that is not Real-Time. -/
def Decoder.status (listenChannel : Nat) (d : Decoder) (b : Byte) : Decoder :=
  if b.toNat % 16 ≠ listenChannel then { d with state := .initial, cmd := none }
  else
    match MidiCommand.ofNibble (b.toNat / 16) with
    | some c => { d with state := c.waiting, cmd := some c }
    | none => { d with state := .initial, cmd := none }

/-- `process(byte)` up to dispatch: steps 1 to 5 in order (R262 to R266). -/
def Decoder.process (listenChannel : Nat) (d : Decoder) (b : Byte) : Decoder × Option MidiMessage :=
  if 0xF8 ≤ b.toNat then (d, none)
  else if 0x80 ≤ b.toNat then (d.status listenChannel b, none)
  else
    match d.state, d.cmd with
    | .need2Bytes, _ => ({ d with byte1 := b, state := .need1Byte }, none)
    | .need1Byte, some c => ({ d with state := c.waiting }, some ⟨c, d.byte1, b⟩)
    | .need1Byte, none => (d, none)
    | .initial, _ => (d, none)

/-! ### The allocator (R290 to R293) -/

/-- `findAllocated(note)`, R292. -/
def Allocator.findAllocated (a : Allocator) (note : Byte) : Option Nat := a.slots.findIdx? (· == some note)

/-- The lowest-numbered unassigned slot, case (b) of R291. -/
def Allocator.firstFree (a : Allocator) : Option Nat := a.slots.findIdx? (· == none)

/-- `slot[k].note <- note`. -/
def Allocator.assign (a : Allocator) (k : Nat) (note : Byte) : Allocator :=
  { a with slots := a.slots.set k (some note) }

/-- The next slot after the last-stolen index, case (d) of R291. -/
def Allocator.nextRoundRobin (a : Allocator) (nVoices : Nat) : Nat := (a.lastStolen + 1) % nVoices

/-! ### Issuing commands -/

/-- The `v` field that names slot `k`'s voice unit (R276). -/
def voiceNumber (k : Nat) : BitVec 8 := BitVec.ofNat 8 k

/-- The commands a note action is on slot `k` (R276). -/
def NoteAction.commands (act : NoteAction) (k : Nat) : List Instr :=
  match act with
  | .trigger f vol => [.vTrig (voiceNumber k) f vol]
  | .release => [.vRls (voiceNumber k)]
  | .handOver => []

/-- What a callback is told of slot `k`: the slot it asked for. -/
def NoteAction.told (act : NoteAction) (k : Nat) : List CallbackResult :=
  match act with
  | .trigger _ _ | .release => []
  | .handOver => [.slot k]

/-- What the host goes on with after the allocation. -/
def NoteAction.taskAfter (act : NoteAction) : HostTask :=
  match act with
  | .trigger _ _ | .release => .ready
  | .handOver => .inCallback false

/-- The host presents commands to the block, in this order (R18). -/
def State.issue (s : State) (is : List Instr) : State := { s with pending := s.pending ++ is.map encode }

/-- The allocation is over: the allocator is `a`, the slot is `k`; the commands that steal it are issued, and then `act`
is done with it. -/
def State.finishAllocation (s : State) (a : Allocator) (k : Nat) (act : NoteAction) (steal : List Instr) : State :=
  { s with host :=
      { s.host with alloc := a, task := act.taskAfter, seen := act.told k ++ s.host.seen } }.issue (steal ++ act.commands k)

/-- `allocate(note)` and then `act` on the slot (R291): cases (a) and (b) at once, else the scan of case (c) begins. -/
def State.allocateNote (s : State) (note : Byte) (act : NoteAction) : State :=
  match s.host.alloc.findAllocated note with
  | some k => s.finishAllocation s.host.alloc k act []
  | none =>
    match s.host.alloc.firstFree with
    | some k => s.finishAllocation (s.host.alloc.assign k note) k act []
    | none => { s with host := { s.host with task := .scanning note 0 act } }.issue [.vActive 0]

/-- `R0` of the last response says that the voice is active (R201). -/
def State.lastResponseActive (s : State) : Bool :=
  match s.responses with
  | [] => false
  | r :: _ => r.r0 == 1

/-- The scan of case (c) with the response for slot `k` (R291): steal slot `k` if its voice is inactive, else ask for the
next slot, else case (d). -/
def State.scanSlot (s : State) (note : Byte) (k : Nat) (act : NoteAction) : State :=
  let a := s.host.alloc
  if !s.lastResponseActive then
    s.finishAllocation (a.assign k note) k act [.vRls (voiceNumber k)]
  else if k + 1 < s.nVoices then
    { s with host := { s.host with task := .scanning note (k + 1) act } }.issue [.vActive (voiceNumber (k + 1))]
  else
    let j := a.nextRoundRobin s.nVoices
    s.finishAllocation ({ a with lastStolen := j }.assign j note) j act [.vRls (voiceNumber j)]

/-! ### Dispatch (R267 to R274) -/

/-- `r` is `440 * 2^((note-69)/12)` to within one part in `Config.hostPrecision` (R267, log 13): compared without roots, as
twelfth powers, both sides multiplied by `2^69` and by the unit 2^-149 of `r`. -/
def isNoteFrequency (note : Byte) (r : S) : Bool :=
  let p := Config.hostPrecision
  let exact := 2 ^ note.toNat * (440 * 2 ^ 149) ^ 12
  let computed := 2 ^ 69 * (fUnits r * p) ^ 12
  fFinite r && !fSign r && decide ((p - 1) ^ 12 * exact ≤ computed) && decide (computed ≤ (p + 1) ^ 12 * exact)

/-- `440 * 2^(k/12)` for a semitone `k`, correctly rounded (R267). -/
def semitoneFrequency (k : Nat) : S :=
  match k with
  | 0 => 0x43DC0000#32
  | 1 => 0x43E914F6#32
  | 2 => 0x43F6F110#32
  | 3 => 0x4402D013#32
  | 4 => 0x440A9760#32
  | 5 => 0x4412D517#32
  | 6 => 0x441B9041#32
  | 7 => 0x4424D054#32
  | 8 => 0x442E9D37#32
  | 9 => 0x4438FF49#32
  | 10 => 0x4443FF6A#32
  | _ => 0x444FA700#32

/-- The frequency of a note as a correctly rounding host computes it (R267, N19): the semitone above an A, moved by whole
octaves, which is exact. -/
def roundedFrequency (note : Byte) : S :=
  fMul (semitoneFrequency ((note.toNat + 3) % 12)) (BitVec.ofNat 32 ((121 + (note.toNat + 3) / 12) * 2 ^ 23))

/-- The frequency operand the host computes for a note (R267): `440 * 2^((note-69)/12)`, in a precision that is free (log 13). -/
def noteFrequency (note : Byte) : S :=
  let r := Config.noteFrequency note
  if isNoteFrequency note r then r else roundedFrequency note

/-- `r` is `velocity/127` to within one part in `Config.hostPrecision`, and in `[0, 1]` (R267, log 13). -/
def isVelocityVolume (velocity : Byte) (r : S) : Bool :=
  let p := Config.hostPrecision
  let exact := velocity.toNat * 2 ^ 149
  let computed := fUnits r * 127 * p
  fFinite r && fLe f0 r && fLe r f1 && decide ((p - 1) * exact ≤ computed) && decide (computed ≤ (p + 1) * exact)

/-- The volume operand the host computes for a velocity (R267): `velocity/127`, in a precision that is free (log 13). -/
def velocityVolume (velocity : Byte) : S :=
  let r := Config.velocityVolume velocity
  if isVelocityVolume velocity r then r else clamp (fDiv (fOfInt velocity.toNat) f127) f0 f1

/-- The 14-bit pitch-bend value of R274 (R15). -/
def pitchBendValue (lsb msb : Byte) : Nat := (msb.toNat <<< 7) ||| lsb.toNat

/-- The normalized bend of R274, `(v - 8192)/8192`: exact in binary32. -/
def normalizedBend (lsb msb : Byte) : S := fDiv (fOfInt ((pitchBendValue lsb msb : Int) - 8192)) f8192

/-- `V.BENDALL b` (R91, R274): one `V.BEND` per voice, in ascending order. -/
def bendAll (nVoices : Nat) (bend : S) : List Instr :=
  (List.range nVoices).map fun k => .vBend (voiceNumber k) bend

/-- An application callback is called (R270, R272, R273): the call is recorded, and the callback runs until it returns. -/
def State.callback (s : State) (c : HostCall) : State :=
  { s with host := { s.host with calls := c :: s.host.calls, task := .inCallback false } }

/-- Dispatch of a complete message, R267 to R274. -/
def State.dispatch (s : State) (m : MidiMessage) : State :=
  match m.cmd with
  | .noteOn =>
    if m.byte2 = 0 then s.allocateNote m.byte1 .release
    else s.allocateNote m.byte1 (.trigger (noteFrequency m.byte1) (velocityVolume m.byte2))
  | .noteOff => s.allocateNote m.byte1 .release
  | .polyAftertouch =>
    match s.host.alloc.findAllocated m.byte1 with
    | some k => s.callback (.polyAftertouch s.params.listenChannel m.byte1 m.byte2 k)
    | none => s
  | .channelPressure => s
  | .controlChange =>
    if m.byte1.toNat < 120 then s.callback (.controlChange s.params.listenChannel m.byte1 m.byte2 s.host.alloc) else s
  | .programChange => s.callback (.programChange s.params.listenChannel m.byte2 s.host.alloc)
  | .pitchBend => s.issue (bendAll s.nVoices (normalizedBend m.byte1 m.byte2))

/-- `process(byte)`, R261. -/
def State.processByte (s : State) (b : Byte) : State :=
  let r := s.host.decoder.process s.params.listenChannel b
  let s' := { s with host := { s.host with decoder := r.1 } }
  match r.2 with
  | some m => s'.dispatch m
  | none => s'

/-! ### Application callbacks (R270, R272, R273; log 12) -/

/-- What a call's `&mut` argument lets the callback do: with one voice, any command on it (R270); with the allocator, any
command (R272 names the parameter commands of every unit) and `allocate` of any note number (R290). -/
def callPermits (call : HostCall) (act : CallbackAction) : Bool :=
  match call, act with
  | .polyAftertouch _ _ _ k, .command i => i.voiceField == some (voiceNumber k)
  | .polyAftertouch _ _ _ _, .allocate _ => false
  | .controlChange _ _ _ _, .command _ | .programChange _ _ _, .command _ => true
  | .controlChange _ _ _ _, .allocate note | .programChange _ _ _, .allocate note => note.toNat < 128

/-- What the running callback does next: free, but within what its argument permits. -/
def State.callbackAction (s : State) : Option CallbackAction :=
  match s.host.calls with
  | [] => none
  | call :: _ => (Config.callbackAction s.host.calls s.host.seen s.host.alloc).filter (callPermits call)

/-- The running callback hears the response of its command, when one is due. -/
def State.hearResponse (s : State) (due : Bool) : State :=
  if due then
    { s with host := { s.host with seen := (s.responses.head?.map CallbackResult.response).toList ++ s.host.seen } }
  else s

/-- The running callback does `act`, or returns to the decoder. -/
def State.runCallback (s : State) (act : Option CallbackAction) : State :=
  match act with
  | none => { s with host := { s.host with task := .ready } }
  | some (.command i) => { s with host := { s.host with task := .inCallback true } }.issue [i]
  | some (.allocate note) => s.allocateNote note .handOver

/-- One move of the host in a callback. -/
def State.callbackMove (s : State) (due : Bool) : State := (s.hearResponse due).runCallback (s.hearResponse due).callbackAction

/-! ### One move of the host -/

/-- Reset of the block from outside (R330): the block's registers and wavetables, nothing else (log 16). -/
def State.blockReset (s : State) : State :=
  { s with voices := List.replicate s.nVoices Voice.reset, op := OutputUnit.reset s.params.sampleRate, status := 0 }

/-- One event: a MIDI byte (R261), a request for frames (R277: that many `RENDER` commands), or a reset (R330). -/
def State.handleEvent (s : State) : HostEvent → State
  | .midi b => s.processByte b
  | .frames n => s.issue (List.replicate n .render)
  | .blockReset => s.blockReset

/-- The host's move when no command is pending: go on with an allocation or a callback, else take the
oldest event, else wait (log 11). -/
def State.hostMove (s : State) : State :=
  match s.host.task with
  | .scanning note k act => s.scanSlot note k act
  | .inCallback due => s.callbackMove due
  | .ready =>
    match s.host.events with
    | [] => s
    | ev :: rest => { s with host := { s.host with events := rest } }.handleEvent ev

end Sys2Proof.Machine
end

