-- ==== Sys2Proof/Machine/Step.lean ====
section
/-!
DEFINITION. One step (R18): the block executes the oldest pending command and responds; with no command pending the host
agent moves (log 11), and with nothing to do at all the machine waits, unchanged (R320, R330).
-/

namespace Sys2Proof.Machine

/-- The block takes the command `c` (R84): decode, then execute; a header that is no command raises Illegal (R86). -/
def execCommand (c : Command) (s : State) : Host.Outcome State Fault Refusal :=
  match decode c with
  | .command i => exec i s
  | .illegal _ => .next s.raiseIllegal

/-- One step of the machine. -/
def step (s : State) : Host.Outcome State Fault Refusal :=
  match s.pending with
  | c :: rest => execCommand c { s with pending := rest }
  | [] => .next s.hostMove

/-- The state with the command of a table word presented as the next command (log 7). -/
def State.withFetchWord (s : State) (nbits w : Nat) : State := { s with pending := tableCommand nbits w :: s.pending }

end Sys2Proof.Machine
end

