-- ==== Sys2Proof/Safety.lean ====
section
/-!
DEFINITION. The terms claims are stated in: the invariants of R40 (with R31, R36, R39 and the host's of R290), what a command
leaves unchanged, when a command is Illegal (R84, R312), the tables of R85 and R312 over raw words, reading one memory
entry, and runs.
-/

namespace Sys2Proof.Machine

/-! ### Ranges -/

/-- Finite, and `lo <= x <= hi`. -/
def between (lo hi x : S) : Bool := fFinite x && fLe lo x && fLe x hi

/-- Finite, and `0 <= x <= 1`. -/
abbrev inUnit (x : S) : Bool := between f0 f1 x

/-! ### The invariants of R40 -/

/-- The parameter ranges of R5, R6 and R8. -/
structure Params.Legal (p : Params) (nVoices : Nat) : Prop where
  rateLow : 8000 ≤ p.sampleRate
  rateHigh : p.sampleRate ≤ 16777215
  channel : p.listenChannel ≤ 15
  voicesLow : 1 ≤ nVoices
  voicesHigh : nVoices ≤ 256

/-- R40 (a) and R23: `0 <= phase < 1`, and never `-0`. -/
def phaseInRange (x : S) : Bool := fLe f0 x && fLt x f1 && x != fNeg f0

/-- R40 (b) and the canonical form of the wavetable memory. -/
structure Oscillator.Inv (o : Oscillator) : Prop where
  phase : phaseInRange o.phase = true
  canonical : Memory.wf o.wt
  entries : ∀ i, i < 256 → between fNeg1 f1 (Memory.read o.wt i) = true

/-- R39: clean coefficient registers hold the coefficients of the control registers. -/
def Biquad.CacheInv (num : NumFns) (sampleRate : Nat) (f : Biquad) : Prop :=
  f.dirty = false → f.coeffs = Machine.coeffs num sampleRate f.mode f.cutoff f.q

/-- R40 (c) and R39. -/
structure Biquad.Inv (num : NumFns) (sampleRate : Nat) (f : Biquad) : Prop where
  cutoff : between cutMin (cutMax sampleRate) f.cutoff = true
  q : between qMin qMax f.q = true
  cache : f.CacheInv num sampleRate

/-- R31: the rate registers are those of the parameter registers. -/
def Envelope.RatesInv (sampleRate : Nat) (e : Envelope) : Prop :=
  e.rates = envRates sampleRate e.atk e.dcy e.sus e.rel

/-- R40 (d), (e) and R31. -/
structure Envelope.Inv (sampleRate : Nat) (e : Envelope) : Prop where
  atk : fFinite e.atk = true
  dcy : fFinite e.dcy = true
  rel : fFinite e.rel = true
  sus : inUnit e.sus = true
  level : inUnit e.level = true
  idle : e.phase = .idle → e.level = f0
  rates : e.RatesInv sampleRate

/-- R40 (f) and the invariants of the voice's units. -/
structure Voice.Inv (num : NumFns) (sampleRate : Nat) (u : Voice) : Prop where
  osc : u.osc.Inv
  flt : u.flt.Inv num sampleRate
  amp : u.amp.Inv sampleRate
  feg : u.feg.Inv sampleRate
  baseFreq : (fFinite u.baseFreq && fGt u.baseFreq f0) = true
  volume : inUnit u.volume = true
  bend : between fNeg1 f1 u.bend = true
  bendRange : fFinite u.bendRange = true
  baseCutoff : between cutMin (cutMax sampleRate) u.baseCutoff = true
  fegDepth : inUnit u.fegDepth = true

/-- R36 and R230: the post filter's control registers stand at their reset values. -/
def OutputUnit.PostFilterFixed (sampleRate : Nat) (o : OutputUnit) : Prop :=
  o.pf.mode = .lowpass ∧ o.pf.cutoff = clamp f10000 cutMin (cutMax sampleRate) ∧ o.pf.q = f0p707

/-- R40 (g), R36 and R39 for the output unit. -/
structure OutputUnit.Inv (num : NumFns) (sampleRate : Nat) (o : OutputUnit) : Prop where
  drive : inUnit o.drive = true
  fixed : o.PostFilterFixed sampleRate
  pf : o.pf.Inv num sampleRate

/-- R40 (h): `STATUS[31:1] = 0`. -/
def statusReservedZero (status : BitVec 32) : Prop := ∀ k, 1 ≤ k → status.getLsbD k = false

/-- The invariant of the block: R40 whole. -/
structure State.BlockInv (s : State) : Prop where
  legal : s.params.Legal s.nVoices
  voices : ∀ u ∈ s.voices, u.Inv NumFns.machine s.params.sampleRate
  op : s.op.Inv NumFns.machine s.params.sampleRate
  status : statusReservedZero s.status

/-- "At most one slot per note is marked assigned at any time" (R290). -/
def Allocator.OneSlotPerNote (a : Allocator) : Prop :=
  ∀ (j k : Nat) (note : Byte), a.slots[j]? = some (some note) → a.slots[k]? = some (some note) → j = k

/-- The allocator has one slot per voice unit (R290, R276), and one slot per note; a slot's note is a note number. -/
structure Allocator.Inv (a : Allocator) (nVoices : Nat) : Prop where
  length : a.slots.length = nVoices
  stolen : a.lastStolen < nVoices
  oneSlot : a.OneSlotPerNote
  noteNumbers : ∀ (k : Nat) (note : Byte), a.slots[k]? = some (some note) → note.toNat < 128

/-- A waiting decoder has a current command (R263, R265); `byte1` is a data byte (R264). -/
structure Decoder.Inv (d : Decoder) : Prop where
  waiting : d.state ≠ .initial → d.cmd ≠ none
  byte1 : d.byte1.toNat < 128

/-- The invariant of the host agent. While it scans, no slot is free and none holds the note (R291); while a callback runs,
or waits for the slot it asked for, a callback has been called (R270, R272, R273). -/
structure State.HostInv (s : State) : Prop where
  alloc : s.host.alloc.Inv s.nVoices
  decoder : s.host.decoder.Inv
  scanning : ∀ note k act, s.host.task = .scanning note k act →
    k < s.nVoices ∧ note.toNat < 128 ∧ s.host.alloc.findAllocated note = none ∧ s.host.alloc.firstFree = none ∧
      (act = .handOver → s.host.calls ≠ [])
  running : ∀ due, s.host.task = .inCallback due → s.host.calls ≠ []

/-! ### What a step leaves unchanged -/

/-- `WT[v][i]` as the machine reads it; none for a voice unit that does not exist. -/
def State.memRead (s : State) (v i : Nat) : Option S := s.voices[v]?.map fun u => Memory.read u.osc.wt i

/-- The two states agree on everything outside the block: parameters, host agent, commands not yet executed. -/
structure SameOutside (s t : State) : Prop where
  params : t.params = s.params
  host : t.host = s.host
  pending : t.pending = s.pending

/-- `t` is `s` but for voice unit `v` and the responses. -/
structure SameBut (v : BitVec 8) (s t : State) : Prop where
  outside : SameOutside s t
  op : t.op = s.op
  status : t.status = s.status
  count : t.voices.length = s.voices.length
  others : ∀ w, w ≠ v.toNat → t.voices[w]? = s.voices[w]?

/-- The command answers a next state `t` in which voice unit `v` is `u`, everything else is as in `s`, and the response is
`(0, r0, r1)`. -/
def CompletesWith (i : Instr) (s : State) (v : BitVec 8) (u : Voice) (r0 r1 : BitVec 32) : Prop :=
  ∃ t, exec i s = .next t ∧ SameBut v s t ∧ t.voices[v.toNat]? = some u ∧
    t.responses = ⟨0, r0, r1⟩ :: s.responses

/-- Two states with the same block: what a command may depend on (R18, R42). -/
structure SameBlock (s t : State) : Prop where
  params : t.params = s.params
  voices : t.voices = s.voices
  op : t.op = s.op
  status : t.status = s.status

/-! ### Illegal commands (R84, R312) -/

/-- Every check by value of R84 passes (checks 4 to 7). -/
def legalFor (nVoices : Nat) (i : Instr) : Bool := i.voiceBelow nVoices && i.wellFormed

/-- The command fails one of the checks of R84. -/
def commandIllegal (nVoices : Nat) (c : Command) : Bool :=
  match decode c with
  | .illegal _ => true
  | .command i => !legalFor nVoices i

/-! ### The tables of R85 and R312 over the raw words of a command, written apart from the decoder -/

/-- The columns `match` and `mask` of R85, row by row. -/
def headerRows : List (BitVec 32 × BitVec 32) :=
  [(0x00000000, 0xFFFFFFFF), (0x01000000, 0xFFFFFFFF)] ++
  [(0x10000000, 0xFF00FFFF), (0x11000000, 0xFF00FFFF), (0x12000000, 0xFF00FFFF), (0x13000000, 0xFF0000FF)] ++
  [(0x20000000, 0xFF0000FF), (0x21000000, 0xFF00FFFF), (0x22000000, 0xFF00FFFF), (0x23000000, 0xFF00FFFF),
   (0x24000000, 0xFF00FFFF)] ++
  [(0x30000000, 0xFF0000FF), (0x31000000, 0xFF0000FF), (0x32000000, 0xFF0000FF), (0x33000000, 0xFF0000FF)] ++
  [(0x34000000, 0xFF0000FF), (0x35000000, 0xFF0000FF), (0x36000000, 0xFF0000FF), (0x37000000, 0xFF0000FF)] ++
  [(0x40000000, 0xFF00FFFF), (0x41000000, 0xFF00FFFF), (0x42000000, 0xFF00FFFF), (0x43000000, 0xFF00FFFF)] ++
  [(0x44000000, 0xFF00FFFF), (0x45000000, 0xFF00FFFF), (0x46000000, 0xFF00FFFF), (0x47000000, 0xFF00FFFF)] ++
  [(0x50000000, 0xFFFF00FF), (0x51000000, 0xFFFFFFFF), (0x52000000, 0xFFFFFFFF), (0x60000000, 0xFFFFFFFF)]

/-- `(W0 & mask) == match` (R85). -/
def headerMatches (w0 : BitVec 32) (row : BitVec 32 × BitVec 32) : Bool := w0 &&& row.2 == row.1

/-- The opcodes of R85. -/
def opcodes : List (BitVec 8) :=
  [0x00, 0x01, 0x10, 0x11, 0x12, 0x13, 0x20, 0x21, 0x22, 0x23, 0x24] ++
  [0x30, 0x31, 0x32, 0x33, 0x34, 0x35, 0x36, 0x37, 0x40, 0x41, 0x42, 0x43, 0x44, 0x45, 0x46, 0x47, 0x50, 0x51, 0x52, 0x60]

/-- The commands without a voice operand (R312). -/
def opcodesNoVoice : List (BitVec 8) := [0x00, 0x01, 0x50, 0x51, 0x52, 0x60]

/-- The envelope commands (R87). -/
def opcodesEnvelope : List (BitVec 8) := [0x30, 0x31, 0x32, 0x33, 0x34, 0x35, 0x36, 0x37]

/-- The commands with a `u` operand (R312). -/
def opcodesUnit : List (BitVec 8) := [0x13, 0x20, 0x50] ++ opcodesEnvelope

/-- The commands that use operand A (R312). -/
def opcodesOperandA : List (BitVec 8) :=
  [0x10, 0x12, 0x21, 0x22, 0x24, 0x30, 0x31, 0x32, 0x33, 0x40, 0x43, 0x44, 0x45, 0x46, 0x51, 0x52]

/-- An infinity or a NaN: the exponent field, bits 30:23, is all ones (R14, R88). -/
def exponentAllOnes (w : BitVec 32) : Bool := w.extractLsb' 23 8 == 0xFF#8

/-- The causes of Illegal, row by row of the table of R312. -/
def illegalByTable (nVoices : Nat) (c : Command) : Bool :=
  let op := c.w0.extractLsb' 24 8
  let v := c.w0.extractLsb' 16 8
  let u := c.w0.extractLsb' 8 8
  !opcodes.contains op || c.w0.extractLsb' 0 8 != 0
    || (opcodesNoVoice.contains op && v != 0)
    || (!opcodesUnit.contains op && u != 0)
    || (!opcodesNoVoice.contains op && nVoices ≤ v.toNat)
    || (opcodesEnvelope.contains op && 1 < u.toNat)
    || (op == 0x20 && 4 < u.toNat)
    || (op == 0x50 && 2 < u.toNat)
    || (opcodesOperandA.contains op && exponentAllOnes c.w1)
    || (op == 0x40 && exponentAllOnes c.w2)
    || (op == 0x40 && !fGt c.w1 f0)

/-! ### Runs -/

/-- `k` steps of the machine. -/
def runSteps (k : Nat) (s : State) : Host.Outcome State Fault Refusal :=
  match k with
  | 0 => .next s
  | k + 1 =>
    match step s with
    | .next t => runSteps k t
    | .fault r => .fault r
    | .refused r => .refused r

/-- A filter fed a list of samples, with its outputs in order. -/
def fltProcessAll (num : NumFns) (sampleRate : Nat) (f : Biquad) : List S → Biquad × List S
  | [] => (f, [])
  | x :: xs =>
    let r := fltProcess num sampleRate f x
    let rest := fltProcessAll num sampleRate r.1 xs
    (rest.1, r.2 :: rest.2)

/-- A use of a filter: a setter, a reset of the delay registers, or one sample (R130 to R133, R135). -/
inductive FilterUse where
  | setMode (m : FilterMode)
  | setCutoff (c : S)
  | setQ (q : S)
  | reset
  | sample (x : S)
  deriving DecidableEq, Repr

/-- A filter put through a list of uses, with its outputs in order; when `eager`, every sample is preceded by a recompute
whatever the dirty flag says (R141). -/
def filterUses (num : NumFns) (sampleRate : Nat) (eager : Bool) (f : Biquad) : List FilterUse → Biquad × List S
  | [] => (f, [])
  | .setMode m :: us => filterUses num sampleRate eager (fltSetMode f m) us
  | .setCutoff c :: us => filterUses num sampleRate eager (fltSetCutoff sampleRate f c) us
  | .setQ q :: us => filterUses num sampleRate eager (fltSetQ f q) us
  | .reset :: us => filterUses num sampleRate eager (fltReset f) us
  | .sample x :: us =>
    let r := fltProcess num sampleRate (if eager then fltRecompute num sampleRate f else f) x
    let rest := filterUses num sampleRate eager r.1 us
    (rest.1, r.2 :: rest.2)

/-- The mono buffer of `n` frames (R72): for each frame the sum of all voices, and the voices after the last frame. -/
def monoBuffer (num : NumFns) (sampleRate : Nat) (voices : List Voice) : Nat → List Voice × List S
  | 0 => (voices, [])
  | n + 1 =>
    let frame := voices.map (voiceNext num sampleRate)
    let rest := monoBuffer num sampleRate (frame.map Prod.fst) n
    (rest.1, (frame.map Prod.snd).foldl fAdd f0 :: rest.2)

/-- The decoder fed a list of bytes, with the messages it completes, in order. -/
def Decoder.processAll (listenChannel : Nat) (d : Decoder) : List Byte → Decoder × List MidiMessage
  | [] => (d, [])
  | b :: bs =>
    let r := d.process listenChannel b
    let rest := r.1.processAll listenChannel bs
    (rest.1, r.2.toList ++ rest.2)

end Sys2Proof.Machine
end

