-- ==== Sys2Proof/Certificates/Slice0/Obligations.lean ====
section
/-!
DEFINITION. The statements for the provers. Every statement about the machine's `NUM` holds for every admitted `NUM` (log 4);
statements about micro-operations take it as an argument.
-/

open Sys2Proof Sys2Proof.Machine

/-! ### Encoding (spec/30) -/

/-- R81, R82, R85, R90: decoding an encoded command gives it back; and a command word triple decodes to `i` exactly when its
header is that of `i` and the operand words that `i` uses are those of `i`: every other operand word is ignored. -/
def Obligations.DecodeEncodeAgree : Prop :=
  (∀ i : Instr, decode (encode i) = .command i) ∧
  ∀ (c : Command) (i : Instr), decode c = .command i ↔
    c.w0 = (encode i).w0 ∧ (i.usesA = true → c.w1 = (encode i).w1) ∧ (i.usesB = true → c.w2 = (encode i).w2)

/-- R85, R86: a header is a command exactly when it matches a row of the opcode map, and no two rows match one header. -/
def Obligations.HeaderMatchesOneRow : Prop :=
  (∀ c : Command, (∃ i, decode c = .command i) ↔ ∃ row ∈ headerRows, headerMatches c.w0 row = true) ∧
  headerRows.length = 31 ∧
  ∀ w0, headerRows.Pairwise fun r1 r2 => ¬ (headerMatches w0 r1 = true ∧ headerMatches w0 r2 = true)

/-- Words written out from R85 and the examples of R90. -/
def Obligations.DecodeWords : Prop :=
  decode ⟨0x10000000, 0x3E800000, 0⟩ = .command (.oscWt 0 0x3E800000#32) ∧
  decode ⟨0x30030100, 0x3C23D70A, 0⟩ = .command (.envSetA 3 1 0x3C23D70A#32) ∧
  decode ⟨0x40010000, 0x43DC0000, 0x3F800000⟩ = .command (.vTrig 1 0x43DC0000#32 0x3F800000#32) ∧
  decode ⟨0x20050400, 0, 0⟩ = .command (.fltMode 5 4) ∧
  decode ⟨0x50000100, 0, 0⟩ = .command (.opAlgo 1) ∧
  decode ⟨0x60000000, 0, 0⟩ = .command .render ∧
  decode ⟨0, 0xDEADBEEF, 0⟩ = .command .nop ∧
  decode ⟨0x60000001, 0, 0⟩ = .illegal .reservedNotZero ∧
  decode ⟨0x60010000, 0, 0⟩ = .illegal .unusedVoiceField ∧
  decode ⟨0x10000100, 0, 0⟩ = .illegal .unusedUnitField ∧
  decode ⟨0xFF000000, 0, 0⟩ = .illegal (.unknownOpcode 0xFF)

/-! ### The step (R18, R67, R83, R84) -/

/-- R18, R22, R67: a step executes the oldest pending command, taken off the queue; a header that is no command raises
Illegal; with nothing pending the host moves (log 11). A table word is presented as the next command (log 7). -/
def Obligations.StepRunsDecodedCommand : Prop :=
  (∀ (s : State) (c : Command) (rest : List Command) (i : Instr), s.pending = c :: rest → decode c = .command i →
    step s = exec i { s with pending := rest }) ∧
  (∀ (s : State) (c : Command) (rest : List Command) (why : DecodeError), s.pending = c :: rest → decode c = .illegal why →
    step s = .next { s with pending := rest, status := s.status ||| 1, responses := ⟨1, 0, 0⟩ :: s.responses }) ∧
  (∀ s : State, s.pending = [] → step s = .next s.hostMove) ∧
  (∀ (s : State) (nbits w : Nat) (i : Instr), decodeTableWord nbits w = some i →
    step (s.withFetchWord nbits w) = exec i s)

/-- R18, R83, R343: every step answers a next state with the same parameters and voice count. A step with a command pending
takes that command alone, gives exactly one response (`RS` is 1 when it was refused and 0 when it executed), and leaves the
host as it is; a step without one gives no response. -/
def Obligations.EveryStepAnswers : Prop :=
  ∀ s : State, ∃ t, step s = .next t ∧ t.params = s.params ∧ t.nVoices = s.nVoices ∧
    (∀ c rest, s.pending = c :: rest → t.pending = rest ∧ t.host = s.host ∧
      ∃ r, t.responses = r :: s.responses ∧ r.rs = (if commandIllegal s.nVoices c then 1 else 0)) ∧
    (s.pending = [] → t.responses = s.responses)

/-- R311, R312: the table of causes is complete. A pending command for which a row of the table holds has the whole effect of
`raise Illegal` and no other: `STATUS.ILL <- 1`, the response `(1, 0, 0)`, and the next command is taken as usual; one for which
no row holds executes, with `RS = 0`. -/
def Obligations.IllegalCausesAndEffect : Prop :=
  ∀ (s : State) (c : Command) (rest : List Command), s.pending = c :: rest →
    (illegalByTable s.nVoices c = true →
      step s = .next { s with pending := rest, status := s.status ||| 1, responses := ⟨1, 0, 0⟩ :: s.responses }) ∧
    (illegalByTable s.nVoices c = false →
      ∃ t r0 r1, step s = .next t ∧ t.pending = rest ∧ t.status = s.status ∧ t.responses = ⟨0, r0, r1⟩ :: s.responses)

/-- R84 step 8, R315: a command that passes every check executes: it responds with `RS = 0`, changes no status bit, and
changes nothing outside the block; one that fails a check by value is wholly refused. -/
def Obligations.LegalCompletes : Prop :=
  ∀ (i : Instr) (s : State),
    (legalFor s.nVoices i = true → ∃ t r0 r1, exec i s = .next t ∧ t.responses = ⟨0, r0, r1⟩ :: s.responses ∧
      t.status = s.status ∧ t.nVoices = s.nVoices ∧ SameOutside s t) ∧
    (legalFor s.nVoices i = false → exec i s = .next s.raiseIllegal)

/-- R37: `STATUS.ILL` is set by exactly the commands that raise Illegal and cleared by a reset alone; no step writes bits
31:1 but a reset, which zeroes them; `STATUS.RD` reads it; it is 0 at reset. -/
def Obligations.StatusRegister : Prop :=
  (∀ (s t : State) (c : Command) (rest : List Command), s.pending = c :: rest → step s = .next t →
    t.status.getLsbD 0 = (s.status.getLsbD 0 || illegalByTable s.nVoices c) ∧
    ∀ k, 1 ≤ k → t.status.getLsbD k = s.status.getLsbD k) ∧
  (∀ s t : State, s.pending = [] → step s = .next t →
    t.status = s.status ∨
    (t.status = 0 ∧ s.host.task = .ready ∧ ∃ rest, s.host.events = .blockReset :: rest)) ∧
  (∀ s : State, exec .statusRd s = .next { s with responses := ⟨0, s.status, 0⟩ :: s.responses }) ∧
  (∀ s t : State, statusReservedZero s.status → step s = .next t → statusReservedZero t.status) ∧
  ∀ (p : Params) (n : Nat), (State.resetAt p n).status = 0

/-! ### System commands (spec/45) -/

/-- R250, R251: the header of `NOP` is exactly zero and that of `STATUS.RD` exactly `0x01000000`, with the operand words
ignored; `NOP` only responds `(0, 0, 0)`; `STATUS.RD` responds the status register, whose bit 0 is `STATUS.ILL` and whose
other bits are zero where R40 (h) holds, and clears nothing. -/
def Obligations.SystemCommands : Prop :=
  (∀ c : Command, c.w0 = 0 → decode c = .command .nop) ∧
  (∀ c : Command, c.w0.extractLsb' 24 8 = 0 → c.w0 ≠ 0 → ∃ why, decode c = .illegal why) ∧
  (∀ c : Command, c.w0 = 0x01000000 → decode c = .command .statusRd) ∧
  (∀ c : Command, c.w0.extractLsb' 24 8 = 1 → c.w0 ≠ 0x01000000 → ∃ why, decode c = .illegal why) ∧
  (∀ s : State, exec .nop s = .next { s with responses := ⟨0, 0, 0⟩ :: s.responses }) ∧
  (∀ s : State, exec .statusRd s = .next { s with responses := ⟨0, s.status, 0⟩ :: s.responses }) ∧
  ∀ s : State, statusReservedZero s.status → s.status = (if illFlag s.status then 1 else 0)

/-- R115, R172, R201, R33: the read-back commands write nothing. `OSC.RDT` returns the entry, for every index; `ENV.RDP` the
phase number and the level; `V.ACTIVE` 1 when the amplitude envelope is not Idle and 0 when it is. -/
def Obligations.ReadBacksWriteNothing : Prop :=
  ∀ (s : State) (v : BitVec 8) (u : Voice), s.voices[v.toNat]? = some u →
    (∀ i : BitVec 8, exec (.oscRdt v i) s =
      .next { s with responses := ⟨0, Memory.read u.osc.wt i.toNat, 0⟩ :: s.responses }) ∧
    (∀ (e : BitVec 8) (env : Envelope), (e = 0 ∧ env = u.amp) ∨ (e = 1 ∧ env = u.feg) →
      ∃ n : BitVec 32, exec (.envRdp v e) s = .next { s with responses := ⟨0, n, env.level⟩ :: s.responses } ∧
        (env.phase = .idle ↔ n = 0) ∧ (env.phase = .attack ↔ n = 1) ∧ (env.phase = .decay ↔ n = 2) ∧
        (env.phase = .sustain ↔ n = 3) ∧ (env.phase = .release ↔ n = 4)) ∧
    exec (.vActive v) s =
      .next { s with responses := ⟨0, if u.amp.phase = .idle then 0 else 1, 0⟩ :: s.responses }

/-! ### Oscillator (spec/40, spec/20) -/

/-- R110: at shape 0 the table is the sawtooth `2*(i/256) - 1` exactly, at shape 0.5 the triangle, at shape 1 the square
(values in units of 2^-149); at every shape it is the cross-fade `(1 - m)*a + m*b` of the two neighbouring waveforms, with
`m = shape*2` below 0.5 and `m = (shape - 0.5)*2` from there on. -/
def Obligations.TableShapesExact : Prop :=
  ∀ i, i < 256 →
    fInt (wtEntry f0 i) * 128 = ((i : Int) - 128) * 2 ^ 149 ∧
    fInt (wtEntry f0p5 i) * 64 = (if i < 128 then (i : Int) - 64 else 192 - (i : Int)) * 2 ^ 149 ∧
    wtEntry f1 i = (if i < 128 then f1 else fNeg1) ∧
    ∃ saw tri sq : S,
      (fFinite saw = true ∧ saw ≠ fNeg f0 ∧ fInt saw * 128 = ((i : Int) - 128) * 2 ^ 149) ∧
      (fFinite tri = true ∧ tri ≠ fNeg f0 ∧
        fInt tri * 64 = (if i < 128 then (i : Int) - 64 else 192 - (i : Int)) * 2 ^ 149) ∧
      sq = (if i < 128 then f1 else fNeg1) ∧
      ∀ shape : S, wtEntry shape i =
        if fLt shape f0p5 then
          fAdd (fMul (fSub f1 (fMul shape f2)) saw) (fMul (fMul shape f2) tri)
        else
          fAdd (fMul (fSub f1 (fMul (fSub shape f0p5) f2)) tri) (fMul (fMul (fSub shape f0p5) f2) sq)

/-- R111, R61: from a table in its canonical form (`Oscillator.Inv.canonical`, part of `State.BlockInv`), `OSC.WT` writes every
entry of `WT[v]` with the table of the clamped shape, and nothing else: every other entry of every table reads as before, the rest of voice `v` (the phase included), the other voices, the output unit and the
status register are as before. -/
def Obligations.OscWtWritesTable : Prop :=
  ∀ (s : State) (v : BitVec 8) (u : Voice) (shape : S), s.voices[v.toNat]? = some u → Memory.wf u.osc.wt →
    fFinite shape = true →
    ∃ t wt, exec (.oscWt v shape) s = .next t ∧ SameBut v s t ∧
      t.voices[v.toNat]? = some { u with osc := { u.osc with wt := wt } } ∧ t.responses = ⟨0, 0, 0⟩ :: s.responses ∧
      Memory.wf wt ∧
      ∀ w i, t.memRead w i = if w = v.toNat ∧ i < 256 then some (wtEntry (clamp shape f0 f1) i) else s.memRead w i

/-- R61: only an `OSC.WT` that executes writes a wavetable; every entry of every table reads as before any other command. -/
def Obligations.OnlyOscWtWritesTables : Prop :=
  ∀ (i : Instr) (s t : State), exec i s = .next t →
    (∀ w k, t.memRead w k = s.memRead w k) ∨ ∃ v shape, i = .oscWt v shape ∧ legalFor s.nVoices i = true

/-- R334: `OSC.WT v, s` twice is the same as once, and the table memory keeps its canonical form. -/
def Obligations.OscWtTwiceIsOnce : Prop :=
  ∀ (s t : State) (v : BitVec 8) (u : Voice) (shape : S), s.voices[v.toNat]? = some u → Memory.wf u.osc.wt →
    fFinite shape = true → exec (.oscWt v shape) s = .next t →
    (∀ r, t.voices[v.toNat]? = some r → Memory.wf r.osc.wt) ∧
    exec (.oscWt v shape) t = .next { t with responses := ⟨0, 0, 0⟩ :: t.responses }

/-- R116 (a): every entry of the table of a clamped finite shape is finite and in `[-1, 1]`. -/
def Obligations.TableEntriesBounded : Prop :=
  ∀ (shape : S) (i : Nat), fFinite shape = true → i < 256 →
    between fNeg1 f1 (wtEntry (clamp shape f0 f1) i) = true

/-- R112: `OSC.RST` writes `+0.0` to the phase and nothing else; the next `OSC.NEXT` then returns entry 0 (by value), for a
table as R40 (b) has it. -/
def Obligations.OscRstZeroesPhase : Prop :=
  ∀ (s : State) (v : BitVec 8) (u : Voice), s.voices[v.toNat]? = some u →
    CompletesWith (.oscRst v) s v { u with osc := { u.osc with phase := f0 } } 0 0 ∧
    ∀ (t : State) (f : S), u.osc.Inv → fFinite f = true → exec (.oscRst v) s = .next t →
      ∃ t' r, exec (.oscNext v f) t = .next t' ∧ t'.responses = ⟨0, r, 0⟩ :: t.responses ∧
        fEq r (Memory.read u.osc.wt 0) = true

/-- R113, R114, R116 (b), (c): the oscillator reads at the position `phase * 256`, whose floor is a table index, interpolates
between that entry and the next (mod 256), then advances the phase and wraps it into `[0, 1)`; a frequency that is not finite,
which `V.NEXT` can reach (R202 (a)), makes the phase `+0.0`. `OSC.NEXT` does this for every finite frequency. -/
def Obligations.OscNextResult : Prop :=
  ∀ (s : State) (v : BitVec 8) (u : Voice) (f : S), s.voices[v.toNat]? = some u → phaseInRange u.osc.phase = true →
    ∃ (k : Nat) (phase' : S), k < 256 ∧ floorInt (fMul u.osc.phase f256) = (k : Int) ∧ phaseInRange phase' = true ∧
      (let pos := fMul u.osc.phase f256
       let frac := fSub pos (fFloor pos)
       let a := Memory.read u.osc.wt k
       let b := Memory.read u.osc.wt ((k + 1) % 256)
       let out := fAdd a (fMul frac (fSub b a))
       oscNext s.params.sampleRate u.osc f = ({ u.osc with phase := phase' }, out) ∧
       (fFinite f = true → CompletesWith (.oscNext v f) s v { u with osc := { u.osc with phase := phase' } } out 0)) ∧
      (fFinite f = false → phase' = f0) ∧
      (let p := fAdd u.osc.phase (fDiv f (srf s.params.sampleRate))
       let p2 := fSub p (fFloor p)
       phase' = if fFinite p && (fGe p2 f0 && fLt p2 f1) then p2 else f0)

/-! ### Filter (spec/41) -/

/-- R130 to R133, R136 to R139, R313: the setter commands store the mode, the clamped cutoff, the clamped Q, set the dirty flag
when the stored value changes and leave it otherwise; `FLT.RST` zeroes the two delay registers; nothing else is written. The
mode numbers are those of R25. -/
def Obligations.FilterCommandsStoreAndMark : Prop :=
  (FilterMode.ofCode? 0 = some .lowpass ∧ FilterMode.ofCode? 1 = some .highpass ∧
    FilterMode.ofCode? 2 = some .bandpass ∧ FilterMode.ofCode? 3 = some .notch ∧
    FilterMode.ofCode? 4 = some .allpass ∧ ∀ m : BitVec 8, 4 < m.toNat → FilterMode.ofCode? m = none) ∧
  ∀ (s : State) (v : BitVec 8) (u : Voice), s.params.Legal s.nVoices → s.voices[v.toNat]? = some u →
    (∀ (m : BitVec 8) (mode : FilterMode), FilterMode.ofCode? m = some mode →
      CompletesWith (.fltMode v m) s v
        { u with flt := { u.flt with mode := mode, dirty := u.flt.dirty || decide (mode ≠ u.flt.mode) } } 0 0) ∧
    (∀ c : S, fFinite c = true → between cutMin (cutMax s.params.sampleRate) u.flt.cutoff = true →
      between cutMin (cutMax s.params.sampleRate) (clamp c cutMin (cutMax s.params.sampleRate)) = true ∧
      CompletesWith (.fltCut v c) s v
        { u with flt := { u.flt with
            cutoff := clamp c cutMin (cutMax s.params.sampleRate)
            dirty := u.flt.dirty || decide (clamp c cutMin (cutMax s.params.sampleRate) ≠ u.flt.cutoff) } } 0 0) ∧
    (∀ q : S, fFinite q = true → between qMin qMax u.flt.q = true →
      between qMin qMax (clamp q qMin qMax) = true ∧
      CompletesWith (.fltQ v q) s v
        { u with flt := { u.flt with
            q := clamp q qMin qMax
            dirty := u.flt.dirty || decide (clamp q qMin qMax ≠ u.flt.q) } } 0 0) ∧
    CompletesWith (.fltRst v) s v { u with flt := { u.flt with z1 := f0, z2 := f0 } } 0 0

/-- R134, R135, R140, R39: whatever the dirty flag says, `FLT.PROC` runs the difference equations with the coefficients of
the current mode, cutoff and Q, leaves them in the coefficient registers and the flag clear. The coefficients are the
formulas of R134, mode by mode. -/
def Obligations.FltProcRunsCurrentCoefficients : Prop :=
  (∀ (num : NumFns) (sampleRate : Nat) (cutoff q : S),
    let w0 := fDiv (fMul fTwoPi cutoff) (srf sampleRate)
    let cs := num.cos w0
    let sn := num.sin w0
    let alpha := fDiv sn (fMul f2 q)
    let a0 := fAdd f1 alpha
    let a1 := fMul fNeg2 cs
    let a2 := fSub f1 alpha
    let normalized := fun b0 b1 b2 : S => Coeffs.mk (fDiv b0 a0) (fDiv b1 a0) (fDiv b2 a0) (fDiv a1 a0) (fDiv a2 a0)
    coeffs num sampleRate .lowpass cutoff q = normalized (fDiv (fSub f1 cs) f2) (fSub f1 cs) (fDiv (fSub f1 cs) f2) ∧
    coeffs num sampleRate .highpass cutoff q =
      normalized (fDiv (fAdd f1 cs) f2) (fNeg (fAdd f1 cs)) (fDiv (fAdd f1 cs) f2) ∧
    coeffs num sampleRate .bandpass cutoff q = normalized alpha f0 (fNeg alpha) ∧
    coeffs num sampleRate .notch cutoff q = normalized f1 (fMul fNeg2 cs) f1 ∧
    coeffs num sampleRate .allpass cutoff q = normalized (fSub f1 alpha) (fMul fNeg2 cs) (fAdd f1 alpha)) ∧
  ∀ (s : State) (v : BitVec 8) (u : Voice) (x : S), s.voices[v.toNat]? = some u →
    u.flt.CacheInv NumFns.machine s.params.sampleRate → fFinite x = true →
    let k := coeffs NumFns.machine s.params.sampleRate u.flt.mode u.flt.cutoff u.flt.q
    let y := fAdd (fMul k.b0 x) u.flt.z1
    CompletesWith (.fltProc v x) s v
      { u with flt := { u.flt with
          dirty := false, b0 := k.b0, b1 := k.b1, b2 := k.b2, a1 := k.a1, a2 := k.a2
          z1 := fAdd (fSub (fMul k.b1 x) (fMul k.a1 y)) u.flt.z2
          z2 := fSub (fMul k.b2 x) (fMul k.a2 y) } } y 0

/-- R141, R39: lazy and eager recomputation are indistinguishable by value, over every sequence of setters, resets and
samples; and the cache invariant of R39 holds after each. -/
def Obligations.LazyEqualsEager : Prop :=
  ∀ (num : NumFns) (sampleRate : Nat) (f : Biquad) (us : List FilterUse), f.CacheInv num sampleRate →
    (filterUses num sampleRate false f us).2 = (filterUses num sampleRate true f us).2 ∧
    (filterUses num sampleRate false f us).1.CacheInv num sampleRate

/-- R27 (U7, log 3): the coefficient registers of a filter whose dirty flag is 1 change no output, whatever they hold and
whatever is done with the filter. -/
def Obligations.CoefficientsUnobservable : Prop :=
  ∀ (num : NumFns) (sampleRate : Nat) (f : Biquad) (k : Coeffs) (us : List FilterUse), f.dirty = true →
    (filterUses num sampleRate false { f with b0 := k.b0, b1 := k.b1, b2 := k.b2, a1 := k.a1, a2 := k.a2 } us).2 =
      (filterUses num sampleRate false f us).2

/-- R134, well-definedness: for a legal rate, a cutoff and a Q in their ranges and an admitted `NUM`, `w0` is in the range
of NUM-P4, `alpha >= 0`, `a0 >= 1`, and all five coefficients are finite. -/
def Obligations.CoefficientsFinite : Prop :=
  ∀ (num : NumFns) (sampleRate : Nat) (mode : FilterMode) (cutoff q : S), num.Admitted →
    8000 ≤ sampleRate → sampleRate ≤ 16777215 → between cutMin (cutMax sampleRate) cutoff = true →
    between qMin qMax q = true →
    inP4Range (angularFrequency sampleRate cutoff) = true ∧
    (let alpha := fDiv (num.sin (angularFrequency sampleRate cutoff)) (fMul f2 q)
     fLe f0 alpha = true ∧ fFinite (fAdd f1 alpha) = true ∧ fLe f1 (fAdd f1 alpha) = true) ∧
    (let k := coeffs num sampleRate mode cutoff q
     fFinite k.b0 = true ∧ fFinite k.b1 = true ∧ fFinite k.b2 = true ∧ fFinite k.a1 = true ∧ fFinite k.a2 = true)

/-- R142, silent stability: in every mode, after a reset of the delay registers, any number of zero inputs of either sign
give zero outputs, the first of them `+0.0`. -/
def Obligations.SilentStability : Prop :=
  ∀ (num : NumFns) (sampleRate : Nat) (f : Biquad) (xs : List S), num.Admitted → 8000 ≤ sampleRate →
    sampleRate ≤ 16777215 → f.Inv num sampleRate → (∀ x ∈ xs, fIsZero x = true) →
    (fltProcessAll num sampleRate (fltReset f) xs).2.length = xs.length ∧
    (∀ y ∈ (fltProcessAll num sampleRate (fltReset f) xs).2, fIsZero y = true) ∧
    (∀ y ∈ (fltProcessAll num sampleRate (fltReset f) xs).2.head?, y = f0)

/-! ### Envelope (spec/42) -/

/-- R161, R165 to R168, R31: each parameter command writes its parameter (the sustain level clamped) and all three rates from
the four parameters, and nothing else; phase and level are as before. -/
def Obligations.EnvelopeParametersSetRates : Prop :=
  ∀ (s : State) (v e : BitVec 8) (sel : EnvSel) (u : Voice) (x : S), EnvSel.ofCode? e = some sel →
    s.voices[v.toNat]? = some u → fFinite x = true →
    let sr := s.params.sampleRate
    let env := u.env sel
    let after := fun (atk dcy sus rel : S) =>
      u.setEnv sel { env with
        atk := atk, dcy := dcy, sus := sus, rel := rel
        atkRate := if fLe atk f0 then f1 else fDiv f1 (fMul atk (srf sr))
        dcyRate := if fLe dcy f0 then f1 else fDiv (fSub f1 sus) (fMul dcy (srf sr))
        relRate := if fLe rel f0 then f1 else fDiv sus (fMul rel (srf sr)) }
    CompletesWith (.envSetA v e x) s v (after x env.dcy env.sus env.rel) 0 0 ∧
    CompletesWith (.envSetD v e x) s v (after env.atk x env.sus env.rel) 0 0 ∧
    CompletesWith (.envSetS v e x) s v (after env.atk env.dcy (clamp x f0 f1) env.rel) 0 0 ∧
    CompletesWith (.envSetR v e x) s v (after env.atk env.dcy env.sus x) 0 0

/-- R30, R160: for finite times and a sustain level in `[0, 1]` every rate is at least zero (or `+infinity`) and never NaN. -/
def Obligations.RatesNotNegative : Prop :=
  ∀ (sampleRate : Nat) (atk dcy sus rel : S), 8000 ≤ sampleRate → sampleRate ≤ 16777215 → fFinite atk = true →
    fFinite dcy = true → fFinite rel = true → inUnit sus = true →
    fGe (envRates sampleRate atk dcy sus rel).atk f0 = true ∧
    fGe (envRates sampleRate atk dcy sus rel).dcy f0 = true ∧
    fGe (envRates sampleRate atk dcy sus rel).rel f0 = true

/-- R162, R163, R169, R170: `ENV.TRIG` forces Attack from level `+0.0`; `ENV.RLS` moves an envelope that is not Idle to
Release at its level, and leaves an Idle one as it is. -/
def Obligations.EnvelopeTriggerRelease : Prop :=
  ∀ (s : State) (v e : BitVec 8) (sel : EnvSel) (u : Voice), EnvSel.ofCode? e = some sel →
    s.voices[v.toNat]? = some u →
    CompletesWith (.envTrig v e) s v (u.setEnv sel { u.env sel with phase := .attack, level := f0 }) 0 0 ∧
    ((u.env sel).phase ≠ .idle →
      CompletesWith (.envRls v e) s v (u.setEnv sel { u.env sel with phase := .release }) 0 0) ∧
    ((u.env sel).phase = .idle → CompletesWith (.envRls v e) s v u 0 0)

/-- R164, R171: `ENV.NEXT` in each phase: the level moves by the phase's rate, stops at the boundary, the phase changes when
the boundary is reached, and the updated level is returned. -/
def Obligations.EnvelopeNextByPhase : Prop :=
  ∀ (s : State) (v e : BitVec 8) (sel : EnvSel) (u : Voice), EnvSel.ofCode? e = some sel →
    s.voices[v.toNat]? = some u →
    let env := u.env sel
    let gives := fun (level : S) (phase : EnvPhase) =>
      CompletesWith (.envNext v e) s v (u.setEnv sel { env with level := level, phase := phase }) level 0
    (env.phase = .idle → gives env.level .idle) ∧
    (env.phase = .attack → fGe (fAdd env.level env.atkRate) f1 = true → gives f1 .decay) ∧
    (env.phase = .attack → fGe (fAdd env.level env.atkRate) f1 = false → gives (fAdd env.level env.atkRate) .attack) ∧
    (env.phase = .decay → fLe (fSub env.level env.dcyRate) env.sus = true → gives env.sus .sustain) ∧
    (env.phase = .decay → fLe (fSub env.level env.dcyRate) env.sus = false → gives (fSub env.level env.dcyRate) .decay) ∧
    (env.phase = .sustain → gives env.sus .sustain) ∧
    (env.phase = .release → fLe (fSub env.level env.relRate) f0 = true → gives f0 .idle) ∧
    (env.phase = .release → fLe (fSub env.level env.relRate) f0 = false → gives (fSub env.level env.relRate) .release)

/-- R164, R162, R190: whatever command runs, an envelope that is Idle before it and not after was triggered by it, alone or
with its voice, and stands in Attack at level `+0.0`. -/
def Obligations.OnlyTriggersLeaveIdle : Prop :=
  ∀ (i : Instr) (s t : State) (w : Nat) (sel : EnvSel) (u u' : Voice), exec i s = .next t →
    s.voices[w]? = some u → t.voices[w]? = some u' → (u.env sel).phase = .idle → (u'.env sel).phase ≠ .idle →
    (u'.env sel).phase = .attack ∧ (u'.env sel).level = f0 ∧
    ∃ v : BitVec 8, v.toNat = w ∧
      ((∃ e, i = .envTrig v e ∧ EnvSel.ofCode? e = some sel) ∨ ∃ f vol, i = .vTrig v f vol)

/-- R173 (d), R340: with a zero sustain level and a positive release time, an envelope in Release above level 0 stays there
at its level through any number of samples. -/
def Obligations.StuckRelease : Prop :=
  ∀ (sampleRate : Nat) (e : Envelope) (n : Nat), 8000 ≤ sampleRate → sampleRate ≤ 16777215 → e.Inv sampleRate →
    fIsZero e.sus = true → fGt e.rel f0 = true → e.phase = .release → fGt e.level f0 = true → envStep^[n] e = e

/-! ### Voice (spec/43) -/

/-- R190, R194: `V.TRIG` stores the frequency and the clamped volume, zeroes the phase and the delay registers, and starts both
envelopes in Attack at level `+0.0`; nothing else is touched. A frequency that is not above zero is refused. -/
def Obligations.VoiceTriggerResult : Prop :=
  ∀ (s : State) (v : BitVec 8) (u : Voice) (f vol : S), s.voices[v.toNat]? = some u → fFinite f = true →
    fFinite vol = true →
    (fGt f f0 = true →
      CompletesWith (.vTrig v f vol) s v
        { u with
          baseFreq := f, volume := clamp vol f0 f1
          osc := { u.osc with phase := f0 }
          flt := { u.flt with z1 := f0, z2 := f0 }
          amp := { u.amp with phase := .attack, level := f0 }
          feg := { u.feg with phase := .attack, level := f0 } } 0 0 ∧
      inUnit (clamp vol f0 f1) = true) ∧
    (fGt f f0 = false → exec (.vTrig v f vol) s = .next s.raiseIllegal)

/-- R191, R195, C1 of spec/90: `V.RLS` moves each envelope that is not Idle to Release, clears nothing, and leaves the voice
as active as it was. -/
def Obligations.VoiceReleaseResult : Prop :=
  ∀ (s : State) (v : BitVec 8) (u : Voice), s.voices[v.toNat]? = some u →
    ∃ u' : Voice, CompletesWith (.vRls v) s v u' 0 0 ∧
      u' = { u with amp := { u.amp with phase := u'.amp.phase }, feg := { u.feg with phase := u'.feg.phase } } ∧
      (u.amp.phase = .idle → u'.amp.phase = .idle) ∧ (u.amp.phase ≠ .idle → u'.amp.phase = .release) ∧
      (u.feg.phase = .idle → u'.feg.phase = .idle) ∧ (u.feg.phase ≠ .idle → u'.feg.phase = .release) ∧
      voiceIsActive u' = voiceIsActive u

/-- R192, R196: `V.NEXT` on an idle voice returns `+0.0` and changes nothing; on an active one it runs the chain: oscillator at
the bent frequency (OscNextResult says what `oscNext` gives; a bent frequency that is not finite zeroes the phase, R113), both
envelopes once, the cutoff modulated by the filter envelope's new level, the filter, the product. -/
def Obligations.VoiceNextResult : Prop :=
  ∀ (s : State) (v : BitVec 8) (u : Voice), s.voices[v.toNat]? = some u →
    (u.amp.phase = .idle → CompletesWith (.vNext v) s v u 0 0) ∧
    (u.amp.phase ≠ .idle →
      let num := NumFns.machine
      let sr := s.params.sampleRate
      let f := fMul u.baseFreq (num.exp2 (fDiv (fMul u.bend u.bendRange) f12))
      let sample := (oscNext sr u.osc f).2
      let a := (envNext u.amp).2
      let e := (envNext u.feg).2
      let c := fMul u.baseCutoff (fAdd f1 (fMul (fMul e u.fegDepth) f9))
      let r := fltProcess num sr (fltSetCutoff sr u.flt c) sample
      CompletesWith (.vNext v) s v
        { u with osc := (oscNext sr u.osc f).1, amp := (envNext u.amp).1, feg := (envNext u.feg).1, flt := r.1 }
        (fMul r.2 (fMul a u.volume)) 0 ∧
      (fFinite f = false → (oscNext sr u.osc f).1 = { u.osc with phase := f0 }))

/-- R197 to R200, R313: the four voice parameter commands store their operand, clamped into the register's range but for the
bend range, and nothing else; in particular `V.CUT` leaves the filter's own cutoff and dirty flag. -/
def Obligations.VoiceParametersClamped : Prop :=
  ∀ (s : State) (v : BitVec 8) (u : Voice) (x : S), s.params.Legal s.nVoices → s.voices[v.toNat]? = some u →
    fFinite x = true →
    CompletesWith (.vBend v x) s v { u with bend := clamp x fNeg1 f1 } 0 0 ∧
    CompletesWith (.vBrng v x) s v { u with bendRange := x } 0 0 ∧
    CompletesWith (.vCut v x) s v { u with baseCutoff := clamp x cutMin (cutMax s.params.sampleRate) } 0 0 ∧
    CompletesWith (.vDepth v x) s v { u with fegDepth := clamp x f0 f1 } 0 0 ∧
    between fNeg1 f1 (clamp x fNeg1 f1) = true ∧
    between cutMin (cutMax s.params.sampleRate) (clamp x cutMin (cutMax s.params.sampleRate)) = true ∧
    inUnit (clamp x f0 f1) = true

/-- R202 (a), (b): the bent frequency of a voice is never negative and never NaN, and with a zero bend or a zero bend range
it is the base frequency exactly. -/
def Obligations.BentFrequency : Prop :=
  ∀ (num : NumFns) (sampleRate : Nat) (u : Voice), num.Admitted → u.Inv num sampleRate →
    notNegativeNorNaN (bentFrequency num u) = true ∧
    (fIsZero u.bend = true ∨ fIsZero u.bendRange = true → bentFrequency num u = u.baseFreq)

/-- R202 (c): the modulated cutoff is finite and not below the base cutoff, for every filter-envelope level in `[0, 1]`. -/
def Obligations.ModulationUpwardOnly : Prop :=
  ∀ (num : NumFns) (sampleRate : Nat) (u : Voice) (e : S), 8000 ≤ sampleRate → sampleRate ≤ 16777215 →
    u.Inv num sampleRate → inUnit e = true →
    fFinite (modulatedCutoff u e) = true ∧ fGe (modulatedCutoff u e) u.baseCutoff = true

/-- R21, R43, R61, R202 (e): a command on voice `v` writes nothing of another voice, of the output unit or outside the block,
and of the status register only `STATUS.ILL`, when it is refused (R311); its response and what it does to voice `v` depend on
that voice and the parameters alone. -/
def Obligations.VoiceUnitsShareNothing : Prop :=
  ∀ (i : Instr) (v : BitVec 8), i.voiceField = some v → ∀ s t : State, t.params = s.params →
    t.voices[v.toNat]? = s.voices[v.toNat]? →
    ∃ s' t' r, exec i s = .next s' ∧ exec i t = .next t' ∧
      s'.responses = r :: s.responses ∧ t'.responses = r :: t.responses ∧
      t'.voices[v.toNat]? = s'.voices[v.toNat]? ∧
      s'.status = (if r.rs = 0 then s.status else s.status ||| 1) ∧
      s'.op = s.op ∧ SameOutside s s' ∧ s'.voices.length = s.voices.length ∧
      ∀ w, w ≠ v.toNat → s'.voices[w]? = s.voices[w]?

/-! ### Output unit (spec/44) -/

/-- R225, R226, R313: `OP.ALGO` selects the algorithm and zeroes the post filter's delay registers, also when the index is the
one held; `OP.DRIVE` stores the clamped drive; neither changes anything else. An index above 2 is refused. -/
def Obligations.OutputParameters : Prop :=
  ∀ s : State,
    (∀ (index : BitVec 8) (a : Algo), Algo.ofCode? index = some a →
      exec (.opAlgo index) s = .next { s with
        op := { s.op with algo := a, pf := { s.op.pf with z1 := f0, z2 := f0 } }
        responses := ⟨0, 0, 0⟩ :: s.responses }) ∧
    (∀ index : BitVec 8, 2 < index.toNat → exec (.opAlgo index) s = .next s.raiseIllegal) ∧
    Algo.ofCode? 0 = some .tanhClip ∧ Algo.ofCode? 1 = some .waveFold ∧ Algo.ofCode? 2 = some .softWaveFold ∧
    ∀ drive : S, fFinite drive = true → inUnit (clamp drive f0 f1) = true ∧
      exec (.opDrive drive) s = .next { s with
        op := { s.op with drive := clamp drive f0 f1 }, responses := ⟨0, 0, 0⟩ :: s.responses }

/-- R220 to R224, R227: `OP.PROC` amplifies by `0.1 * 100^drive`, mutes an amplified sample that is not finite, shapes by the
selected formula and filters through the post filter; it writes the post filter alone. -/
def Obligations.OpProcResult : Prop :=
  ∀ (s : State) (x : S), fFinite x = true →
    let num := NumFns.machine
    let u := fMul (fMul f0p1 (num.pow100 s.op.drive)) x
    let d := fSub u f1
    let folded := fSub (fAbs (fSub (fSub d (fMul f4 (fFloor (fDiv d f4)))) f2)) f1
    let shaped :=
      if fFinite u = false then f0
      else if s.op.algo = .tanhClip then num.tanh u
      else if s.op.algo = .waveFold then folded
      else num.sin (fMul fHalfPi u)
    let r := fltProcess num s.params.sampleRate s.op.pf shaped
    exec (.opProc x) s = .next { s with
      op := { s.op with pf := r.1 }, responses := ⟨0, r.2, 0⟩ :: s.responses }

/-- R222: the result of WaveFold is in `[-1, 1]` for every finite sample, and both zeros give `+0.0`. -/
def Obligations.WaveFoldBounded : Prop :=
  (∀ u : S, fFinite u = true → between fNeg1 f1 (waveFold u) = true) ∧ waveFold f0 = f0 ∧ waveFold (fNeg f0) = f0

/-- R220, R221, R223, R229 (a), (d): for a drive in `[0, 1]` the gain is finite and in `[0.1, 10.0]`, with the two ends exact.
TanhClip is bounded by 1, SoftWaveFold too where `HALF_PI * u` is finite (NUM-P5 says nothing of an infinite operand), and
every algorithm maps a zero to a zero. -/
def Obligations.GainAndShaperBounds : Prop :=
  ∀ num : NumFns, num.Admitted →
    (∀ drive, inUnit drive = true → between f0p1 0x41200000#32 (opGain num drive) = true) ∧
    opGain num f0 = f0p1 ∧ opGain num f1 = 0x41200000#32 ∧
    (∀ u, fFinite u = true → absAtMostOne (shaper num .tanhClip u) = true) ∧
    (∀ u, fFinite u = true → fFinite (fMul fHalfPi u) = true → absAtMostOne (shaper num .softWaveFold u) = true) ∧
    ∀ algo u, fIsZero u = true → fIsZero (shaper num algo u) = true

/-- R228: `RENDER` advances every voice by one sample in ascending order, adds the samples up from `+0.0` in that order,
passes the sum through the output unit, and returns the result on both channels; it writes nothing else. -/
def Obligations.RenderSumsVoices : Prop :=
  ∀ s : State,
    let num := NumFns.machine
    let sr := s.params.sampleRate
    let frame := s.voices.map (voiceNext num sr)
    let r := opProcess num sr s.op ((frame.map Prod.snd).foldl fAdd f0)
    exec .render s = .next { s with
      voices := frame.map Prod.fst, op := { s.op with pf := r.1.pf }, responses := ⟨0, r.2, r.2⟩ :: s.responses }

/-- R72, R229 (b): `n` successive `RENDER` commands give the same outputs, post filter and voices as summing `n` frames into a
mono buffer, shaping all of it and then filtering all of it. -/
def Obligations.RenderEqualsBuffer : Prop :=
  ∀ (s : State) (n : Nat), s.pending = List.replicate n (encode .render) →
    let num := NumFns.machine
    let sr := s.params.sampleRate
    let mono := monoBuffer num sr s.voices n
    let out := fltProcessAll num sr s.op.pf (mono.2.map (shapeSample num s.op.algo s.op.drive))
    runSteps n s = .next { s with
      voices := mono.1, op := { s.op with pf := out.1 }, pending := []
      responses := (out.2.map fun y => ⟨0, y, y⟩).reverse ++ s.responses }

/-- R229 (a): with all voices idle and the post filter's delay registers `+0.0`, every one of `n` `RENDER` commands returns a
zero on both channels, for every algorithm and drive, and changes no voice. -/
def Obligations.SilenceInSilenceOut : Prop :=
  ∀ (s : State) (n : Nat), s.BlockInv → (∀ u ∈ s.voices, u.amp.phase = .idle) → s.op.pf.z1 = f0 → s.op.pf.z2 = f0 →
    s.pending = List.replicate n (encode .render) →
    ∃ t rs, runSteps n s = .next t ∧ t.voices = s.voices ∧ t.responses = rs ++ s.responses ∧ rs.length = n ∧
      ∀ r ∈ rs, r.rs = 0 ∧ r.r1 = r.r0 ∧ fIsZero r.r0 = true

/-- R36, R229 (c), R230: no step changes the post filter's mode, cutoff or Q but a reset of the block, and the dirty flag of
the post filter, once clear, stays clear until then, with constant coefficients. -/
def Obligations.PostFilterNeverChanges : Prop :=
  ∀ s t : State, step s = .next t →
    (∃ rest, s.pending = [] ∧ s.host.task = .ready ∧ s.host.events = .blockReset :: rest) ∨
    (t.op.pf.mode = s.op.pf.mode ∧ t.op.pf.cutoff = s.op.pf.cutoff ∧ t.op.pf.q = s.op.pf.q ∧
      (s.op.pf.dirty = false → t.op.pf.dirty = false ∧ t.op.pf.coeffs = s.op.pf.coeffs))

/-! ### Reset (R41, R330, R331) -/

/-- R41: every row of the reset table, for every rate and every number of voices. (The coefficient registers are
unspecified: no value is stated.) -/
def Obligations.ResetValues : Prop :=
  ∀ (p : Params) (n : Nat),
    let s := State.resetAt p n
    s.voices.length = n ∧
    (∀ u ∈ s.voices,
      u.osc.phase = 0x00000000 ∧
      (∀ i, i < 256 → Memory.read u.osc.wt i = wtEntry f0 i ∧
        fInt (Memory.read u.osc.wt i) * 128 = ((i : Int) - 128) * 2 ^ 149) ∧
      u.flt.mode = .lowpass ∧ u.flt.cutoff = 0x447A0000 ∧ u.flt.q = 0x3F34FDF4 ∧ u.flt.dirty = true ∧
      u.flt.z1 = 0x00000000 ∧ u.flt.z2 = 0x00000000 ∧
      (∀ sel, let e := u.env sel
        e.atk = 0x00000000 ∧ e.dcy = 0x00000000 ∧ e.rel = 0x00000000 ∧ e.sus = 0x3F800000 ∧
        e.atkRate = 0x3F800000 ∧ e.dcyRate = 0x3F800000 ∧ e.relRate = 0x3F800000 ∧
        e.level = 0x00000000 ∧ e.phase = .idle) ∧
      u.baseFreq = 0x43DC0000 ∧ u.volume = 0x00000000 ∧ u.bend = 0x00000000 ∧ u.bendRange = 0x40000000 ∧
      u.baseCutoff = 0x447A0000 ∧ u.fegDepth = 0x00000000) ∧
    s.op.algo = .tanhClip ∧ s.op.drive = 0x3F000000 ∧
    s.op.pf.mode = .lowpass ∧ s.op.pf.cutoff = clamp 0x461C4000 cutMin (cutMax p.sampleRate) ∧
    s.op.pf.q = 0x3F34FDF4 ∧ s.op.pf.dirty = true ∧ s.op.pf.z1 = 0x00000000 ∧ s.op.pf.z2 = 0x00000000 ∧
    s.status = 0

/-- R330: a reset from outside puts the block into the reset state for its parameters and touches nothing else. Where the
reset lands is the model's choice (log 16), and so are the zeros that it leaves in the coefficient registers, which R41 leaves
unspecified (log 3). -/
def Obligations.BlockResetRestores : Prop :=
  ∀ (s : State) (rest : List HostEvent), s.pending = [] → s.host.task = .ready →
    s.host.events = .blockReset :: rest →
    step s = .next { State.resetAt s.params s.nVoices with
      pending := [], responses := s.responses, host := { s.host with events := rest } }

/-- The reset state of the model meets the invariants. Its parameters are the model's choice (log 2), and so are the host's
`byte1`, task and empty lists (log 14), on which the host's invariant rests beside R260 and R290. -/
def Obligations.ResetMeetsInvariants : Prop := State.reset.BlockInv ∧ State.reset.HostInv

/-- R331: for every legal choice of the parameters the reset state meets the invariants, and in it `RENDER` returns
`(+0.0, +0.0)` and leaves every voice as it is. The host's invariant rests on R260, R290 and the model's choice of the host's
`byte1` and task at reset (log 14). -/
def Obligations.ResetStateIsUsable : Prop :=
  ∀ (p : Params) (n : Nat), p.Legal n →
    (State.resetAt p n).BlockInv ∧ (State.resetAt p n).HostInv ∧
    ∃ t, exec .render (State.resetAt p n) = .next t ∧ t.responses = [⟨0, 0, 0⟩] ∧
      t.voices = (State.resetAt p n).voices

/-- R40: every step from every state that meets the invariant of the block gives a state that meets it, whatever commands
are pending and whatever the host does. -/
def Obligations.BlockInvariantKept : Prop :=
  ∀ s t : State, s.BlockInv → step s = .next t → t.BlockInv

/-! ### Host agent (spec/48, spec/49) -/

/-- R20, R42: what a command does to the block and what it responds do not depend on the host, on the commands after it or
on earlier responses. -/
def Obligations.BlockIgnoresHost : Prop :=
  ∀ (i : Instr) (s t : State), SameBlock s t →
    ∃ s' t' r, exec i s = .next s' ∧ exec i t = .next t' ∧ SameBlock s' t' ∧
      s'.responses = r :: s.responses ∧ t'.responses = r :: t.responses

/-- R18, R291: the host presents commands and reads responses; what it does next depends on the parameters, its own state and
the last response alone. That it moves only when no command is pending, and that an application callback hears the responses
of its own commands and nothing else of the block, is the model's choice (log 11, log 12). -/
def Obligations.HostReadsOnlyResponses : Prop :=
  ∀ s t : State, s.pending = [] → t.pending = [] → t.params = s.params → t.nVoices = s.nVoices → t.host = s.host →
    t.responses.head? = s.responses.head? →
    ∃ s' t', step s = .next s' ∧ step t = .next t' ∧ t'.host = s'.host ∧ t'.pending = s'.pending

/-- R290, R263, R264, R265: every step keeps the host's invariant: one slot per voice unit, at most one slot per note, notes in
`0 .. 127`, a waiting decoder has a command, an allocation under way has no free slot and no slot of its note, and a running
callback has been called. -/
def Obligations.HostInvariantKept : Prop :=
  ∀ s t : State, s.HostInv → step s = .next t → t.HostInv

/-- R262, R278: System Real-Time bytes anywhere in a stream change neither the decoder's state nor the messages. -/
def Obligations.RealTimeBytesIgnored : Prop :=
  ∀ (channel : Nat) (d : Decoder) (bs : List Byte),
    d.processAll channel bs = d.processAll channel (bs.filter fun b => b.toNat < 0xF8)

/-- R263, R264, R265, R278 (a): after the status byte of a command with two data bytes on the listen channel, every pair of
data bytes completes one message of that command, without a repeated status byte; after that of a command with one (Program
Change, Channel Pressure), every data byte does, and it is `byte2`. The command nibbles are those of R263. -/
def Obligations.RunningStatus : Prop :=
  (MidiCommand.ofNibble 0x8 = some .noteOff ∧ MidiCommand.ofNibble 0x9 = some .noteOn ∧
    MidiCommand.ofNibble 0xA = some .polyAftertouch ∧ MidiCommand.ofNibble 0xB = some .controlChange ∧
    MidiCommand.ofNibble 0xC = some .programChange ∧ MidiCommand.ofNibble 0xD = some .channelPressure ∧
    MidiCommand.ofNibble 0xE = some .pitchBend) ∧
  (∀ (channel nibble : Nat) (cmd : MidiCommand) (d : Decoder) (bs : List Byte), channel ≤ 15 →
    MidiCommand.ofNibble nibble = some cmd → (cmd = .programChange ∨ cmd = .channelPressure) →
    (∀ b ∈ bs, b.toNat < 0x80) →
    ((d.processAll channel (BitVec.ofNat 8 (16 * nibble + channel) :: bs)).2.map fun m => (m.cmd, m.byte2)) =
        bs.map (fun b => (cmd, b)) ∧
      (d.processAll channel (BitVec.ofNat 8 (16 * nibble + channel) :: bs)).1.state = .need1Byte) ∧
  ∀ (channel nibble : Nat) (cmd : MidiCommand) (d : Decoder) (pairs : List (Byte × Byte)), channel ≤ 15 →
    MidiCommand.ofNibble nibble = some cmd → cmd ≠ .programChange → cmd ≠ .channelPressure →
    (∀ p ∈ pairs, p.1.toNat < 0x80 ∧ p.2.toNat < 0x80) →
    (d.processAll channel (BitVec.ofNat 8 (16 * nibble + channel) :: pairs.flatMap fun p => [p.1, p.2])).2 =
      pairs.map fun p => ⟨cmd, p.1, p.2⟩

/-- R263, R266, R275, R278 (b), (d): a status byte that is not Real-Time discards any partial message: the messages after it do
not depend on the decoder's state before it (`byte1` of a one-data-byte message is dead, R265). On another channel, or a
system one, no data byte after it completes a message. -/
def Obligations.StatusByteDiscardsPartial : Prop :=
  (∀ (channel : Nat) (d d' : Decoder) (b : Byte) (bs : List Byte), 0x80 ≤ b.toNat → b.toNat < 0xF8 →
    let live := fun m : MidiMessage => (m.cmd, if m.cmd.waiting = .need1Byte then none else some m.byte1, m.byte2)
    (d.processAll channel (b :: bs)).2.map live = (d'.processAll channel (b :: bs)).2.map live) ∧
  ∀ (channel : Nat) (d : Decoder) (b : Byte) (bs : List Byte), 0x80 ≤ b.toNat → b.toNat < 0xF8 →
    (b.toNat % 16 ≠ channel ∨ 0xF0 ≤ b.toNat) → (∀ x ∈ bs, x.toNat < 0x80) →
    (d.processAll channel (b :: bs)).2 = [] ∧ (d.processAll channel (b :: bs)).1.state = .initial

/-- R274: a Pitch Bend presents one `V.BEND` per voice unit, in ascending order, with the bend `(v - 8192)/8192` exactly
(in units of 2^-149), and `0.0` at `lsb = 0, msb = 0x40`. -/
def Obligations.PitchBendReachesEveryVoice : Prop :=
  ∀ (s : State) (lsb msb : Byte), lsb.toNat < 128 → msb.toNat < 128 →
    (∃ bend : S, fFinite bend = true ∧
      fInt bend * 8192 = ((msb.toNat : Int) * 128 + lsb.toNat - 8192) * 2 ^ 149 ∧
      (lsb = 0 → msb = 0x40 → bend = f0) ∧
      (s.dispatch ⟨.pitchBend, lsb, msb⟩).pending =
        s.pending ++ (List.range s.nVoices).map fun k => encode (.vBend (BitVec.ofNat 8 k) bend)) ∧
    (s.dispatch ⟨.pitchBend, lsb, msb⟩).host = s.host

/-- R267, R268, R269, R291 (a), (b), R278 (c): a note that has a slot keeps it; else it takes the lowest-numbered free slot.
A Note On presents `V.TRIG` on that slot's voice, with the frequency `440 * 2^((note-69)/12)` and the volume `velocity/127`; a
Note Off, and a Note On with velocity 0, `V.RLS`; an allocation that an application callback asks for gives it the slot and
presents nothing. The rule leaves the precision of the two numbers open: one part in 65536 is the model's choice (log 13), as
is what a callback does (log 12). -/
def Obligations.NoteTakesItsSlot : Prop :=
  ∀ (s : State) (note velocity : Byte) (k : Nat),
    ((s.host.alloc.slots[k]? = some (some note) ∧ ∀ j, j < k → s.host.alloc.slots[j]? ≠ some (some note)) ∨
      ((∀ j : Nat, s.host.alloc.slots[j]? ≠ some (some note)) ∧ s.host.alloc.slots[k]? = some none ∧
        ∀ j, j < k → s.host.alloc.slots[j]? ≠ some none)) →
    velocity.toNat < 128 →
    (∃ f vol, fFinite f = true ∧ fGt f f0 = true ∧ inUnit vol = true ∧
      |(fInt f : ℝ) / 2 ^ 149 - 440 * (2 : ℝ) ^ (((note.toNat : ℝ) - 69) / 12)| ≤
        440 * (2 : ℝ) ^ (((note.toNat : ℝ) - 69) / 12) / 65536 ∧
      |(fInt vol : ℝ) / 2 ^ 149 - (velocity.toNat : ℝ) / 127| ≤ (velocity.toNat : ℝ) / 127 / 65536 ∧
      (velocity ≠ 0 → (s.dispatch ⟨.noteOn, note, velocity⟩).pending =
        s.pending ++ [encode (.vTrig (BitVec.ofNat 8 k) f vol)])) ∧
    (s.dispatch ⟨.noteOff, note, velocity⟩).pending = s.pending ++ [encode (.vRls (BitVec.ofNat 8 k))] ∧
    s.dispatch ⟨.noteOn, note, 0⟩ = s.dispatch ⟨.noteOff, note, velocity⟩ ∧
    (s.dispatch ⟨.noteOn, note, velocity⟩).host = (s.dispatch ⟨.noteOff, note, velocity⟩).host ∧
    (s.dispatch ⟨.noteOff, note, velocity⟩).host.alloc.slots[k]? = some (some note) ∧
    (s.dispatch ⟨.noteOff, note, velocity⟩).host.alloc.lastStolen = s.host.alloc.lastStolen ∧
    (s.dispatch ⟨.noteOff, note, velocity⟩).host.task = .ready ∧
    (s.allocateNote note .handOver).host.alloc = (s.dispatch ⟨.noteOff, note, velocity⟩).host.alloc ∧
    (s.allocateNote note .handOver).host.task = .inCallback false ∧
    (s.allocateNote note .handOver).host.seen = .slot k :: s.host.seen ∧
    (s.allocateNote note .handOver).pending = s.pending ∧
    ∀ j, j ≠ k → (s.dispatch ⟨.noteOff, note, velocity⟩).host.alloc.slots[j]? = s.host.alloc.slots[j]?

/-- R291 (c), (d), R295 (e): with no free slot and no slot of the note, the host asks the voices in ascending order and steals
the first inactive one, releasing it first; when all are active it steals the next after the last stolen, round-robin. Then
the note's own command stands ready behind the release, or the callback that asked is given the slot (log 12). The voices, the
output unit and the status register are as before at that point. How many steps it takes is the model's choice (log 11). -/
def Obligations.StealsFirstInactiveElseRoundRobin : Prop :=
  ∀ (s : State) (note : Byte) (act : NoteAction), s.HostInv → 1 ≤ s.nVoices → s.nVoices ≤ 256 → s.pending = [] →
    (∀ j : Nat, s.host.alloc.slots[j]? ≠ some (some note)) → (∀ j : Nat, s.host.alloc.slots[j]? ≠ some none) →
    let ready := fun (t : State) (k : Nat) =>
      (∀ f vol, act = .trigger f vol → t.host.task = .ready ∧ t.host.seen = s.host.seen ∧
        t.pending = [encode (.vRls (BitVec.ofNat 8 k)), encode (.vTrig (BitVec.ofNat 8 k) f vol)]) ∧
      (act = .release → t.host.task = .ready ∧ t.host.seen = s.host.seen ∧
        t.pending = [encode (.vRls (BitVec.ofNat 8 k)), encode (.vRls (BitVec.ofNat 8 k))]) ∧
      (act = .handOver → t.host.task = .inCallback false ∧ t.host.seen = .slot k :: s.host.seen ∧
        t.pending = [encode (.vRls (BitVec.ofNat 8 k))])
    (∀ k u, s.voices[k]? = some u → voiceIsActive u = false →
      (∀ j w, j < k → s.voices[j]? = some w → voiceIsActive w = true) →
      ∃ t, runSteps (2 * (k + 1)) (s.allocateNote note act) = .next t ∧ ready t k ∧
        t.host.alloc = { s.host.alloc with slots := s.host.alloc.slots.set k (some note) } ∧ SameBlock s t) ∧
    ((∀ u ∈ s.voices, voiceIsActive u = true) →
      ∃ t, runSteps (2 * s.nVoices) (s.allocateNote note act) = .next t ∧
        (let j := (s.host.alloc.lastStolen + 1) % s.nVoices
         ready t j ∧ t.host.alloc = { slots := s.host.alloc.slots.set j (some note), lastStolen := j }) ∧ SameBlock s t)

/-- R261, R265, R270 to R273, R277: the host's inputs. With no command pending and nothing under way (log 11), a step takes the
oldest input: a MIDI byte moves the decoder, and the message it completes, if any, is dispatched (the other statements say how);
a request for `n` frames presents `n` `RENDER` commands; with no input nothing changes. The other messages: Poly Aftertouch calls the application, with the voice of the note's slot, when
the note has one, and is dropped otherwise; Control Change calls it with the allocator below controller 120; Program Change
calls it with the allocator; Channel Pressure does nothing. -/
def Obligations.OtherHostInputs : Prop :=
  (∀ s : State, s.pending = [] → s.host.task = .ready →
    (s.host.events = [] → step s = .next s) ∧
    (∀ (b : Byte) (rest : List HostEvent), s.host.events = .midi b :: rest →
      let r := s.host.decoder.process s.params.listenChannel b
      let moved := { s with host := { s.host with events := rest, decoder := r.1 } }
      (r.2 = none → step s = .next moved) ∧ ∀ m, r.2 = some m → step s = .next (moved.dispatch m)) ∧
    ∀ (n : Nat) (rest : List HostEvent), s.host.events = .frames n :: rest →
      step s = .next { s with
        host := { s.host with events := rest }, pending := List.replicate n (encode .render) }) ∧
  ∀ (s : State) (b1 b2 : Byte),
    let calls := fun (call : HostCall) =>
      { s with host := { s.host with calls := call :: s.host.calls, task := .inCallback false } }
    (∀ k : Nat, s.host.alloc.slots[k]? = some (some b1) → (∀ j, j < k → s.host.alloc.slots[j]? ≠ some (some b1)) →
      s.dispatch ⟨.polyAftertouch, b1, b2⟩ = calls (.polyAftertouch s.params.listenChannel b1 b2 k)) ∧
    ((∀ j : Nat, s.host.alloc.slots[j]? ≠ some (some b1)) → s.dispatch ⟨.polyAftertouch, b1, b2⟩ = s) ∧
    (b1.toNat < 120 → s.dispatch ⟨.controlChange, b1, b2⟩ =
      calls (.controlChange s.params.listenChannel b1 b2 s.host.alloc)) ∧
    (120 ≤ b1.toNat → s.dispatch ⟨.controlChange, b1, b2⟩ = s) ∧
    s.dispatch ⟨.programChange, b1, b2⟩ = calls (.programChange s.params.listenChannel b2 s.host.alloc) ∧
    s.dispatch ⟨.channelPressure, b1, b2⟩ = s ∧
    ∀ n, s.handleEvent (.frames n) = { s with pending := s.pending ++ List.replicate n (encode .render) }

/-- R270, R272, R273, R291, R292 (log 12): whatever the application does, a move of the host while a callback runs is one of
three: the callback returns; it issues one command; or it allocates, by R291, and is then given the slot. A callback that was
handed one voice commands that voice alone and allocates nothing. The response of its last command is heard first. The move
writes nothing of the block, and the decoder and the waiting inputs stand still until the callback returns. -/
def Obligations.CallbackMoves : Prop :=
  ∀ (s : State) (due : Bool) (call : HostCall) (earlier : List HostCall), s.pending = [] →
    s.host.task = .inCallback due → s.host.calls = call :: earlier →
    ∃ t, step s = .next t ∧ SameBlock s t ∧ t.responses = s.responses ∧ t.host.decoder = s.host.decoder ∧
      t.host.events = s.host.events ∧ t.host.calls = s.host.calls ∧
      (let heard := if due then (s.responses.head?.map CallbackResult.response).toList ++ s.host.seen else s.host.seen
       t = { s with host := { s.host with task := .ready, seen := heard } } ∨
       (∃ i, t = { s with pending := [encode i], host := { s.host with task := .inCallback true, seen := heard } } ∧
         ∀ channel note pressure k, call = .polyAftertouch channel note pressure k →
           i.voiceField = some (BitVec.ofNat 8 k)) ∨
       ∃ note, note.toNat < 128 ∧ (∀ channel note' pressure k, call ≠ .polyAftertouch channel note' pressure k) ∧
         t = ({ s with host := { s.host with seen := heard } } : State).allocateNote note .handOver)
end

