-- ==== Sys2Proof/Laws/Decode.lean ====
section
/-!
SUPPORT. The four fields of a header word made by `header` (R81), and the opcode map row by row.
-/

namespace Sys2Proof

@[simp] theorem opField_header (op v u : BitVec 8) (a b : BitVec 32) : Command.opField ⟨header op v u, a, b⟩ = op := by
  unfold Command.opField header
  apply BitVec.eq_of_getLsbD_eq
  intro k hk
  simp only [BitVec.getLsbD_extractLsb', BitVec.getLsbD_append]
  simp [show ¬ (24+k < 8) by omega, show ¬ (24 + k - 8 < 8) by omega, show ¬ (24 + k - 8 - 8 < 8) by omega, hk, show 24 + k - 8 - 8 - 8 = k by omega]

@[simp] theorem vField_header (op v u : BitVec 8) (a b : BitVec 32) : Command.vField ⟨header op v u, a, b⟩ = v := by
  unfold Command.vField header
  apply BitVec.eq_of_getLsbD_eq
  intro k hk
  simp only [BitVec.getLsbD_extractLsb', BitVec.getLsbD_append]
  simp [show ¬ (16+k < 8) by omega, show ¬ (16 + k - 8 < 8) by omega, hk, show 16 + k - 8 - 8 = k by omega]

@[simp] theorem uField_header (op v u : BitVec 8) (a b : BitVec 32) : Command.uField ⟨header op v u, a, b⟩ = u := by
  unfold Command.uField header
  apply BitVec.eq_of_getLsbD_eq
  intro k hk
  simp only [BitVec.getLsbD_extractLsb', BitVec.getLsbD_append]
  simp [show ¬ (8+k < 8) by omega, hk]

@[simp] theorem rsvField_header (op v u : BitVec 8) (a b : BitVec 32) : Command.rsvField ⟨header op v u, a, b⟩ = 0#8 := by
  unfold Command.rsvField header
  apply BitVec.eq_of_getLsbD_eq
  intro k hk
  simp only [BitVec.getLsbD_extractLsb', BitVec.getLsbD_append]
  simp [hk]

/-- Decoding a command whose opcode has a row of the map. -/
theorem decode_of_row {c : Command} {row : OpcodeRow} (h : opcodeRow c.opField = some row) :
    decode c =
      if c.rsvField ≠ 0 then .illegal .reservedNotZero
      else if !row.usesV && c.vField ≠ 0 then .illegal .unusedVoiceField
      else if !row.usesU && c.uField ≠ 0 then .illegal .unusedUnitField
      else .command (row.make c.vField c.uField c.w1 c.w2) := by
  unfold decode
  rw [h]

/-- Decoding a command whose opcode has no row. -/
theorem decode_of_no_row {c : Command} (h : opcodeRow c.opField = none) :
    decode c = .illegal (.unknownOpcode c.opField) := by
  unfold decode
  rw [h]

end Sys2Proof
end

