-- ==== Sys2Proof/Laws/Float.lean ====
section
/-!
SUPPORT. Binary32 arithmetic: rounding is monotone and exact on binary32 values, what the operations answer on finite
operands, and the comparisons as comparisons of integers. A bound on a result follows from `roundMag_le` and
`le_roundMag`.
-/

namespace Sys2Proof.Machine

/-! ### Rounding -/

theorem div_le_div_of_cross {n1 d1 n2 d2 : Nat} (h1 : 0 < d1) (h2 : 0 < d2) (h : n1 * d2 ≤ n2 * d1) :
    n1 / d1 ≤ n2 / d2 := by
  rw [Nat.le_div_iff_mul_le h2]
  have h3 : n1 / d1 * d1 ≤ n1 := Nat.div_mul_le_self n1 d1
  have h4 : n1 / d1 * d2 * d1 ≤ n2 * d1 := by
    calc n1 / d1 * d2 * d1 = n1 / d1 * d1 * d2 := by ring
      _ ≤ n1 * d2 := Nat.mul_le_mul_right d2 h3
      _ ≤ n2 * d1 := h
  exact Nat.le_of_mul_le_mul_right h4 h1

theorem roundNearestEven_bounds (n d : Nat) : n / d ≤ roundNearestEven n d ∧ roundNearestEven n d ≤ n / d + 1 := by
  unfold roundNearestEven; split <;> omega

/-- Rounding to the nearest integer is monotone in the quotient. -/
theorem roundNearestEven_mono {n1 d1 n2 d2 : Nat} (h1 : 0 < d1) (h2 : 0 < d2) (h : n1 * d2 ≤ n2 * d1) :
    roundNearestEven n1 d1 ≤ roundNearestEven n2 d2 := by
  have hq := div_le_div_of_cross h1 h2 h
  rcases Nat.lt_or_eq_of_le hq with hlt | heq
  · have := (roundNearestEven_bounds n1 d1).2
    have := (roundNearestEven_bounds n2 d2).1
    omega
  · have e1 := Nat.div_add_mod n1 d1
    have e2 := Nat.div_add_mod n2 d2
    have hr : n1 % d1 * d2 ≤ n2 % d2 * d1 := by
      have : (d1 * (n1 / d1) + n1 % d1) * d2 ≤ (d2 * (n2 / d2) + n2 % d2) * d1 := by rw [e1, e2]; exact h
      rw [heq] at this
      nlinarith
    unfold roundNearestEven
    rw [heq]
    split
    · split <;> omega
    · rename_i hup
      rw [if_neg]
      intro hdown
      apply hup
      rcases hdown with hdown | ⟨hdown, hev⟩
      · left; nlinarith
      · rcases Nat.lt_trichotomy (2 * (n1 % d1)) d1 with hl | he | hg
        · exact .inl hl
        · exact .inr ⟨he, hev⟩
        · exfalso; nlinarith

theorem roundMag_def (n d : Nat) :
    roundMag n d = min ((Nat.log2 (n / d) - 23) * 2 ^ 23 +
      roundNearestEven n (d * 2 ^ (Nat.log2 (n / d) - 23))) infMag := by
  unfold roundMag; rfl

theorem roundMag_le_inf (n d : Nat) : roundMag n d ≤ infMag := Nat.min_le_right _ _

theorem lt_two_pow_log2 (q : Nat) : q < 2 ^ (Nat.log2 q - 23 + 24) := by
  rcases Nat.eq_zero_or_pos q with rfl | h
  · exact Nat.two_pow_pos _
  · have h1 : q < 2 ^ (Nat.log2 q + 1) := Nat.lt_log2_self
    exact Nat.lt_of_lt_of_le h1 (Nat.pow_le_pow_right (by omega) (by omega))

theorem two_pow_le_of_log2 (q : Nat) (h : 0 < Nat.log2 q - 23) : 2 ^ (Nat.log2 q - 23 + 23) ≤ q := by
  have hq : q ≠ 0 := by rintro rfl; simp at h
  have h1 : 2 ^ Nat.log2 q ≤ q := Nat.log2_self_le hq
  exact Nat.le_trans (Nat.pow_le_pow_right (by omega) (by omega)) h1

theorem log2_mono {a b : Nat} (h : a ≤ b) : Nat.log2 a ≤ Nat.log2 b := by
  rcases Nat.eq_zero_or_pos a with rfl | ha
  · simp
  · have hb : b ≠ 0 := by omega
    rw [Nat.le_log2 hb]
    exact Nat.le_trans (Nat.log2_self_le (by omega)) h

/-- Rounding to binary32 is monotone in the exact quotient. -/
theorem roundMag_mono {n1 d1 n2 d2 : Nat} (h1 : 0 < d1) (h2 : 0 < d2) (h : n1 * d2 ≤ n2 * d1) :
    roundMag n1 d1 ≤ roundMag n2 d2 := by
  have hq := div_le_div_of_cross h1 h2 h
  have hs : Nat.log2 (n1 / d1) - 23 ≤ Nat.log2 (n2 / d2) - 23 := Nat.sub_le_sub_right (log2_mono hq) 23
  rw [roundMag_def, roundMag_def]
  generalize hs1 : Nat.log2 (n1 / d1) - 23 = s1 at hs ⊢
  generalize hs2 : Nat.log2 (n2 / d2) - 23 = s2 at hs ⊢
  have p1 : 0 < d1 * 2 ^ s1 := Nat.mul_pos h1 (Nat.two_pow_pos _)
  have p2 : 0 < d2 * 2 ^ s2 := Nat.mul_pos h2 (Nat.two_pow_pos _)
  refine min_le_min_right infMag ?_
  rcases Nat.lt_or_eq_of_le hs with hlt | heq
  · have b1 : roundNearestEven n1 (d1 * 2 ^ s1) ≤ 2 ^ 24 := by
      have hd : n1 / (d1 * 2 ^ s1) < 2 ^ 24 := by
        rw [← Nat.div_div_eq_div_mul, Nat.div_lt_iff_lt_mul (Nat.two_pow_pos _), ← Nat.pow_add, Nat.add_comm, ← hs1]
        exact lt_two_pow_log2 _
      have := (roundNearestEven_bounds n1 (d1 * 2 ^ s1)).2
      omega
    have b2 : 2 ^ 23 ≤ roundNearestEven n2 (d2 * 2 ^ s2) := by
      have hd : 2 ^ 23 ≤ n2 / (d2 * 2 ^ s2) := by
        rw [← Nat.div_div_eq_div_mul, Nat.le_div_iff_mul_le (Nat.two_pow_pos _), ← Nat.pow_add, Nat.add_comm, ← hs2]
        exact two_pow_le_of_log2 _ (by omega)
      exact Nat.le_trans hd (roundNearestEven_bounds _ _).1
    omega
  · subst heq
    have : roundNearestEven n1 (d1 * 2 ^ s1) ≤ roundNearestEven n2 (d2 * 2 ^ s1) := by
      refine roundNearestEven_mono p1 p2 ?_
      calc n1 * (d2 * 2 ^ s1) = n1 * d2 * 2 ^ s1 := by ring
        _ ≤ n2 * d1 * 2 ^ s1 := Nat.mul_le_mul_right _ h
        _ = n2 * (d1 * 2 ^ s1) := by ring
    omega

/-- Equal quotients round alike. -/
theorem roundMag_congr {n1 d1 n2 d2 : Nat} (h1 : 0 < d1) (h2 : 0 < d2) (h : n1 * d2 = n2 * d1) :
    roundMag n1 d1 = roundMag n2 d2 :=
  Nat.le_antisymm (roundMag_mono h1 h2 (le_of_eq h)) (roundMag_mono h2 h1 (le_of_eq h.symm))

theorem roundNearestEven_exact (m d : Nat) (h : 0 < d) : roundNearestEven (m * d) d = m := by
  unfold roundNearestEven
  rw [Nat.mul_mod_left, Nat.mul_div_cancel _ h]
  rw [if_pos (.inl (by omega))]

theorem log2_eq_of_bounds {q k : Nat} (h1 : 2 ^ k ≤ q) (h2 : q < 2 ^ (k + 1)) : Nat.log2 q = k := by
  have hq : q ≠ 0 := by have := Nat.two_pow_pos k; omega
  exact (Nat.log2_eq_iff hq).mpr ⟨h1, h2⟩

/-- Rounding changes no binary32 value. -/
theorem roundMag_magUnits (mag : Nat) (h : mag < infMag) : roundMag (magUnits mag) 1 = mag := by
  unfold magUnits roundMag
  unfold infMag at h ⊢
  have hf := Nat.mod_lt mag (y := 2 ^ 23) (by decide)
  have hdm := Nat.div_add_mod mag (2 ^ 23)
  by_cases he : mag / 2 ^ 23 = 0
  · simp only [if_pos he]
    have hm : mag < 2 ^ 23 := by omega
    have hl : Nat.log2 (mag / 1) - 23 = 0 := by
      rw [Nat.div_one]
      rcases Nat.eq_zero_or_pos mag with h0 | hp
      · subst h0; rfl
      · have : Nat.log2 mag < 23 := (Nat.log2_lt (by omega)).mpr hm
        omega
    rw [hl]
    have := roundNearestEven_exact mag 1 (by decide)
    simp only [Nat.mul_one] at this
    simp only [pow_zero, Nat.mul_one, Nat.zero_mul, Nat.zero_add, this]
    omega
  · simp only [if_neg he]
    generalize hE : mag / 2 ^ 23 = e at *
    obtain ⟨k, rfl⟩ : ∃ k, e = k + 1 := ⟨e - 1, by omega⟩
    simp only [Nat.add_sub_cancel]
    generalize mag % 2 ^ 23 = f at *
    have hl : Nat.log2 ((2 ^ 23 + f) * 2 ^ k / 1) - 23 = k := by
      rw [Nat.div_one]
      have hpk := Nat.two_pow_pos k
      have : Nat.log2 ((2 ^ 23 + f) * 2 ^ k) = 23 + k := by
        apply log2_eq_of_bounds
        · rw [pow_add]; exact Nat.mul_le_mul_right _ (by omega)
        · rw [show 23 + k + 1 = 24 + k by omega, pow_add]; exact Nat.mul_lt_mul_of_pos_right (by omega) hpk
      omega
    rw [hl, Nat.one_mul, roundNearestEven_exact _ _ (Nat.two_pow_pos k)]
    omega

/-- A quotient at most a binary32 value rounds to at most it. -/
theorem roundMag_le {n d mag : Nat} (hd : 0 < d) (hm : mag < infMag) (h : n ≤ magUnits mag * d) :
    roundMag n d ≤ mag := by
  rw [← roundMag_magUnits mag hm]
  exact roundMag_mono hd (by decide) (by omega)

/-- A quotient at least a binary32 value rounds to at least it. -/
theorem le_roundMag {n d mag : Nat} (hd : 0 < d) (hm : mag < infMag) (h : magUnits mag * d ≤ n) :
    mag ≤ roundMag n d := by
  rw [← roundMag_magUnits mag hm]
  exact roundMag_mono (by decide) hd (by omega)

/-- A quotient that is a binary32 value rounds to it. -/
theorem roundMag_eq {n d mag : Nat} (hd : 0 < d) (hm : mag < infMag) (h : n = magUnits mag * d) :
    roundMag n d = mag :=
  Nat.le_antisymm (roundMag_le hd hm (le_of_eq h)) (le_roundMag hd hm (le_of_eq h.symm))

@[simp] theorem roundMag_zero (d : Nat) (hd : 0 < d) : roundMag 0 d = 0 :=
  roundMag_eq hd (by decide) (by simp [magUnits])

/-! ### The rounding error -/

theorem roundNearestEven_le (n d : Nat) : 2 * (roundNearestEven n d * d) ≤ 2 * n + d := by
  have e := Nat.div_add_mod n d
  unfold roundNearestEven
  split
  · nlinarith [Nat.zero_le (n % d)]
  · rename_i h
    have h2 : d ≤ 2 * (n % d) := by
      by_contra hc
      exact h (.inl (by omega))
    have : (n / d + 1) * d = d * (n / d) + d := by ring
    omega

theorem le_roundNearestEven {n d : Nat} (hd : 0 < d) : 2 * n ≤ 2 * (roundNearestEven n d * d) + d := by
  have e := Nat.div_add_mod n d
  have hm := Nat.mod_lt n hd
  unfold roundNearestEven
  split
  · rename_i h
    have : n / d * d = d * (n / d) := Nat.mul_comm _ _
    omega
  · have : (n / d + 1) * d = d * (n / d) + d := by ring
    omega

/-- The value of a magnitude made of an exponent step `s` and a significand `r` of at most 24 bits. -/
theorem magUnits_compose {s r : Nat} (h1 : r ≤ 2 ^ 24) (h2 : s = 0 ∨ 2 ^ 23 ≤ r) : magUnits (s * 2 ^ 23 + r) = r * 2 ^ s := by
  unfold magUnits
  rcases Nat.lt_or_ge r (2 ^ 23) with hr | hr
  · have hs : s = 0 := by omega
    subst hs
    rw [if_pos (by omega)]; simp
  · rcases Nat.lt_or_ge r (2 ^ 24) with hr2 | hr2
    · have hq : (s * 2 ^ 23 + r) / 2 ^ 23 = s + 1 := by omega
      have hm : (s * 2 ^ 23 + r) % 2 ^ 23 = r - 2 ^ 23 := by omega
      rw [hq, hm, if_neg (by omega), Nat.add_sub_cancel, Nat.add_sub_cancel' hr]
    · have hr3 : r = 2 ^ 24 := by omega
      subst hr3
      have hq : (s * 2 ^ 23 + 2 ^ 24) / 2 ^ 23 = s + 2 := by omega
      have hm : (s * 2 ^ 23 + 2 ^ 24) % 2 ^ 23 = 0 := by omega
      rw [hq, hm, if_neg (by omega), Nat.add_zero, show s + 2 - 1 = s + 1 by omega, Nat.pow_succ]
      ring

theorem roundSignificand_bounds (n d : Nat) :
    roundNearestEven n (d * 2 ^ (Nat.log2 (n / d) - 23)) ≤ 2 ^ 24 ∧
    (Nat.log2 (n / d) - 23 = 0 ∨ 2 ^ 23 ≤ roundNearestEven n (d * 2 ^ (Nat.log2 (n / d) - 23))) := by
  constructor
  · have hlt : n / (d * 2 ^ (Nat.log2 (n / d) - 23)) < 2 ^ 24 := by
      rw [← Nat.div_div_eq_div_mul, Nat.div_lt_iff_lt_mul (Nat.two_pow_pos _), ← Nat.pow_add, Nat.add_comm]
      exact lt_two_pow_log2 _
    have := (roundNearestEven_bounds n (d * 2 ^ (Nat.log2 (n / d) - 23))).2
    omega
  · rcases Nat.eq_zero_or_pos (Nat.log2 (n / d) - 23) with h0 | h0
    · exact .inl h0
    · right
      have hle : 2 ^ 23 ≤ n / (d * 2 ^ (Nat.log2 (n / d) - 23)) := by
        rw [← Nat.div_div_eq_div_mul, Nat.le_div_iff_mul_le (Nat.two_pow_pos _), ← Nat.pow_add, Nat.add_comm]
        exact two_pow_le_of_log2 _ h0
      exact Nat.le_trans hle (roundNearestEven_bounds _ _).1

/-- The coarse unit of a quotient of at least 2^23 units is at most its 2^-23 part. -/
theorem step_le_quotient (n d : Nat) (h : 0 < Nat.log2 (n / d) - 23) :
    d * 2 ^ (Nat.log2 (n / d) - 23) * 2 ^ 23 ≤ n := by
  have h1 := two_pow_le_of_log2 (n / d) h
  have h2 : n / d * d ≤ n := Nat.div_mul_le_self n d
  calc d * 2 ^ (Nat.log2 (n / d) - 23) * 2 ^ 23 = 2 ^ (Nat.log2 (n / d) - 23 + 23) * d := by rw [Nat.pow_add]; ring
    _ ≤ n / d * d := Nat.mul_le_mul_right d h1
    _ ≤ n := h2

theorem magUnits_strict_top {m : Nat} (h : infMag ≤ m) : magUnits infMag ≤ magUnits m := by
  have hi : infMag = 255 * 2 ^ 23 := rfl
  have h1 : magUnits infMag = 2 ^ 23 * 2 ^ 254 := by
    unfold magUnits
    rw [hi, if_neg (by omega), show 255 * 2 ^ 23 / 2 ^ 23 - 1 = 254 by omega, show 255 * 2 ^ 23 % 2 ^ 23 = 0 by omega,
      Nat.add_zero]
  have h2 : 255 ≤ m / 2 ^ 23 := by rw [hi] at h; omega
  rw [h1]
  unfold magUnits
  rw [if_neg (by omega)]
  exact Nat.mul_le_mul (by omega) (Nat.pow_le_pow_right (by omega) (by omega))

/-- Rounding up is by at most half a unit in the 24th place, or half a unit of 2^-149. -/
theorem roundMag_upper (n d : Nat) (hd : 0 < d) :
    magUnits (roundMag n d) * d * 2 ^ 24 ≤ n * (2 ^ 24 + 1) + d * 2 ^ 23 := by
  obtain ⟨b1, b2⟩ := roundSignificand_bounds n d
  have hs := step_le_quotient n d
  have hr := roundNearestEven_le n (d * 2 ^ (Nat.log2 (n / d) - 23))
  have hm : magUnits (roundMag n d) ≤
      roundNearestEven n (d * 2 ^ (Nat.log2 (n / d) - 23)) * 2 ^ (Nat.log2 (n / d) - 23) := by
    rw [roundMag_def, ← magUnits_compose b1 b2]
    rcases Nat.le_total ((Nat.log2 (n / d) - 23) * 2 ^ 23 +
      roundNearestEven n (d * 2 ^ (Nat.log2 (n / d) - 23))) infMag with h | h
    · rw [Nat.min_eq_left h]
    · rw [Nat.min_eq_right h]; exact magUnits_strict_top h
  generalize Nat.log2 (n / d) - 23 = s at *
  generalize roundNearestEven n (d * 2 ^ s) = r at *
  generalize magUnits (roundMag n d) = g at *
  have hg : g * d ≤ r * (d * 2 ^ s) := by
    calc g * d ≤ r * 2 ^ s * d := Nat.mul_le_mul_right d hm
      _ = r * (d * 2 ^ s) := by ring
  generalize hD : d * 2 ^ s = D at *
  rcases Nat.eq_zero_or_pos s with h0 | h0
  · subst h0
    have : D = d := by rw [← hD]; simp
    subst this
    generalize g * D = x at *
    generalize r * D = y at *
    clear hs b1 b2 hD hm
    omega
  · have h3 := hs h0
    generalize g * d = x at *
    generalize r * D = y at *
    clear hs b1 b2 hD hm
    linarith

/-- Rounding down is by at most half a unit in the 24th place, or half a unit of 2^-149, below the overflow bound. -/
theorem roundMag_lower (n d : Nat) (hd : 0 < d) (h : roundMag n d < infMag) :
    n * (2 ^ 24 - 1) ≤ magUnits (roundMag n d) * d * 2 ^ 24 + d * 2 ^ 23 := by
  obtain ⟨b1, b2⟩ := roundSignificand_bounds n d
  have hs := step_le_quotient n d
  have hr := le_roundNearestEven (n := n) (Nat.mul_pos hd (Nat.two_pow_pos (Nat.log2 (n / d) - 23)))
  have hm : magUnits (roundMag n d) =
      roundNearestEven n (d * 2 ^ (Nat.log2 (n / d) - 23)) * 2 ^ (Nat.log2 (n / d) - 23) := by
    rw [roundMag_def] at h ⊢
    rw [← magUnits_compose b1 b2, Nat.min_eq_left (by omega)]
  generalize Nat.log2 (n / d) - 23 = s at *
  generalize roundNearestEven n (d * 2 ^ s) = r at *
  generalize magUnits (roundMag n d) = g at *
  have hg : g * d = r * (d * 2 ^ s) := by rw [hm]; ring
  generalize hD : d * 2 ^ s = D at *
  rcases Nat.eq_zero_or_pos s with h0 | h0
  · subst h0
    have : D = d := by rw [← hD]; simp
    subst this
    generalize g * D = x at *
    generalize r * D = y at *
    clear hs b1 b2 hD hm h
    omega
  · have h3 := hs h0
    generalize g * d = x at *
    generalize r * D = y at *
    clear hs b1 b2 hD hm h
    rw [Nat.mul_sub_one]
    have h4 : n * 2 ^ 24 ≤ x * 2 ^ 24 + d * 2 ^ 23 + n := by linarith
    exact Nat.sub_le_of_le_add h4

/-- Larger magnitudes have larger values. -/
theorem magUnits_mono {a b : Nat} (ha : a < infMag) (hb : b < infMag) : magUnits a ≤ magUnits b ↔ a ≤ b := by
  constructor
  · intro h
    rw [← roundMag_magUnits a ha]
    exact roundMag_le (by decide) hb (by omega)
  · intro h
    by_contra hlt
    have h2 : b ≤ a := by
      rw [← roundMag_magUnits b hb]
      exact roundMag_le (by decide) ha (by omega)
    have : a = b := Nat.le_antisymm h h2
    subst this
    exact hlt (Nat.le_refl _)

/-! ### Bits -/

theorem infMag_lt : infMag < 2 ^ 31 := by decide

theorem fMag_lt (x : S) : fMag x < 2 ^ 31 := Nat.mod_lt _ (by decide)

theorem fSign_eq (x : S) : fSign x = decide (2 ^ 31 ≤ x.toNat) := by
  have h := x.isLt
  unfold fSign
  rw [BitVec.getLsbD, Nat.testBit_eq_decide_div_mod_eq]
  simp only [decide_eq_decide]
  omega

theorem toNat_eq (x : S) : x.toNat = fMag x + if fSign x then 2 ^ 31 else 0 := by
  have h := x.isLt
  rw [fSign_eq]
  unfold fMag
  by_cases h31 : 2 ^ 31 ≤ x.toNat
  · simp only [h31, decide_true, if_true]; omega
  · simp only [h31, decide_false]; simp; omega

theorem toNat_fPack (neg : Bool) (mag : Nat) (h : mag < 2 ^ 31) :
    (fPack neg mag).toNat = mag + if neg then 2 ^ 31 else 0 := by
  unfold fPack
  rw [BitVec.toNat_ofNat]
  cases neg <;> simp <;> omega

@[simp] theorem fMag_fPack (neg : Bool) (mag : Nat) (h : mag < 2 ^ 31) : fMag (fPack neg mag) = mag := by
  unfold fMag
  rw [toNat_fPack neg mag h]
  cases neg <;> simp <;> omega

@[simp] theorem fSign_fPack (neg : Bool) (mag : Nat) (h : mag < 2 ^ 31) : fSign (fPack neg mag) = neg := by
  rw [fSign_eq, toNat_fPack neg mag h]
  cases neg <;> simp <;> omega

/-- A value is its sign and magnitude. -/
theorem fPack_self (x : S) : fPack (fSign x) (fMag x) = x := by
  apply BitVec.eq_of_toNat_eq
  rw [toNat_fPack _ _ (fMag_lt x), ← toNat_eq]

theorem eq_of_sign_mag {x y : S} (hs : fSign x = fSign y) (hm : fMag x = fMag y) : x = y := by
  rw [← fPack_self x, ← fPack_self y, hs, hm]

theorem fFinite_iff (x : S) : fFinite x = true ↔ fMag x < infMag := by
  have := fMag_lt x
  unfold fFinite infMag
  rw [bne_iff_ne, Ne]
  omega

theorem fIsNaN_of_finite {x : S} (h : fFinite x = true) : fIsNaN x = false := by
  have := (fFinite_iff x).mp h
  simp [fIsNaN]; omega

theorem fIsInf_of_finite {x : S} (h : fFinite x = true) : fIsInf x = false := by
  have := (fFinite_iff x).mp h
  simp [fIsInf]; omega

/-- Every value is finite, an infinity or a NaN. -/
theorem finite_inf_or_nan (x : S) : fFinite x = true ∨ fIsInf x = true ∨ fIsNaN x = true := by
  rw [fFinite_iff]; simp [fIsInf, fIsNaN]; omega

theorem fIsNaN_fPack (neg : Bool) (mag : Nat) (h : mag ≤ infMag) : fIsNaN (fPack neg mag) = false := by
  have := infMag_lt
  simp [fIsNaN, fMag_fPack neg mag (by omega)]; omega

theorem fFinite_fPack (neg : Bool) (mag : Nat) (h : mag < infMag) : fFinite (fPack neg mag) = true := by
  have := infMag_lt
  rw [fFinite_iff, fMag_fPack neg mag (by omega)]; exact h

/-- The NaN an operation makes is a NaN, whatever its free bits. -/
theorem fIsNaN_fNaN (op : Config.NanSource) (a b : S) : fIsNaN (fNaN op a b) = true := by
  unfold fNaN
  have h := Nat.mod_lt (Config.nanBits op a b).toNat (y := 2 ^ 23) (by decide)
  have hi : infMag = 255 * 2 ^ 23 := rfl
  simp only
  split
  · simp only [fIsNaN]; rw [fMag_fPack _ _ (by omega)]; simp
  · simp only [fIsNaN]; rw [fMag_fPack _ _ (by omega)]; simp; omega

/-! ### Operands that are not finite -/

theorem not_finite_iff (x : S) : fFinite x = false ↔ fIsInf x = true ∨ fIsNaN x = true := by
  rw [← Bool.not_eq_true, fFinite_iff]; simp [fIsInf, fIsNaN]; omega

theorem not_finite_fNaN (op : Config.NanSource) (a b : S) : fFinite (fNaN op a b) = false :=
  (not_finite_iff _).mpr (.inr (fIsNaN_fNaN op a b))

theorem not_finite_fPack_infMag (neg : Bool) : fFinite (fPack neg infMag) = false := by cases neg <;> decide

/-- An infinity or a NaN divided by anything is not finite. -/
theorem not_finite_fDiv {a : S} (b : S) (h : fFinite a = false) : fFinite (fDiv a b) = false := by
  unfold fDiv
  simp only
  split
  · exact not_finite_fNaN _ _ _
  · rename_i hn
    rcases (not_finite_iff a).mp h with ha | ha
    · rw [if_pos ha]
      split
      · exact not_finite_fNaN _ _ _
      · exact not_finite_fPack_infMag _
    · simp [ha] at hn

/-- Anything plus an infinity or a NaN is not finite. -/
theorem not_finite_fAdd (a : S) {b : S} (h : fFinite b = false) : fFinite (fAdd a b) = false := by
  unfold fAdd
  split
  · exact not_finite_fNaN _ _ _
  · split
    · rename_i ha
      split
      · exact not_finite_fNaN _ _ _
      · exact (not_finite_iff a).mpr (.inl ha)
    · rcases (not_finite_iff b).mp h with hb | hb
      · rw [if_pos hb]; exact h
      · simp_all

@[simp] theorem fMag_fNeg (x : S) : fMag (fNeg x) = fMag x := by
  unfold fMag fNeg
  have h := x.isLt
  rw [BitVec.toNat_xor]
  apply Nat.eq_of_testBit_eq
  intro i
  rw [Nat.testBit_mod_two_pow, Nat.testBit_mod_two_pow, Nat.testBit_xor]
  by_cases hi : i < 31
  · have h31 : Nat.testBit 2147483648 i = false := by
      rw [show 2147483648 = 2 ^ 31 from rfl, Nat.testBit_two_pow]
      simp only [decide_eq_false_iff_not]; omega
    simp [h31]
  · simp [hi]

@[simp] theorem fSign_fNeg (x : S) : fSign (fNeg x) = !fSign x := by
  unfold fSign fNeg
  rw [BitVec.getLsbD_xor]
  simp

@[simp] theorem fMag_fAbs (x : S) : fMag (fAbs x) = fMag x := by
  unfold fMag fAbs
  rw [BitVec.toNat_and, show BitVec.toNat 0x7FFFFFFF#32 = 2 ^ 31 - 1 from rfl, Nat.and_two_pow_sub_one_eq_mod,
    Nat.mod_mod]

@[simp] theorem fSign_fAbs (x : S) : fSign (fAbs x) = false := by
  unfold fSign fAbs
  rw [BitVec.getLsbD_and]
  simp

@[simp] theorem fFinite_fNeg (x : S) : fFinite (fNeg x) = fFinite x := by unfold fFinite; rw [fMag_fNeg]
@[simp] theorem fFinite_fAbs (x : S) : fFinite (fAbs x) = fFinite x := by unfold fFinite; rw [fMag_fAbs]
@[simp] theorem fIsZero_fNeg (x : S) : fIsZero (fNeg x) = fIsZero x := by unfold fIsZero; rw [fMag_fNeg]

theorem fInt_fNeg (x : S) : fInt (fNeg x) = -fInt x := by
  unfold fInt fUnits
  rw [fMag_fNeg, fSign_fNeg]
  cases fSign x <;> simp

theorem fInt_fPack (neg : Bool) (mag : Nat) (h : mag < 2 ^ 31) :
    fInt (fPack neg mag) = if neg then -(magUnits mag : Int) else (magUnits mag : Int) := by
  unfold fInt fUnits
  rw [fMag_fPack neg mag h, fSign_fPack neg mag h]

/-- A zero is `+0` or `-0`. -/
theorem fIsZero_iff (x : S) : fIsZero x = true ↔ x = f0 ∨ x = fNeg f0 := by
  constructor
  · intro h
    have hm : fMag x = 0 := by simpa [fIsZero] using h
    cases hs : fSign x
    · left; apply eq_of_sign_mag
      · rw [hs]; rfl
      · rw [hm]; rfl
    · right; apply eq_of_sign_mag
      · rw [hs]; rfl
      · rw [hm]; rfl
  · rintro (rfl | rfl) <;> rfl

theorem magUnits_eq_zero (mag : Nat) : magUnits mag = 0 ↔ mag = 0 := by
  unfold magUnits
  constructor
  · intro h
    split at h
    · exact h
    · have := Nat.two_pow_pos (mag / 2 ^ 23 - 1)
      have h2 : 0 < 2 ^ 23 + mag % 2 ^ 23 := by omega
      have := Nat.mul_pos h2 this
      omega
  · rintro rfl; rfl

theorem fUnits_eq_zero (x : S) : fUnits x = 0 ↔ fIsZero x = true := by
  unfold fUnits fIsZero
  rw [magUnits_eq_zero]; simp

theorem fInt_eq_zero (x : S) : fInt x = 0 ↔ fIsZero x = true := by
  rw [← fUnits_eq_zero]
  unfold fInt
  split <;> omega

theorem natAbs_fInt (x : S) : (fInt x).natAbs = fUnits x := by
  unfold fInt
  split <;> simp

/-! ### Comparisons -/

/-- The order of finite values is the order of their integers. -/
theorem fOrd_le_iff {a b : S} (ha : fFinite a = true) (hb : fFinite b = true) : fOrd a ≤ fOrd b ↔ fInt a ≤ fInt b := by
  have ha := (fFinite_iff a).mp ha
  have hb := (fFinite_iff b).mp hb
  have h1 := magUnits_mono ha hb
  have h2 := magUnits_mono hb ha
  have h3 := magUnits_eq_zero (fMag a)
  have h4 := magUnits_eq_zero (fMag b)
  unfold fOrd fInt fUnits
  cases fSign a <;> cases fSign b <;> simp <;> omega

theorem fLe_iff {a b : S} (ha : fFinite a = true) (hb : fFinite b = true) : fLe a b = true ↔ fInt a ≤ fInt b := by
  rw [← fOrd_le_iff ha hb]
  simp [fLe, fIsNaN_of_finite ha, fIsNaN_of_finite hb]

theorem fLt_iff {a b : S} (ha : fFinite a = true) (hb : fFinite b = true) : fLt a b = true ↔ fInt a < fInt b := by
  have := fOrd_le_iff hb ha
  simp only [fLt, fIsNaN_of_finite ha, fIsNaN_of_finite hb, Bool.not_false, Bool.true_and, decide_eq_true_eq]
  omega

theorem fEq_iff {a b : S} (ha : fFinite a = true) (hb : fFinite b = true) : fEq a b = true ↔ fInt a = fInt b := by
  have h1 := fOrd_le_iff ha hb
  have h2 := fOrd_le_iff hb ha
  simp only [fEq, fIsNaN_of_finite ha, fIsNaN_of_finite hb, Bool.not_false, Bool.true_and, decide_eq_true_eq]
  omega

theorem fGt_iff {a b : S} (ha : fFinite a = true) (hb : fFinite b = true) : fGt a b = true ↔ fInt b < fInt a :=
  fLt_iff hb ha

theorem fGe_iff {a b : S} (ha : fFinite a = true) (hb : fFinite b = true) : fGe a b = true ↔ fInt b ≤ fInt a :=
  fLe_iff hb ha

/-- A clamped finite value is finite and in the range (R14). -/
theorem clamp_spec {x lo hi : S} (hx : fFinite x = true) (hl : fFinite lo = true) (hh : fFinite hi = true)
    (hlh : fInt lo ≤ fInt hi) :
    fFinite (clamp x lo hi) = true ∧ fInt lo ≤ fInt (clamp x lo hi) ∧ fInt (clamp x lo hi) ≤ fInt hi := by
  unfold clamp
  have h1 := fLt_iff hx hl
  have h2 := fGt_iff hx hh
  split
  · exact ⟨hl, by omega, hlh⟩
  · split
    · exact ⟨hh, hlh, by omega⟩
    · exact ⟨hx, by simp_all, by simp_all⟩

/-! ### The operations on finite operands -/

theorem fAdd_finite {a b : S} (ha : fFinite a = true) (hb : fFinite b = true) : fAdd a b = addFinite a b := by
  simp [fAdd, fIsNaN_of_finite ha, fIsNaN_of_finite hb, fIsInf_of_finite ha, fIsInf_of_finite hb]

theorem fSub_finite {a b : S} (ha : fFinite a = true) (hb : fFinite b = true) : fSub a b = addFinite a (fNeg b) := by
  simp [fSub, fIsNaN_of_finite ha, fIsNaN_of_finite hb, fIsInf_of_finite ha, fIsInf_of_finite hb]

theorem fMul_finite {a b : S} (ha : fFinite a = true) (hb : fFinite b = true) :
    fMul a b = fPack (fSign a != fSign b) (roundMag (fUnits a * fUnits b) (2 ^ 149)) := by
  simp [fMul, fIsNaN_of_finite ha, fIsNaN_of_finite hb, fIsInf_of_finite ha, fIsInf_of_finite hb]

theorem fDiv_finite {a b : S} (ha : fFinite a = true) (hb : fFinite b = true) (hz : fIsZero b = false) :
    fDiv a b = fPack (fSign a != fSign b) (roundMag (fUnits a * 2 ^ 149) (fUnits b)) := by
  simp [fDiv, fIsNaN_of_finite ha, fIsNaN_of_finite hb, fIsInf_of_finite ha, fIsInf_of_finite hb, hz]

/-- The sum of finite values: a magnitude and a sign. -/
theorem addFinite_eq (a b : S) :
    addFinite a b = fPack (if fInt a + fInt b = 0 then fSign a && fSign b else decide (fInt a + fInt b < 0))
      (roundMag (fInt a + fInt b).natAbs 1) := by
  unfold addFinite
  simp only
  split
  · rename_i h; rw [h]; simp
  · rfl

theorem addFinite_notNaN (a b : S) : fIsNaN (addFinite a b) = false := by
  rw [addFinite_eq]; exact fIsNaN_fPack _ _ (roundMag_le_inf _ _)

/-- A sum of finite values that is a binary32 value is exact. -/
theorem addFinite_exact {a b c : S} (hc : fFinite c = true) (hz : fIsZero c = false) (h : fInt a + fInt b = fInt c) :
    addFinite a b = c := by
  have hc' := (fFinite_iff c).mp hc
  have hne : fInt c ≠ 0 := by intro h0; rw [fInt_eq_zero] at h0; simp [h0] at hz
  rw [addFinite_eq, h, if_neg hne, natAbs_fInt]
  rw [roundMag_eq (by decide) hc' (by rw [Nat.mul_one]; rfl)]
  rw [← fPack_self c]
  congr 1
  · unfold fInt at hne ⊢
    rw [fPack_self]
    cases hs : fSign c
    · simp
    · simp [hs] at hne ⊢; omega
  · rw [fPack_self]

theorem fInt_f0 : fInt f0 = 0 := rfl

/-- `x + 0 = x` for a finite value that is not a zero. -/
theorem addFinite_zero {x z : S} (hx : fFinite x = true) (hnz : fIsZero x = false) (hz : fIsZero z = true) :
    addFinite x z = x :=
  addFinite_exact hx hnz (by rw [(fInt_eq_zero z).mpr hz]; omega)

/-- `x * 1 = x` for a finite value. -/
theorem fMul_one {x : S} (hx : fFinite x = true) : fMul x f1 = x := by
  have hx' := (fFinite_iff x).mp hx
  rw [fMul_finite hx (by decide)]
  rw [roundMag_eq (mag := fMag x) (by decide) hx']
  · rw [show fSign f1 = false from rfl, Bool.bne_false, fPack_self]
  · rw [show fUnits f1 = 2 ^ 149 by decide]; rfl

/-- A product with a finite zero factor is a zero. -/
theorem fMul_zero {a b : S} (ha : fFinite a = true) (hb : fFinite b = true) (h : fIsZero a = true ∨ fIsZero b = true) :
    fIsZero (fMul a b) = true := by
  rw [fMul_finite ha hb]
  have h0 : fUnits a * fUnits b = 0 := by
    rcases h with h | h
    · rw [(fUnits_eq_zero a).mpr h, Nat.zero_mul]
    · rw [(fUnits_eq_zero b).mpr h, Nat.mul_zero]
  rw [h0, roundMag_zero _ (Nat.two_pow_pos 149)]
  unfold fIsZero
  rw [fMag_fPack _ _ (by decide)]; rfl

/-- The sum of two zeros is a zero, and `+0` unless both are `-0`. -/
theorem fAdd_zeros {a b : S} (ha : fIsZero a = true) (hb : fIsZero b = true) :
    fIsZero (fAdd a b) = true ∧ (a = f0 ∨ b = f0 → fAdd a b = f0) := by
  rcases (fIsZero_iff a).mp ha with rfl | rfl <;> rcases (fIsZero_iff b).mp hb with rfl | rfl <;> decide

/-- The difference of two zeros is a zero. -/
theorem fSub_zeros {a b : S} (ha : fIsZero a = true) (hb : fIsZero b = true) : fIsZero (fSub a b) = true := by
  rcases (fIsZero_iff a).mp ha with rfl | rfl <;> rcases (fIsZero_iff b).mp hb with rfl | rfl <;> decide

/-! ### Bounds on results -/

/-- `|a + b| <= c` gives a finite result of magnitude at most `c`. -/
theorem addFinite_bound {a b : S} {mag : Nat} (hm : mag < infMag) (h : (fInt a + fInt b).natAbs ≤ magUnits mag) :
    fFinite (addFinite a b) = true ∧ fMag (addFinite a b) ≤ mag := by
  have hr := roundMag_le (n := (fInt a + fInt b).natAbs) (d := 1) (by decide) hm (by omega)
  have hl := infMag_lt
  rw [addFinite_eq]
  refine ⟨fFinite_fPack _ _ (by omega), ?_⟩
  rw [fMag_fPack _ _ (by omega)]
  exact hr

/-- `|a| * |b| <= c` gives a finite product of magnitude at most `c`. -/
theorem fMul_bound {a b : S} {mag : Nat} (ha : fFinite a = true) (hb : fFinite b = true) (hm : mag < infMag)
    (h : fUnits a * fUnits b ≤ magUnits mag * 2 ^ 149) :
    fFinite (fMul a b) = true ∧ fMag (fMul a b) ≤ mag := by
  have hr := roundMag_le (n := fUnits a * fUnits b) (Nat.two_pow_pos 149) hm h
  have hl := infMag_lt
  rw [fMul_finite ha hb]
  refine ⟨fFinite_fPack _ _ (by omega), ?_⟩
  rw [fMag_fPack _ _ (by omega)]
  exact hr

/-- `|a| / |b| <= c` gives a finite quotient of magnitude at most `c`. -/
theorem fDiv_bound {a b : S} {mag : Nat} (ha : fFinite a = true) (hb : fFinite b = true) (hz : fIsZero b = false)
    (hm : mag < infMag) (h : fUnits a * 2 ^ 149 ≤ magUnits mag * fUnits b) :
    fFinite (fDiv a b) = true ∧ fMag (fDiv a b) ≤ mag := by
  have hb0 : 0 < fUnits b := by
    rcases Nat.eq_zero_or_pos (fUnits b) with h0 | h0
    · rw [fUnits_eq_zero] at h0; simp [h0] at hz
    · exact h0
  have hr := roundMag_le (n := fUnits a * 2 ^ 149) hb0 hm h
  have hl := infMag_lt
  rw [fDiv_finite ha hb hz]
  refine ⟨fFinite_fPack _ _ (by omega), ?_⟩
  rw [fMag_fPack _ _ (by omega)]
  exact hr

/-! ### `floor` -/

/-- The value of `floor(x)` as an integer of units, for an `x` whose floor is a binary32 value `y`. -/
theorem fFloor_eq {x y : S} (hx : fFinite x = true) (hy : fFinite y = true) (hxz : fIsZero x = false)
    (hyz : y ≠ fNeg f0) (h : fInt y = floorInt x * 2 ^ 149) : fFloor x = y := by
  have hy' := (fFinite_iff y).mp hy
  unfold fFloor fOfInt
  rw [hxz, hx]
  simp only [Bool.not_true, Bool.or_self, Bool.false_eq_true, if_false]
  have hn : (floorInt x).natAbs * 2 ^ 149 = fUnits y := by
    rw [← natAbs_fInt, h, Int.natAbs_mul]; rfl
  rw [hn, roundMag_eq (mag := fMag y) (by decide) hy' (by rw [Nat.mul_one]; rfl)]
  apply eq_of_sign_mag
  · rw [fSign_fPack _ _ (fMag_lt y)]
    cases hs : fSign y
    · have : (0 : Int) ≤ fInt y := by unfold fInt; simp [hs]
      simp only [decide_eq_false_iff_not, not_lt]
      by_contra hneg
      have : floorInt x * 2 ^ 149 < 0 := by
        have h2 : floorInt x ≤ -1 := by omega
        have : floorInt x * 2 ^ 149 ≤ -1 * 2 ^ 149 := Int.mul_le_mul_of_nonneg_right h2 (by decide)
        omega
      omega
    · have hy0 : fInt y ≠ 0 := by
        intro h0
        rcases (fIsZero_iff y).mp ((fInt_eq_zero y).mp h0) with rfl | rfl
        · exact absurd hs (by decide)
        · exact hyz rfl
      have h1 : fInt y < 0 := by
        have : fInt y ≤ 0 := by unfold fInt; simp [hs]
        omega
      simp only [decide_eq_true_eq]
      by_contra hneg
      have h2 : (0 : Int) ≤ floorInt x := by omega
      have : (0 : Int) ≤ floorInt x * 2 ^ 149 := Int.mul_nonneg h2 (by decide)
      omega
  · rw [fMag_fPack _ _ (fMag_lt y)]

end Sys2Proof.Machine
end

