-- ==== Sys2Proof/Laws/State.lean ====
section
/-!
SUPPORT. One lemma per field per update of the state and its units, each true by unfolding, so that later proofs rewrite
with these and unfold no record update.
-/

namespace Sys2Proof.Machine

/-! ### `respond` -/

@[simp] theorem respond_params (s : State) (a b : BitVec 32) : (s.respond a b).params = s.params := rfl
@[simp] theorem respond_voices (s : State) (a b : BitVec 32) : (s.respond a b).voices = s.voices := rfl
@[simp] theorem respond_op (s : State) (a b : BitVec 32) : (s.respond a b).op = s.op := rfl
@[simp] theorem respond_status (s : State) (a b : BitVec 32) : (s.respond a b).status = s.status := rfl
@[simp] theorem respond_pending (s : State) (a b : BitVec 32) : (s.respond a b).pending = s.pending := rfl
@[simp] theorem respond_responses (s : State) (a b : BitVec 32) :
    (s.respond a b).responses = ⟨0, a, b⟩ :: s.responses := rfl
@[simp] theorem respond_host (s : State) (a b : BitVec 32) : (s.respond a b).host = s.host := rfl

/-! ### `raiseIllegal` -/

@[simp] theorem raiseIllegal_params (s : State) : s.raiseIllegal.params = s.params := rfl
@[simp] theorem raiseIllegal_voices (s : State) : s.raiseIllegal.voices = s.voices := rfl
@[simp] theorem raiseIllegal_op (s : State) : s.raiseIllegal.op = s.op := rfl
@[simp] theorem raiseIllegal_status (s : State) : s.raiseIllegal.status = setIll s.status := rfl
@[simp] theorem raiseIllegal_pending (s : State) : s.raiseIllegal.pending = s.pending := rfl
@[simp] theorem raiseIllegal_responses (s : State) : s.raiseIllegal.responses = ⟨1, 0, 0⟩ :: s.responses := rfl
@[simp] theorem raiseIllegal_host (s : State) : s.raiseIllegal.host = s.host := rfl

/-! ### `setVoice` -/

@[simp] theorem setVoice_params (s : State) (v : BitVec 8) (u : Voice) : (s.setVoice v u).params = s.params := rfl
@[simp] theorem setVoice_voices (s : State) (v : BitVec 8) (u : Voice) :
    (s.setVoice v u).voices = s.voices.set v.toNat u := rfl
@[simp] theorem setVoice_op (s : State) (v : BitVec 8) (u : Voice) : (s.setVoice v u).op = s.op := rfl
@[simp] theorem setVoice_status (s : State) (v : BitVec 8) (u : Voice) : (s.setVoice v u).status = s.status := rfl
@[simp] theorem setVoice_pending (s : State) (v : BitVec 8) (u : Voice) : (s.setVoice v u).pending = s.pending := rfl
@[simp] theorem setVoice_responses (s : State) (v : BitVec 8) (u : Voice) :
    (s.setVoice v u).responses = s.responses := rfl
@[simp] theorem setVoice_host (s : State) (v : BitVec 8) (u : Voice) : (s.setVoice v u).host = s.host := rfl

/-! ### `issue` and `callback`: the host's ways to present commands -/

@[simp] theorem issue_params (s : State) (is : List Instr) : (s.issue is).params = s.params := rfl
@[simp] theorem issue_voices (s : State) (is : List Instr) : (s.issue is).voices = s.voices := rfl
@[simp] theorem issue_op (s : State) (is : List Instr) : (s.issue is).op = s.op := rfl
@[simp] theorem issue_status (s : State) (is : List Instr) : (s.issue is).status = s.status := rfl
@[simp] theorem issue_pending (s : State) (is : List Instr) : (s.issue is).pending = s.pending ++ is.map encode := rfl
@[simp] theorem issue_responses (s : State) (is : List Instr) : (s.issue is).responses = s.responses := rfl
@[simp] theorem issue_host (s : State) (is : List Instr) : (s.issue is).host = s.host := rfl

@[simp] theorem callback_params (s : State) (c : HostCall) : (s.callback c).params = s.params := rfl
@[simp] theorem callback_voices (s : State) (c : HostCall) : (s.callback c).voices = s.voices := rfl
@[simp] theorem callback_op (s : State) (c : HostCall) : (s.callback c).op = s.op := rfl
@[simp] theorem callback_status (s : State) (c : HostCall) : (s.callback c).status = s.status := rfl
@[simp] theorem callback_responses (s : State) (c : HostCall) : (s.callback c).responses = s.responses := rfl
@[simp] theorem callback_calls (s : State) (c : HostCall) : (s.callback c).host.calls = c :: s.host.calls := rfl
@[simp] theorem callback_alloc (s : State) (c : HostCall) : (s.callback c).host.alloc = s.host.alloc := rfl
@[simp] theorem callback_decoder (s : State) (c : HostCall) : (s.callback c).host.decoder = s.host.decoder := rfl
@[simp] theorem callback_task (s : State) (c : HostCall) : (s.callback c).host.task = .inCallback false := rfl
@[simp] theorem callback_events (s : State) (c : HostCall) : (s.callback c).host.events = s.host.events := rfl
@[simp] theorem callback_seen (s : State) (c : HostCall) : (s.callback c).host.seen = s.host.seen := rfl
@[simp] theorem callback_pending (s : State) (c : HostCall) : (s.callback c).pending = s.pending := rfl

/-! ### `finishAllocation` -/

section finishAllocation
variable (s : State) (a : Allocator) (k : Nat) (act : NoteAction) (steal : List Instr)

@[simp] theorem finishAllocation_params : (s.finishAllocation a k act steal).params = s.params := rfl
@[simp] theorem finishAllocation_voices : (s.finishAllocation a k act steal).voices = s.voices := rfl
@[simp] theorem finishAllocation_op : (s.finishAllocation a k act steal).op = s.op := rfl
@[simp] theorem finishAllocation_status : (s.finishAllocation a k act steal).status = s.status := rfl
@[simp] theorem finishAllocation_pending :
    (s.finishAllocation a k act steal).pending = s.pending ++ (steal ++ act.commands k).map encode := rfl
@[simp] theorem finishAllocation_responses : (s.finishAllocation a k act steal).responses = s.responses := rfl
@[simp] theorem finishAllocation_alloc : (s.finishAllocation a k act steal).host.alloc = a := rfl
@[simp] theorem finishAllocation_task : (s.finishAllocation a k act steal).host.task = act.taskAfter := rfl
@[simp] theorem finishAllocation_seen :
    (s.finishAllocation a k act steal).host.seen = act.told k ++ s.host.seen := rfl
@[simp] theorem finishAllocation_calls : (s.finishAllocation a k act steal).host.calls = s.host.calls := rfl
@[simp] theorem finishAllocation_events : (s.finishAllocation a k act steal).host.events = s.host.events := rfl
@[simp] theorem finishAllocation_decoder : (s.finishAllocation a k act steal).host.decoder = s.host.decoder := rfl

end finishAllocation

/-! ### `NoteAction` -/

@[simp] theorem commands_trigger (f vol : S) (k : Nat) :
    (NoteAction.trigger f vol).commands k = [.vTrig (voiceNumber k) f vol] := rfl
@[simp] theorem commands_release (k : Nat) : NoteAction.release.commands k = [.vRls (voiceNumber k)] := rfl
@[simp] theorem commands_handOver (k : Nat) : NoteAction.handOver.commands k = [] := rfl
@[simp] theorem told_trigger (f vol : S) (k : Nat) : (NoteAction.trigger f vol).told k = [] := rfl
@[simp] theorem told_release (k : Nat) : NoteAction.release.told k = [] := rfl
@[simp] theorem told_handOver (k : Nat) : NoteAction.handOver.told k = [.slot k] := rfl
@[simp] theorem taskAfter_trigger (f vol : S) : (NoteAction.trigger f vol).taskAfter = .ready := rfl
@[simp] theorem taskAfter_release : NoteAction.release.taskAfter = .ready := rfl
@[simp] theorem taskAfter_handOver : NoteAction.handOver.taskAfter = .inCallback false := rfl

/-! ### `hearResponse` -/

section hearResponse
variable (s : State) (due : Bool)

@[simp] theorem hearResponse_params : (s.hearResponse due).params = s.params := by cases due <;> rfl
@[simp] theorem hearResponse_voices : (s.hearResponse due).voices = s.voices := by cases due <;> rfl
@[simp] theorem hearResponse_op : (s.hearResponse due).op = s.op := by cases due <;> rfl
@[simp] theorem hearResponse_status : (s.hearResponse due).status = s.status := by cases due <;> rfl
@[simp] theorem hearResponse_pending : (s.hearResponse due).pending = s.pending := by cases due <;> rfl
@[simp] theorem hearResponse_responses : (s.hearResponse due).responses = s.responses := by cases due <;> rfl
@[simp] theorem hearResponse_alloc : (s.hearResponse due).host.alloc = s.host.alloc := by cases due <;> rfl
@[simp] theorem hearResponse_decoder : (s.hearResponse due).host.decoder = s.host.decoder := by cases due <;> rfl
@[simp] theorem hearResponse_task : (s.hearResponse due).host.task = s.host.task := by cases due <;> rfl
@[simp] theorem hearResponse_events : (s.hearResponse due).host.events = s.host.events := by cases due <;> rfl
@[simp] theorem hearResponse_calls : (s.hearResponse due).host.calls = s.host.calls := by cases due <;> rfl

end hearResponse

/-! ### Envelope selection -/

@[simp] theorem env_setEnv_same (u : Voice) (e : EnvSel) (x : Envelope) : (u.setEnv e x).env e = x := by cases e <;> rfl
theorem env_setEnv_other (u : Voice) (e e' : EnvSel) (x : Envelope) (h : e' ≠ e) : (u.setEnv e x).env e' = u.env e' := by
  cases e <;> cases e' <;> first | rfl | exact absurd rfl h
@[simp] theorem setEnv_osc (u : Voice) (e : EnvSel) (x : Envelope) : (u.setEnv e x).osc = u.osc := by cases e <;> rfl
@[simp] theorem setEnv_flt (u : Voice) (e : EnvSel) (x : Envelope) : (u.setEnv e x).flt = u.flt := by cases e <;> rfl
@[simp] theorem setEnv_baseFreq (u : Voice) (e : EnvSel) (x : Envelope) : (u.setEnv e x).baseFreq = u.baseFreq := by
  cases e <;> rfl
@[simp] theorem setEnv_volume (u : Voice) (e : EnvSel) (x : Envelope) : (u.setEnv e x).volume = u.volume := by
  cases e <;> rfl
@[simp] theorem setEnv_bend (u : Voice) (e : EnvSel) (x : Envelope) : (u.setEnv e x).bend = u.bend := by cases e <;> rfl
@[simp] theorem setEnv_bendRange (u : Voice) (e : EnvSel) (x : Envelope) : (u.setEnv e x).bendRange = u.bendRange := by
  cases e <;> rfl
@[simp] theorem setEnv_baseCutoff (u : Voice) (e : EnvSel) (x : Envelope) :
    (u.setEnv e x).baseCutoff = u.baseCutoff := by cases e <;> rfl
@[simp] theorem setEnv_fegDepth (u : Voice) (e : EnvSel) (x : Envelope) : (u.setEnv e x).fegDepth = u.fegDepth := by
  cases e <;> rfl

/-! ### Filter setters -/

@[simp] theorem markDirty_mode (f : Biquad) : f.markDirty.mode = f.mode := rfl
@[simp] theorem markDirty_cutoff (f : Biquad) : f.markDirty.cutoff = f.cutoff := rfl
@[simp] theorem markDirty_q (f : Biquad) : f.markDirty.q = f.q := rfl
@[simp] theorem markDirty_dirty (f : Biquad) : f.markDirty.dirty = true := rfl
@[simp] theorem markDirty_coeffs (f : Biquad) : f.markDirty.coeffs = f.coeffs := rfl
@[simp] theorem markDirty_z1 (f : Biquad) : f.markDirty.z1 = f.z1 := rfl
@[simp] theorem markDirty_z2 (f : Biquad) : f.markDirty.z2 = f.z2 := rfl

@[simp] theorem fltRecompute_mode (num : NumFns) (sr : Nat) (f : Biquad) : (fltRecompute num sr f).mode = f.mode := rfl
@[simp] theorem fltRecompute_cutoff (num : NumFns) (sr : Nat) (f : Biquad) :
    (fltRecompute num sr f).cutoff = f.cutoff := rfl
@[simp] theorem fltRecompute_q (num : NumFns) (sr : Nat) (f : Biquad) : (fltRecompute num sr f).q = f.q := rfl
@[simp] theorem fltRecompute_dirty (num : NumFns) (sr : Nat) (f : Biquad) : (fltRecompute num sr f).dirty = false := rfl
@[simp] theorem fltRecompute_coeffs (num : NumFns) (sr : Nat) (f : Biquad) :
    (fltRecompute num sr f).coeffs = Machine.coeffs num sr f.mode f.cutoff f.q := rfl
@[simp] theorem fltRecompute_z1 (num : NumFns) (sr : Nat) (f : Biquad) : (fltRecompute num sr f).z1 = f.z1 := rfl
@[simp] theorem fltRecompute_z2 (num : NumFns) (sr : Nat) (f : Biquad) : (fltRecompute num sr f).z2 = f.z2 := rfl

@[simp] theorem fltRun_mode (f : Biquad) (x : S) : (fltRun f x).1.mode = f.mode := rfl
@[simp] theorem fltRun_cutoff (f : Biquad) (x : S) : (fltRun f x).1.cutoff = f.cutoff := rfl
@[simp] theorem fltRun_q (f : Biquad) (x : S) : (fltRun f x).1.q = f.q := rfl
@[simp] theorem fltRun_dirty (f : Biquad) (x : S) : (fltRun f x).1.dirty = f.dirty := rfl
@[simp] theorem fltRun_coeffs (f : Biquad) (x : S) : (fltRun f x).1.coeffs = f.coeffs := rfl

/-! ### Oscillator -/

@[simp] theorem oscNext_wt (sr : Nat) (o : Oscillator) (f : S) : (oscNext sr o f).1.wt = o.wt := rfl
@[simp] theorem oscReset_wt (o : Oscillator) : (oscReset o).wt = o.wt := rfl
@[simp] theorem oscReset_phase (o : Oscillator) : (oscReset o).phase = f0 := rfl

end Sys2Proof.Machine
end

