-- ==== Sys2Proof/Laws/Ops.lean ====
section
/-!
SUPPORT. What the shared operations can do, once each: commands on a voice unit or an envelope, the exception, and the host's
moves, which write nothing of the block.
-/

namespace Sys2Proof.Machine

/-! ### Illegal -/

theorem illFlag_setIll (w : BitVec 32) : illFlag (setIll w) = true := by simp [illFlag, setIll]

theorem getLsbD_setIll (w : BitVec 32) (k : Nat) (hk : 1 ≤ k) : (setIll w).getLsbD k = w.getLsbD k := by
  unfold setIll
  rw [BitVec.getLsbD_or]
  have : (1#32).getLsbD k = false := by
    rw [BitVec.getLsbD_one]
    simp; omega
  rw [this, Bool.or_false]

/-! ### The `u` field -/

theorem EnvSel.ofCode?_eq_none (e : BitVec 8) : EnvSel.ofCode? e = none ↔ ¬ e.toNat ≤ 1 := by
  unfold EnvSel.ofCode?
  constructor
  · intro h; split at h <;> simp_all; omega
  · intro h; split <;> simp_all

theorem FilterMode.ofCode?_eq_none (m : BitVec 8) : FilterMode.ofCode? m = none ↔ ¬ m.toNat ≤ 4 := by
  unfold FilterMode.ofCode?
  constructor
  · intro h; split at h <;> simp_all; omega
  · intro h; split <;> simp_all

theorem Algo.ofCode?_eq_none (a : BitVec 8) : Algo.ofCode? a = none ↔ ¬ a.toNat ≤ 2 := by
  unfold Algo.ofCode?
  constructor
  · intro h; split at h <;> simp_all; omega
  · intro h; split <;> simp_all

/-! ### Commands on one voice unit -/

theorem State.voice?_eq_none (s : State) (v : BitVec 8) : s.voice? v = none ↔ s.nVoices ≤ v.toNat := by
  simp [State.voice?, State.nVoices]

/-- Everything a command on a voice unit can do. -/
theorem State.onVoice_cases {s t : State} {v : BitVec 8} {legal : Bool} {f : Voice → Voice × BitVec 32 × BitVec 32}
    (h : s.onVoice v legal f = .next t) :
    (t = s.raiseIllegal ∧ (s.voice? v = none ∨ legal = false)) ∨
    ∃ u, s.voice? v = some u ∧ legal = true ∧ t = (s.setVoice v (f u).1).respond (f u).2.1 (f u).2.2 := by
  unfold State.onVoice at h
  split at h
  · injection h with h; exact .inl ⟨h.symm, .inl ‹_›⟩
  · split at h
    · injection h with h; exact .inr ⟨_, ‹_›, ‹_›, h.symm⟩
    · injection h with h; exact .inl ⟨h.symm, .inr (by simp_all)⟩

/-- A legal command on an existing voice unit. -/
theorem State.onVoice_legal {s : State} {v : BitVec 8} {u : Voice} (hu : s.voice? v = some u)
    (f : Voice → Voice × BitVec 32 × BitVec 32) :
    s.onVoice v true f = .next ((s.setVoice v (f u).1).respond (f u).2.1 (f u).2.2) := by
  simp [State.onVoice, hu]

/-- An illegal command on a voice unit. -/
theorem State.onVoice_illegal {s : State} {v : BitVec 8} {legal : Bool} (h : s.voice? v = none ∨ legal = false)
    (f : Voice → Voice × BitVec 32 × BitVec 32) : s.onVoice v legal f = .next s.raiseIllegal := by
  unfold State.onVoice
  split
  · rfl
  · rcases h with h | h <;> simp_all

/-- A legal command on an existing envelope. -/
theorem State.onEnv_legal {s : State} {v e : BitVec 8} {sel : EnvSel} {u : Voice} (he : EnvSel.ofCode? e = some sel)
    (hu : s.voice? v = some u) (f : Envelope → Envelope × BitVec 32 × BitVec 32) :
    s.onEnv v e true f =
      .next ((s.setVoice v (u.setEnv sel (f (u.env sel)).1)).respond (f (u.env sel)).2.1 (f (u.env sel)).2.2) := by
  simp [State.onEnv, he, State.onVoice_legal hu]

/-- An illegal command on an envelope. -/
theorem State.onEnv_illegal {s : State} {v e : BitVec 8} {legal : Bool}
    (h : EnvSel.ofCode? e = none ∨ s.voice? v = none ∨ legal = false)
    (f : Envelope → Envelope × BitVec 32 × BitVec 32) : s.onEnv v e legal f = .next s.raiseIllegal := by
  unfold State.onEnv
  split
  · rfl
  · rcases h with h | h
    · simp_all
    · exact State.onVoice_illegal h _

/-- Everything a command on an envelope can do. -/
theorem State.onEnv_cases {s t : State} {v e : BitVec 8} {legal : Bool}
    {f : Envelope → Envelope × BitVec 32 × BitVec 32} (h : s.onEnv v e legal f = .next t) :
    (t = s.raiseIllegal ∧ (EnvSel.ofCode? e = none ∨ s.voice? v = none ∨ legal = false)) ∨
    ∃ sel u, EnvSel.ofCode? e = some sel ∧ s.voice? v = some u ∧ legal = true ∧
      t = (s.setVoice v (u.setEnv sel (f (u.env sel)).1)).respond (f (u.env sel)).2.1 (f (u.env sel)).2.2 := by
  unfold State.onEnv at h
  split at h
  · injection h with h; exact .inl ⟨h.symm, .inl ‹_›⟩
  · rcases State.onVoice_cases h with ⟨h1, h2⟩ | ⟨u, h1, h2, h3⟩
    · exact .inl ⟨h1, .inr h2⟩
    · exact .inr ⟨_, u, ‹_›, h1, h2, h3⟩

/-- Writing one voice unit and responding changes that unit and the responses only. -/
theorem sameBut_setVoice_respond (s : State) (v : BitVec 8) (u : Voice) (r0 r1 : BitVec 32) :
    SameBut v s ((s.setVoice v u).respond r0 r1) where
  outside := ⟨rfl, rfl, rfl⟩
  op := rfl
  status := rfl
  count := by simp [State.setVoice, State.respond]
  others := by
    intro w hw
    simp only [State.setVoice, State.respond]
    rw [List.getElem?_set_ne (by omega)]

/-- A command whose meaning is a legal command on voice unit `v` completes with that unit as the meaning says. -/
theorem completesWith_of_onVoice {i : Instr} {s : State} {v : BitVec 8} {u : Voice}
    {f : Voice → Voice × BitVec 32 × BitVec 32} (hi : exec i s = s.onVoice v true f) (hu : s.voice? v = some u) :
    CompletesWith i s v (f u).1 (f u).2.1 (f u).2.2 := by
  refine ⟨_, hi.trans (State.onVoice_legal hu f), sameBut_setVoice_respond _ _ _ _ _, ?_, rfl⟩
  have hlt : v.toNat < s.voices.length := by
    have := (State.voice?_eq_none s v).not.mp (by simp [hu])
    simp only [State.nVoices] at this; omega
  simp [State.setVoice, State.respond, hlt]

/-- The same for a command on an envelope. -/
theorem completesWith_of_onEnv {i : Instr} {s : State} {v e : BitVec 8} {sel : EnvSel} {u : Voice}
    {f : Envelope → Envelope × BitVec 32 × BitVec 32} (hi : exec i s = s.onEnv v e true f)
    (he : EnvSel.ofCode? e = some sel) (hu : s.voice? v = some u) :
    CompletesWith i s v (u.setEnv sel (f (u.env sel)).1) (f (u.env sel)).2.1 (f (u.env sel)).2.2 := by
  refine completesWith_of_onVoice (f := fun u => (u.setEnv sel (f (u.env sel)).1, (f (u.env sel)).2)) ?_ hu
  rw [hi]; simp [State.onEnv, he]

/-! ### The host writes nothing of the block -/

/-- `t` has the block, the parameters and the responses of `s`. -/
structure HostOnly (s t : State) : Prop where
  params : t.params = s.params
  voices : t.voices = s.voices
  op : t.op = s.op
  status : t.status = s.status
  responses : t.responses = s.responses

theorem HostOnly.refl (s : State) : HostOnly s s := ⟨rfl, rfl, rfl, rfl, rfl⟩

theorem HostOnly.trans {r s t : State} (h1 : HostOnly r s) (h2 : HostOnly s t) : HostOnly r t :=
  ⟨h2.params.trans h1.params, h2.voices.trans h1.voices, h2.op.trans h1.op, h2.status.trans h1.status,
    h2.responses.trans h1.responses⟩

theorem State.issue_hostOnly (s : State) (is : List Instr) : HostOnly s (s.issue is) := ⟨rfl, rfl, rfl, rfl, rfl⟩

theorem State.finishAllocation_hostOnly (s : State) (a : Allocator) (k : Nat) (act : NoteAction) (steal : List Instr) :
    HostOnly s (s.finishAllocation a k act steal) := ⟨rfl, rfl, rfl, rfl, rfl⟩

theorem State.callback_hostOnly (s : State) (c : HostCall) : HostOnly s (s.callback c) := ⟨rfl, rfl, rfl, rfl, rfl⟩

theorem State.allocateNote_hostOnly (s : State) (note : Byte) (act : NoteAction) :
    HostOnly s (s.allocateNote note act) := by
  unfold State.allocateNote
  split
  · exact s.finishAllocation_hostOnly _ _ _ _
  · split
    · exact s.finishAllocation_hostOnly _ _ _ _
    · exact ⟨rfl, rfl, rfl, rfl, rfl⟩

theorem State.scanSlot_hostOnly (s : State) (note : Byte) (k : Nat) (act : NoteAction) :
    HostOnly s (s.scanSlot note k act) := by
  unfold State.scanSlot
  simp only
  split
  · exact s.finishAllocation_hostOnly _ _ _ _
  · split
    · exact ⟨rfl, rfl, rfl, rfl, rfl⟩
    · exact s.finishAllocation_hostOnly _ _ _ _

theorem State.dispatch_hostOnly (s : State) (m : MidiMessage) : HostOnly s (s.dispatch m) := by
  unfold State.dispatch
  split
  · split <;> exact s.allocateNote_hostOnly _ _
  · exact s.allocateNote_hostOnly _ _
  · split
    · exact s.callback_hostOnly _
    · exact HostOnly.refl s
  · exact HostOnly.refl s
  · split
    · exact s.callback_hostOnly _
    · exact HostOnly.refl s
  · exact s.callback_hostOnly _
  · exact s.issue_hostOnly _

theorem State.processByte_hostOnly (s : State) (b : Byte) : HostOnly s (s.processByte b) := by
  unfold State.processByte
  simp only
  split
  · have h := State.dispatch_hostOnly
      { s with host := { s.host with decoder := (s.host.decoder.process s.params.listenChannel b).1 } } ‹_›
    exact ⟨h.params, h.voices, h.op, h.status, h.responses⟩
  · exact ⟨rfl, rfl, rfl, rfl, rfl⟩

theorem State.hearResponse_hostOnly (s : State) (due : Bool) : HostOnly s (s.hearResponse due) := by
  cases due <;> exact ⟨rfl, rfl, rfl, rfl, rfl⟩

theorem State.runCallback_hostOnly (s : State) (act : Option CallbackAction) : HostOnly s (s.runCallback act) := by
  match act with
  | none => exact ⟨rfl, rfl, rfl, rfl, rfl⟩
  | some (.command _) => exact ⟨rfl, rfl, rfl, rfl, rfl⟩
  | some (.allocate note) => exact s.allocateNote_hostOnly note .handOver

theorem State.callbackMove_hostOnly (s : State) (due : Bool) : HostOnly s (s.callbackMove due) :=
  (s.hearResponse_hostOnly due).trans ((s.hearResponse due).runCallback_hostOnly _)

/-- A callback does nothing that its newest call's argument does not permit. -/
theorem State.callbackAction_permitted {s : State} {call : HostCall} {earlier : List HostCall} {act : CallbackAction}
    (hc : s.host.calls = call :: earlier) (h : s.callbackAction = some act) : callPermits call act = true := by
  unfold State.callbackAction at h
  rw [hc] at h
  exact (Option.filter_eq_some_iff.mp h).2

/-- A move of the host that is no reset from outside writes nothing of the block; a reset writes the block only. -/
theorem State.hostMove_cases (s : State) :
    HostOnly s s.hostMove ∨
    ∃ rest, s.host.task = .ready ∧ s.host.events = .blockReset :: rest ∧
      s.hostMove = ({ s with host := { s.host with events := rest } } : State).blockReset := by
  unfold State.hostMove
  split
  · exact .inl (s.scanSlot_hostOnly _ _ _)
  · exact .inl (s.callbackMove_hostOnly _)
  · rename_i htask
    split
    · exact .inl (HostOnly.refl s)
    · rename_i ev rest hev
      cases ev with
      | midi b =>
        have h := State.processByte_hostOnly { s with host := { s.host with events := rest } } b
        exact .inl ⟨h.params, h.voices, h.op, h.status, h.responses⟩
      | frames n => exact .inl ⟨rfl, rfl, rfl, rfl, rfl⟩
      | blockReset => exact .inr ⟨rest, htask, hev, rfl⟩

end Sys2Proof.Machine
end

