-- ==== Sys2Proof/Laws/Host.lean ====
section
/-!
SUPPORT. The host agent: the two numbers of R267 as real numbers, the searches of the allocator (R291, R292), and what an
allocation and a callback move write.
-/

namespace Sys2Proof.Machine

/-! ### The numbers of R267 -/

theorem roundedFrequency_admitted (note : Byte) : isNoteFrequency note (roundedFrequency note) = true := by
  have h : ∀ n : Fin 256, isNoteFrequency (BitVec.ofFin n) (roundedFrequency (BitVec.ofFin n)) = true := by
    decide +kernel
  exact h note.toFin

theorem noteFrequency_admitted (note : Byte) : isNoteFrequency note (noteFrequency note) = true := by
  unfold noteFrequency
  simp only
  split
  · assumption
  · exact roundedFrequency_admitted note

theorem roundedVolume_admitted (velocity : Byte) (h : velocity.toNat < 128) :
    isVelocityVolume velocity (clamp (fDiv (fOfInt velocity.toNat) f127) f0 f1) = true := by
  have h' : ∀ n : Fin 128,
      isVelocityVolume (BitVec.ofNat 8 n) (clamp (fDiv (fOfInt (BitVec.ofNat 8 n).toNat) f127) f0 f1) = true := by
    decide +kernel
  simpa using h' ⟨velocity.toNat, h⟩

theorem velocityVolume_admitted (velocity : Byte) (h : velocity.toNat < 128) :
    isVelocityVolume velocity (velocityVolume velocity) = true := by
  unfold velocityVolume
  simp only
  split
  · assumption
  · exact roundedVolume_admitted velocity h

/-- A finite value without sign that is not below zero: its units. -/
theorem fInt_of_not_sign {x : S} (h : fSign x = false) : fInt x = fUnits x := by simp [fInt, h]

/-- The criterion `isNoteFrequency` says, in real numbers, what R267 computes, to within one part in 65536. -/
theorem near_of_isNoteFrequency {note : Byte} {r : S} (h : isNoteFrequency note r = true) :
    fFinite r = true ∧
    |(fInt r : ℝ) / 2 ^ 149 - 440 * (2 : ℝ) ^ (((note.toNat : ℝ) - 69) / 12)| ≤
      440 * (2 : ℝ) ^ (((note.toNat : ℝ) - 69) / 12) / 65536 := by
  simp only [isNoteFrequency, Config.hostPrecision, Bool.and_eq_true, Bool.not_eq_true'] at h
  obtain ⟨⟨⟨hfin, hsign⟩, hlo⟩, hhi⟩ := h
  have hlo := of_decide_eq_true hlo
  have hhi := of_decide_eq_true hhi
  refine ⟨hfin, ?_⟩
  rw [fInt_of_not_sign hsign]
  generalize fUnits r = u at hlo hhi ⊢
  have hlo' : ((65536 - 1 : ℕ) : ℝ) ^ 12 * (2 ^ note.toNat * (440 * 2 ^ 149) ^ 12) ≤ 2 ^ 69 * (u * 65536) ^ 12 := by
    exact_mod_cast hlo
  have hhi' : (2 : ℝ) ^ 69 * (u * 65536) ^ 12 ≤ ((65536 + 1 : ℕ) : ℝ) ^ 12 * (2 ^ note.toNat * (440 * 2 ^ 149) ^ 12) := by
    exact_mod_cast hhi
  set E : ℝ := (2 : ℝ) ^ (((note.toNat : ℝ) - 69) / 12) with hE
  have hEpos : 0 < E := by positivity
  have hE12 : (2 : ℝ) ^ 69 * E ^ 12 = 2 ^ note.toNat := by
    rw [hE, ← Real.rpow_natCast _ 12, ← Real.rpow_mul two_pos.le, ← Real.rpow_natCast 2 69,
      ← Real.rpow_natCast 2 note.toNat, ← Real.rpow_add two_pos]
    congr 1
    push_cast
    ring
  generalize hU : (2 : ℝ) ^ 149 = U at hlo' hhi' ⊢
  have hUpos : 0 < U := by rw [← hU]; positivity
  rw [← hE12] at hlo' hhi'
  have h69 : (0 : ℝ) < 2 ^ 69 := by positivity
  have low : (65535 * (E * (440 * U))) ^ 12 ≤ ((u : ℝ) * 65536) ^ 12 := by
    refine le_of_mul_le_mul_left (le_of_eq_of_le ?_ hlo') h69
    push_cast
    ring
  have high : ((u : ℝ) * 65536) ^ 12 ≤ (65537 * (E * (440 * U))) ^ 12 := by
    refine le_of_mul_le_mul_left (hhi'.trans_eq ?_) h69
    push_cast
    ring
  have low' := le_of_pow_le_pow_left₀ (by norm_num) (by positivity) low
  have high' := le_of_pow_le_pow_left₀ (by norm_num) (by positivity) high
  rw [abs_le]
  constructor
  · rw [le_sub_iff_add_le, le_div_iff₀ hUpos]; push_cast; linarith
  · rw [sub_le_iff_le_add, div_le_iff₀ hUpos]; push_cast; linarith

/-- R267: the frequency the host computes. -/
theorem noteFrequency_near (note : Byte) :
    fFinite (noteFrequency note) = true ∧
    |(fInt (noteFrequency note) : ℝ) / 2 ^ 149 - 440 * (2 : ℝ) ^ (((note.toNat : ℝ) - 69) / 12)| ≤
      440 * (2 : ℝ) ^ (((note.toNat : ℝ) - 69) / 12) / 65536 :=
  near_of_isNoteFrequency (noteFrequency_admitted note)

/-- The criterion `isVelocityVolume` says what R267 computes, to within one part in 65536, and that it is in `[0, 1]`. -/
theorem near_of_isVelocityVolume {velocity : Byte} {r : S} (h : isVelocityVolume velocity r = true) :
    inUnit r = true ∧
    |(fInt r : ℝ) / 2 ^ 149 - (velocity.toNat : ℝ) / 127| ≤ (velocity.toNat : ℝ) / 127 / 65536 := by
  simp only [isVelocityVolume, Config.hostPrecision, Bool.and_eq_true] at h
  obtain ⟨⟨⟨⟨hfin, h0⟩, h1⟩, hlo⟩, hhi⟩ := h
  have hlo := of_decide_eq_true hlo
  have hhi := of_decide_eq_true hhi
  refine ⟨by simp [between, hfin, h0, h1], ?_⟩
  have hunits : fInt r = fUnits r := by
    have hnn : 0 ≤ fInt r := by
      simpa [show fInt f0 = 0 by decide] using (fLe_iff (show fFinite f0 = true by decide) hfin).mp h0
    unfold fInt at hnn ⊢
    split at hnn
    · rw [if_pos ‹_›]; omega
    · rw [if_neg ‹_›]
  rw [hunits]
  generalize fUnits r = u at hlo hhi ⊢
  have hlo' : ((65536 - 1 : ℕ) : ℝ) * (velocity.toNat * 2 ^ 149) ≤ u * 127 * 65536 := by exact_mod_cast hlo
  have hhi' : (u : ℝ) * 127 * 65536 ≤ ((65536 + 1 : ℕ) : ℝ) * (velocity.toNat * 2 ^ 149) := by exact_mod_cast hhi
  generalize hU : (2 : ℝ) ^ 149 = U at hlo' hhi' ⊢
  have hUpos : 0 < U := by rw [← hU]; positivity
  push_cast at hlo' hhi'
  rw [abs_le]
  constructor
  · rw [le_sub_iff_add_le, le_div_iff₀ hUpos]; push_cast; linarith
  · rw [sub_le_iff_le_add, div_le_iff₀ hUpos]; push_cast; linarith

/-- R267: the volume the host computes, for a velocity that is a data byte. -/
theorem velocityVolume_near (velocity : Byte) (h : velocity.toNat < 128) :
    inUnit (velocityVolume velocity) = true ∧
    |(fInt (velocityVolume velocity) : ℝ) / 2 ^ 149 - (velocity.toNat : ℝ) / 127| ≤
      (velocity.toNat : ℝ) / 127 / 65536 :=
  near_of_isVelocityVolume (velocityVolume_admitted velocity h)

/-! ### The searches of the allocator -/

/-- The lowest index of a list that holds a value, if there is one. -/
theorem findIdx?_beq_eq_some {α : Type} [BEq α] [LawfulBEq α] (l : List α) (x : α) (k : Nat) :
    l.findIdx? (· == x) = some k ↔ l[k]? = some x ∧ ∀ j, j < k → l[j]? ≠ some x := by
  rw [List.findIdx?_eq_some_iff_getElem]
  constructor
  · rintro ⟨hk, hx, hj⟩
    refine ⟨by simp_all, fun j hjk => ?_⟩
    have := hj j hjk
    rw [List.getElem?_eq_getElem (by omega)]
    simpa using this
  · rintro ⟨hx, hj⟩
    obtain ⟨hk, hx⟩ := List.getElem?_eq_some_iff.mp hx
    refine ⟨hk, by simp [hx], fun j hjk => ?_⟩
    have := hj j hjk
    rw [List.getElem?_eq_getElem (by omega)] at this
    simpa using this

theorem findIdx?_beq_eq_none {α : Type} [BEq α] [LawfulBEq α] (l : List α) (x : α) :
    l.findIdx? (· == x) = none ↔ ∀ j : Nat, l[j]? ≠ some x := by
  rw [List.findIdx?_eq_none_iff]
  simp only [ne_eq, beq_eq_false_iff_ne]
  constructor
  · intro h j hj
    exact h x (List.mem_of_getElem? hj) rfl
  · rintro h y hy rfl
    obtain ⟨j, hj⟩ := List.mem_iff_getElem?.mp hy
    exact h j hj

/-- `findAllocated` gives the lowest slot of the note (R292). -/
theorem Allocator.findAllocated_eq_some (a : Allocator) (note : Byte) (k : Nat) :
    a.findAllocated note = some k ↔
      a.slots[k]? = some (some note) ∧ ∀ j, j < k → a.slots[j]? ≠ some (some note) :=
  findIdx?_beq_eq_some _ _ _

theorem Allocator.findAllocated_eq_none (a : Allocator) (note : Byte) :
    a.findAllocated note = none ↔ ∀ j : Nat, a.slots[j]? ≠ some (some note) :=
  findIdx?_beq_eq_none _ _

/-- Case (b) of R291: the lowest slot without a note. -/
theorem Allocator.firstFree_eq_some (a : Allocator) (k : Nat) :
    a.firstFree = some k ↔ a.slots[k]? = some none ∧ ∀ j, j < k → a.slots[j]? ≠ some none :=
  findIdx?_beq_eq_some _ _ _

theorem Allocator.firstFree_eq_none (a : Allocator) : a.firstFree = none ↔ ∀ j : Nat, a.slots[j]? ≠ some none :=
  findIdx?_beq_eq_none _ _

/-! ### What an allocation and a callback write -/

/-- `t` is a state of the same decoder, the same waiting inputs and the same calls. -/
structure AllocationOnly (s t : State) : Prop where
  decoder : t.host.decoder = s.host.decoder
  events : t.host.events = s.host.events
  calls : t.host.calls = s.host.calls

/-- The cases (a), (b) and the beginning of (c) of R291. -/
theorem State.allocateNote_cases (s : State) (note : Byte) (act : NoteAction) :
    (∃ k, s.host.alloc.findAllocated note = some k ∧ s.allocateNote note act = s.finishAllocation s.host.alloc k act []) ∨
    (∃ k, s.host.alloc.findAllocated note = none ∧ s.host.alloc.firstFree = some k ∧
      s.allocateNote note act = s.finishAllocation (s.host.alloc.assign k note) k act []) ∨
    (s.host.alloc.findAllocated note = none ∧ s.host.alloc.firstFree = none ∧
      s.allocateNote note act = ({ s with host := { s.host with task := .scanning note 0 act } } : State).issue [.vActive 0]) := by
  unfold State.allocateNote
  split
  · exact .inl ⟨_, ‹_›, rfl⟩
  · split
    · exact .inr (.inl ⟨_, ‹_›, ‹_›, rfl⟩)
    · exact .inr (.inr ⟨‹_›, ‹_›, rfl⟩)

theorem State.allocateNote_allocationOnly (s : State) (note : Byte) (act : NoteAction) :
    AllocationOnly s (s.allocateNote note act) := by
  rcases s.allocateNote_cases note act with ⟨k, -, h⟩ | ⟨k, -, -, h⟩ | ⟨-, -, h⟩ <;> rw [h] <;> exact ⟨rfl, rfl, rfl⟩

/-- Everything a move of the host in a callback can do: return, one permitted command, one permitted allocation. -/
theorem State.callbackMove_cases (s : State) (due : Bool) :
    (s.callbackMove due = { s.hearResponse due with host := { (s.hearResponse due).host with task := .ready } }) ∨
    (∃ i call earlier, s.host.calls = call :: earlier ∧ callPermits call (.command i) = true ∧
      s.callbackMove due =
        ({ s.hearResponse due with host := { (s.hearResponse due).host with task := .inCallback true } } : State).issue [i]) ∨
    (∃ note call earlier, s.host.calls = call :: earlier ∧ callPermits call (.allocate note) = true ∧
      s.callbackMove due = (s.hearResponse due).allocateNote note .handOver) := by
  have permitted : ∀ act, (s.hearResponse due).callbackAction = some act →
      ∃ call earlier, s.host.calls = call :: earlier ∧ callPermits call act = true := by
    intro act h
    cases hc : s.host.calls with
    | nil => rw [State.callbackAction, hearResponse_calls, hc] at h; cases h
    | cons call earlier =>
      exact ⟨call, earlier, rfl, State.callbackAction_permitted (by rw [hearResponse_calls, hc]) h⟩
  unfold State.callbackMove
  match h : (s.hearResponse due).callbackAction with
  | none => exact .inl rfl
  | some (.command i) =>
    obtain ⟨call, earlier, h1, h2⟩ := permitted _ h
    exact .inr (.inl ⟨i, call, earlier, h1, h2, rfl⟩)
  | some (.allocate note) =>
    obtain ⟨call, earlier, h1, h2⟩ := permitted _ h
    exact .inr (.inr ⟨note, call, earlier, h1, h2, rfl⟩)

/-! ### What keeps the invariants of the host -/

/-- Giving a slot to a note that has none keeps one slot per note (R290). -/
theorem Allocator.assign_inv {a : Allocator} {n k : Nat} {note : Byte} (ha : a.Inv n) (hn : note.toNat < 128)
    (hno : a.findAllocated note = none) : (a.assign k note).Inv n := by
  have hno' := (a.findAllocated_eq_none note).mp hno
  have get : ∀ (j : Nat) (m : Byte), (a.assign k note).slots[j]? = some (some m) →
      (j = k ∧ m = note) ∨ a.slots[j]? = some (some m) := by
    intro j m h
    simp only [Allocator.assign, List.getElem?_set] at h
    split at h
    · left; split at h <;> simp_all
    · exact .inr h
  refine ⟨by simp [Allocator.assign, ha.length], ha.stolen, ?_, ?_⟩
  · intro j l m hj hl
    rcases get j m hj with ⟨rfl, rfl⟩ | hj' <;> rcases get l m hl with ⟨rfl, h2⟩ | hl'
    · rfl
    · exact absurd hl' (hno' _)
    · exact absurd (h2 ▸ hj') (hno' _)
    · exact ha.oneSlot _ _ _ hj' hl'
  · intro j m hj
    rcases get j m hj with ⟨rfl, rfl⟩ | hj'
    · exact hn
    · exact ha.noteNumbers _ _ hj'

/-- A finished allocation leaves the host's invariant, whoever asked for it. -/
theorem State.finishAllocation_inv {s : State} {a : Allocator} {k : Nat} {act : NoteAction} {steal : List Instr}
    (ha : a.Inv s.nVoices) (hd : s.host.decoder.Inv) (hc : act = .handOver → s.host.calls ≠ []) :
    (s.finishAllocation a k act steal).HostInv where
  alloc := ha
  decoder := hd
  scanning := by intro note j act' h; cases act <;> simp at h
  running := by
    intro due h
    cases act with
    | trigger | release => simp at h
    | handOver => simpa using hc rfl

/-- `allocate(note)` of a note number keeps the host's invariant (R290, R291). -/
theorem State.allocateNote_inv {s : State} {note : Byte} {act : NoteAction} (ha : s.host.alloc.Inv s.nVoices)
    (hd : s.host.decoder.Inv) (hn : note.toNat < 128) (hc : act = .handOver → s.host.calls ≠ []) :
    (s.allocateNote note act).HostInv := by
  rcases s.allocateNote_cases note act with ⟨k, -, h⟩ | ⟨k, h1, -, h⟩ | ⟨h1, h2, h⟩ <;> rw [h]
  · exact finishAllocation_inv ha hd hc
  · exact finishAllocation_inv (Allocator.assign_inv ha hn h1) hd hc
  · refine ⟨ha, hd, ?_, fun due h' => by simp at h'⟩
    intro note' j act' h'
    simp only [issue_host, HostTask.scanning.injEq] at h'
    obtain ⟨rfl, rfl, rfl⟩ := h'
    exact ⟨Nat.zero_lt_of_lt ha.stolen, hn, h1, h2, hc⟩

end Sys2Proof.Machine
end

