-- ==== Sys2Proof/Laws/Memory.lean ====
section
/-!
SUPPORT. The wavetable memory: reading after writing, and that every operation keeps the canonical form.
-/

namespace Sys2Proof.Machine

/-! ### Reading -/

@[simp] theorem Memory.read_nil (i : Nat) : Memory.read [] i = Memory.unlisted i := rfl

/-- Below every listed index, an entry reads as unlisted. -/
theorem Memory.read_of_lt (m : Memory) (i : Nat) (h : ∀ c ∈ m, i < c.1) : Memory.read m i = Memory.unlisted i := by
  induction m with
  | nil => rfl
  | cons c m ih =>
    obtain ⟨j, y⟩ := c
    have hj : i < j := h (j, y) (by simp)
    simp [Memory.read, Nat.ne_of_lt hj, ih fun c hc => h c (by simp [hc])]

theorem Memory.read_insert (m : Memory) (i k : Nat) (x : S) :
    Memory.read (Memory.insert m i x) k = if k = i then x else Memory.read m k := by
  induction m with
  | nil => simp [Memory.insert, Memory.read]
  | cons c m ih =>
    obtain ⟨j, y⟩ := c
    simp only [Memory.insert]
    split
    · simp [Memory.read]
    · split
      · subst j; simp only [Memory.read]; split <;> simp_all
      · simp only [Memory.read, ih]; split <;> split <;> simp_all

theorem Memory.read_erase (m : Memory) (i k : Nat) (h : Memory.wf m) :
    Memory.read (Memory.erase m i) k = if k = i then Memory.unlisted i else Memory.read m k := by
  induction m with
  | nil => simp [Memory.erase]; intro h; rw [h]
  | cons c m ih =>
    obtain ⟨j, y⟩ := c
    obtain ⟨hp, hc⟩ := h
    rw [List.pairwise_cons] at hp
    have hm : Memory.wf m := ⟨hp.2, fun c h => hc c (by simp [h])⟩
    simp only [Memory.erase]
    split
    · rename_i hij
      split
      · subst k
        refine Memory.read_of_lt _ _ fun c h => ?_
        rcases List.mem_cons.mp h with rfl | h
        · exact hij
        · exact Nat.lt_trans hij (hp.1 c h)
      · rfl
    · split
      · subst j
        split
        · subst k; exact Memory.read_of_lt _ _ fun c h => hp.1 c h
        · simp_all [Memory.read]
      · simp only [Memory.read, ih hm]; split <;> split <;> simp_all

/-- A read after a write: the value written at that entry, and what was there at every other. -/
theorem Memory.read_write (m : Memory) (i k : Nat) (x : S) (h : Memory.wf m) :
    Memory.read (Memory.write m i x) k = if k = i then x else Memory.read m k := by
  unfold Memory.write
  split
  · rw [Memory.read_erase m i k h]; split <;> simp_all
  · exact Memory.read_insert m i k x

/-! ### The canonical form -/

theorem Memory.mem_erase {m : Memory} {i : Nat} {c : Nat × S} (h : c ∈ Memory.erase m i) : c ∈ m := by
  induction m with
  | nil => exact h
  | cons d m ih =>
    obtain ⟨j, y⟩ := d
    simp only [Memory.erase] at h
    split at h
    · exact h
    · split at h
      · exact List.mem_cons_of_mem _ h
      · rcases List.mem_cons.mp h with rfl | h
        · simp
        · exact List.mem_cons_of_mem _ (ih h)

theorem Memory.mem_insert {m : Memory} {i : Nat} {x : S} {c : Nat × S} (h : c ∈ Memory.insert m i x) :
    c = (i, x) ∨ c ∈ m := by
  induction m with
  | nil => simpa [Memory.insert] using h
  | cons d m ih =>
    obtain ⟨j, y⟩ := d
    simp only [Memory.insert] at h
    split at h
    · simpa using h
    · split at h
      · rcases List.mem_cons.mp h with h | h
        · exact .inl h
        · exact .inr (List.mem_cons_of_mem _ h)
      · rcases List.mem_cons.mp h with h | h
        · exact .inr (by simp [h])
        · rcases ih h with h | h
          · exact .inl h
          · exact .inr (List.mem_cons_of_mem _ h)

theorem Memory.wf_nil : Memory.wf [] := by simp [Memory.wf]

theorem Memory.wf_erase (m : Memory) (i : Nat) (h : Memory.wf m) : Memory.wf (Memory.erase m i) := by
  induction m with
  | nil => exact h
  | cons c m ih =>
    obtain ⟨j, y⟩ := c
    obtain ⟨hp, hc⟩ := h
    rw [List.pairwise_cons] at hp
    have hm : Memory.wf m := ⟨hp.2, fun c h => hc c (by simp [h])⟩
    simp only [Memory.erase]
    split
    · exact ⟨List.pairwise_cons.mpr hp, hc⟩
    · split
      · exact hm
      · refine ⟨List.pairwise_cons.mpr ⟨fun c h => hp.1 c (Memory.mem_erase h), (ih hm).1⟩, fun c h => ?_⟩
        rcases List.mem_cons.mp h with rfl | h
        · exact hc _ (by simp)
        · exact (ih hm).2 c h

theorem Memory.wf_insert (m : Memory) (i : Nat) (x : S) (hi : i < 256) (hx : x ≠ Memory.unlisted i)
    (h : Memory.wf m) : Memory.wf (Memory.insert m i x) := by
  induction m with
  | nil => simp [Memory.wf, Memory.insert, hi, hx]
  | cons c m ih =>
    obtain ⟨j, y⟩ := c
    obtain ⟨hp, hc⟩ := h
    rw [List.pairwise_cons] at hp
    have hm : Memory.wf m := ⟨hp.2, fun c h => hc c (by simp [h])⟩
    simp only [Memory.insert]
    split
    · rename_i hij
      refine ⟨List.pairwise_cons.mpr ⟨fun c h => ?_, List.pairwise_cons.mpr hp⟩, fun c h => ?_⟩
      · rcases List.mem_cons.mp h with rfl | h
        · exact hij
        · exact Nat.lt_trans hij (hp.1 c h)
      · rcases List.mem_cons.mp h with rfl | h
        · exact ⟨hi, hx⟩
        · exact hc c h
    · split
      · subst j
        refine ⟨List.pairwise_cons.mpr hp, fun c h => ?_⟩
        rcases List.mem_cons.mp h with rfl | h
        · exact ⟨hi, hx⟩
        · exact hm.2 c h
      · refine ⟨List.pairwise_cons.mpr ⟨fun c h => ?_, (ih hm).1⟩, fun c h => ?_⟩
        · rcases Memory.mem_insert h with rfl | h
          · simp; omega
          · exact hp.1 c h
        · rcases List.mem_cons.mp h with rfl | h
          · exact hc _ (by simp)
          · exact (ih hm).2 c h

/-- A write keeps the canonical form. -/
theorem Memory.wf_write (m : Memory) (i : Nat) (x : S) (hi : i < 256) (h : Memory.wf m) :
    Memory.wf (Memory.write m i x) := by
  unfold Memory.write
  split
  · exact Memory.wf_erase m i h
  · rename_i hx; exact Memory.wf_insert m i x hi hx h

/-! ### Writing every entry -/

theorem Memory.writeAll_spec (m : Memory) (f : Nat → S) (is : List Nat) (his : ∀ i ∈ is, i < 256) (h : Memory.wf m) :
    Memory.wf (is.foldr (fun i acc => Memory.write acc i (f i)) m) ∧
    ∀ k, Memory.read (is.foldr (fun i acc => Memory.write acc i (f i)) m) k =
      if k ∈ is then f k else Memory.read m k := by
  induction is with
  | nil => simpa using h
  | cons i is ih =>
    obtain ⟨hw, hr⟩ := ih fun j hj => his j (by simp [hj])
    rw [List.foldr_cons]
    refine ⟨Memory.wf_write _ _ _ (his i (by simp)) hw, fun k => ?_⟩
    rw [Memory.read_write _ _ _ _ hw, hr k]
    by_cases hk : k = i
    · subst hk; simp
    · simp [hk]

/-- Writing every entry keeps the canonical form. -/
theorem Memory.wf_writeAll (m : Memory) (f : Nat → S) (h : Memory.wf m) : Memory.wf (Memory.writeAll m f) :=
  (Memory.writeAll_spec m f _ (fun _ hi => List.mem_range.mp hi) h).1

/-- What the memory reads as after every entry is written. -/
theorem Memory.read_writeAll (m : Memory) (f : Nat → S) (k : Nat) (h : Memory.wf m) :
    Memory.read (Memory.writeAll m f) k = if k < 256 then f k else Memory.read m k := by
  have := (Memory.writeAll_spec m f _ (fun _ hi => List.mem_range.mp hi) h).2 k
  simpa [Memory.writeAll] using this

/-! ### Equal memories are equal data -/

theorem Memory.read_of_mem {m : Memory} (h : Memory.wf m) {c : Nat × S} (hc : c ∈ m) : Memory.read m c.1 = c.2 := by
  induction m with
  | nil => simp at hc
  | cons d m ih =>
    obtain ⟨j, y⟩ := d
    obtain ⟨hp, hd⟩ := h
    rw [List.pairwise_cons] at hp
    rcases List.mem_cons.mp hc with rfl | hc
    · simp [Memory.read]
    · have : j < c.1 := hp.1 c hc
      simp [Memory.read, Nat.ne_of_gt this, ih ⟨hp.2, fun c h => hd c (by simp [h])⟩ hc]

theorem Memory.wf_tail {c : Nat × S} {m : Memory} (h : Memory.wf (c :: m)) : Memory.wf m :=
  ⟨(List.pairwise_cons.mp h.1).2, fun c hc => h.2 c (by simp [hc])⟩

/-- Two memories in canonical form that read alike are equal. -/
theorem Memory.eq_of_read_eq (m n : Memory) (hm : Memory.wf m) (hn : Memory.wf n)
    (h : ∀ i, i < 256 → Memory.read m i = Memory.read n i) : m = n := by
  induction m generalizing n with
  | nil =>
    cases n with
    | nil => rfl
    | cons d n =>
      have hd := hn.2 d (by simp)
      exact absurd (((h d.1 hd.1).trans (Memory.read_of_mem hn (by simp))).symm) hd.2
  | cons c m ih =>
    have hc := hm.2 c (by simp)
    cases n with
    | nil => exact absurd ((Memory.read_of_mem hm (by simp)).symm.trans (h c.1 hc.1)) hc.2
    | cons d n =>
      have hd := hn.2 d (by simp)
      have rc : Memory.read (c :: m) c.1 = c.2 := Memory.read_of_mem hm (by simp)
      have rd : Memory.read (d :: n) d.1 = d.2 := Memory.read_of_mem hn (by simp)
      have pc := (List.pairwise_cons.mp hm.1).1
      have pd := (List.pairwise_cons.mp hn.1).1
      have key : c.1 = d.1 := by
        rcases Nat.lt_trichotomy c.1 d.1 with hlt | heq | hgt
        · have := Memory.read_of_lt (d :: n) c.1 fun e he => by
            rcases List.mem_cons.mp he with rfl | he
            · exact hlt
            · exact Nat.lt_trans hlt (pd e he)
          exact absurd (rc.symm.trans ((h c.1 hc.1).trans this)) hc.2
        · exact heq
        · have := Memory.read_of_lt (c :: m) d.1 fun e he => by
            rcases List.mem_cons.mp he with rfl | he
            · exact hgt
            · exact Nat.lt_trans hgt (pc e he)
          exact absurd (rd.symm.trans ((h d.1 hd.1).symm.trans this)) hd.2
      have hcd : c = d := by
        have := rc.symm.trans ((h c.1 hc.1).trans (key ▸ rd))
        exact Prod.ext key this
      subst hcd
      refine congrArg (c :: ·) (ih n (Memory.wf_tail hm) (Memory.wf_tail hn) fun i hi => ?_)
      by_cases hic : i = c.1
      · subst hic
        rw [Memory.read_of_lt m c.1 fun e he => pc e he, Memory.read_of_lt n c.1 fun e he => pd e he]
      · have := h i hi
        obtain ⟨j, y⟩ := c
        simpa [Memory.read, show i ≠ j from hic] using this

end Sys2Proof.Machine
end

