-- ==== Sys2Proof/Laws/Num.lean ====
section
/-!
SUPPORT. The machine's `NUM` meets R13 whatever the free functions are, and an admitted `NUM` passes the bounds unchanged: so
the free functions stand for every admitted `NUM` and for no other.
-/

namespace Sys2Proof.Machine

theorem absAtMostOne_zero {x : S} (h : fIsZero x = true) : absAtMostOne x = true := by
  rcases (fIsZero_iff x).mp h with rfl | rfl <;> decide

theorem absAtMostOne_f1 : absAtMostOne f1 = true := by decide

theorem fFinite_of_absAtMostOne {x : S} (h : absAtMostOne x = true) : fFinite x = true := by
  unfold absAtMostOne at h
  exact (Bool.and_eq_true _ _ ▸ h).1

theorem boundedSin_spec (free : S → S) {x : S} (hx : fFinite x = true) :
    absAtMostOne (boundedSin free x) = true ∧ (inP4Range x = true → fLe f0 (boundedSin free x) = true) := by
  unfold boundedSin
  split
  · rename_i hz
    refine ⟨absAtMostOne_zero hz, fun _ => ?_⟩
    rcases (fIsZero_iff x).mp hz with rfl | rfl <;> decide
  · split
    · simp_all
    · split
      · rename_i h
        simp only [Bool.and_eq_true, Bool.or_eq_true, Bool.not_eq_true'] at h
        refine ⟨h.1, fun hp => ?_⟩
        rcases h.2 with h2 | h2
        · simp_all
        · exact h2
      · exact ⟨by decide, fun _ => by decide⟩

theorem boundedCos_spec (free : S → S) {x : S} (hx : inP4Range x = true) : absAtMostOne (boundedCos free x) = true := by
  unfold boundedCos
  split
  · exact absAtMostOne_f1
  · simp_all

theorem boundedTanh_spec (free : S → S) {x : S} (hx : fFinite x = true) : absAtMostOne (boundedTanh free x) = true := by
  unfold boundedTanh
  split
  · exact absAtMostOne_zero ‹_›
  · split
    · decide
    · simp_all

theorem boundedExp2_spec (free : S → S) {x : S} (hx : fFinite x = true) :
    notNegativeNorNaN (boundedExp2 free x) = true := by
  unfold boundedExp2
  split
  · decide
  · split
    · decide
    · simp_all

theorem boundedPow100_spec (free : S → S) {d : S} (hd : fFinite d = true) (h0 : fLe f0 d = true) (h1 : fLe d f1 = true) :
    inP6Range (boundedPow100 free d) = true := by
  unfold boundedPow100
  split
  · decide
  · split
    · decide
    · split
      · decide
      · simp_all

theorem fFinite_of_inP4Range {x : S} (h : inP4Range x = true) : fFinite x = true := by
  unfold inP4Range at h
  simp only [Bool.and_eq_true] at h
  exact h.1.1

/-- Whatever the free functions are, the bounded record meets R13. -/
theorem NumFns.bounded_admitted (free : NumFns) : (NumFns.bounded free).Admitted where
  p2 := ⟨rfl, rfl⟩
  p3 := ⟨rfl, rfl, rfl, rfl⟩
  p4 := fun _ hw =>
    have hf := fFinite_of_inP4Range hw
    ⟨fFinite_of_absAtMostOne (boundedSin_spec _ hf).1, (boundedSin_spec _ hf).2 hw, boundedCos_spec _ hw⟩
  p5 := fun _ hx => ⟨boundedTanh_spec _ hx, (boundedSin_spec _ hx).1⟩
  p6 := ⟨fun _ h h0 h1 => boundedPow100_spec _ h h0 h1, rfl, rfl⟩
  p7 := fun _ hx => boundedExp2_spec _ hx

/-- The machine's `NUM` meets R13. -/
theorem NumFns.machine_admitted : NumFns.machine.Admitted := NumFns.bounded_admitted _

theorem boundedSin_eq {n : NumFns} (h : n.Admitted) (x : S) : boundedSin n.sin x = n.sin x := by
  unfold boundedSin
  split
  · rename_i hz
    rcases (fIsZero_iff x).mp hz with rfl | rfl
    · exact h.p3.1.symm
    · exact h.p3.2.1.symm
  · split
    · rfl
    · rename_i hf
      have hf : fFinite x = true := by simpa using hf
      rw [if_pos]
      have h5 := (h.p5 x hf).2
      cases hp : inP4Range x
      · simp [h5]
      · simp [h5, (h.p4 x hp).2.1]

theorem boundedCos_eq {n : NumFns} (h : n.Admitted) (x : S) : boundedCos n.cos x = n.cos x := by
  unfold boundedCos
  rw [if_neg]
  cases hp : inP4Range x
  · simp
  · simp [(h.p4 x hp).2.2]

theorem boundedTanh_eq {n : NumFns} (h : n.Admitted) (x : S) : boundedTanh n.tanh x = n.tanh x := by
  unfold boundedTanh
  split
  · rename_i hz
    rcases (fIsZero_iff x).mp hz with rfl | rfl
    · exact h.p3.2.2.1.symm
    · exact h.p3.2.2.2.symm
  · rw [if_neg]
    cases hf : fFinite x
    · simp
    · simp [(h.p5 x hf).1]

theorem boundedExp2_eq {n : NumFns} (h : n.Admitted) (x : S) : boundedExp2 n.exp2 x = n.exp2 x := by
  unfold boundedExp2
  split
  · rename_i hz
    rcases (fIsZero_iff x).mp hz with rfl | rfl
    · exact h.p2.1.symm
    · exact h.p2.2.symm
  · rw [if_neg]
    cases hf : fFinite x
    · simp
    · simp [h.p7 x hf]

theorem boundedPow100_eq {n : NumFns} (h : n.Admitted) (x : S) : boundedPow100 n.pow100 x = n.pow100 x := by
  unfold boundedPow100
  split
  · rename_i h0; subst h0; exact h.p6.2.1.symm
  · split
    · rename_i h1; subst h1; exact h.p6.2.2.symm
    · rw [if_neg]
      cases hf : fFinite x
      · simp
      · cases h0 : fLe f0 x
        · simp
        · cases h1 : fLe x f1
          · simp
          · simp [h.p6.1 x hf h0 h1]

/-- An admitted `NUM` passes the bounds unchanged. -/
theorem NumFns.bounded_eq_of_admitted {n : NumFns} (h : n.Admitted) : NumFns.bounded n = n := by
  unfold NumFns.bounded
  rw [show boundedSin n.sin = n.sin from funext (boundedSin_eq h), show boundedCos n.cos = n.cos from funext (boundedCos_eq h),
    show boundedTanh n.tanh = n.tanh from funext (boundedTanh_eq h),
    show boundedExp2 n.exp2 = n.exp2 from funext (boundedExp2_eq h),
    show boundedPow100 n.pow100 = n.pow100 from funext (boundedPow100_eq h)]

end Sys2Proof.Machine
end

