-- ==== Sys2Proof/Laws/PerInstr.lean ====
section
/-!
SUPPORT. Per-instruction family `HeaderFields`: what the header of an encoded command holds (R81, R85). The opcode is in the
map, the reserved byte is zero, the `v` field is the command's voice operand, and a field the row does not use is zero.
-/

namespace Sys2Proof.Laws.HeaderFields

open Sys2Proof

/-- The header fields of `encode i` agree with the row of the opcode map that `i` belongs to. -/
def Statement (i : Instr) : Prop :=
  ∃ row, opcodeRow (encode i).opField = some row ∧ (encode i).rsvField = 0 ∧
    row.usesV = i.voiceField.isSome ∧ (encode i).vField = i.voiceField.getD 0 ∧
    (row.usesU = false → (encode i).uField = 0)

theorem of_header {i : Instr} {row : OpcodeRow} {op v u : BitVec 8} {a b : BitVec 32} (he : encode i = ⟨header op v u, a, b⟩)
    (hr : opcodeRow op = some row) (hs : row.usesV = i.voiceField.isSome) (hv : v = i.voiceField.getD 0)
    (hu : row.usesU = false → u = 0) : Statement i :=
  ⟨row, by rw [he, opField_header]; exact hr, by rw [he, rsvField_header]; rfl, hs,
    by rw [he, vField_header]; exact hv, fun h => by rw [he, uField_header]; exact hu h⟩

theorem nop : Statement (.nop) := of_header rfl rfl rfl rfl (fun _ => rfl)

theorem statusRd : Statement (.statusRd) := of_header rfl rfl rfl rfl (fun _ => rfl)

theorem oscWt (v : BitVec 8) (shape : S) : Statement (.oscWt v shape) := of_header rfl rfl rfl rfl (fun _ => rfl)

theorem oscRst (v : BitVec 8) : Statement (.oscRst v) := of_header rfl rfl rfl rfl (fun _ => rfl)

theorem oscNext (v : BitVec 8) (frequency : S) : Statement (.oscNext v frequency) := of_header rfl rfl rfl rfl (fun _ => rfl)

theorem oscRdt (v : BitVec 8) (i : BitVec 8) : Statement (.oscRdt v i) := of_header rfl rfl rfl rfl (fun h => nomatch h)

theorem fltMode (v : BitVec 8) (mode : BitVec 8) : Statement (.fltMode v mode) := of_header rfl rfl rfl rfl (fun h => nomatch h)

theorem fltCut (v : BitVec 8) (cutoff : S) : Statement (.fltCut v cutoff) := of_header rfl rfl rfl rfl (fun _ => rfl)

theorem fltQ (v : BitVec 8) (q : S) : Statement (.fltQ v q) := of_header rfl rfl rfl rfl (fun _ => rfl)

theorem fltRst (v : BitVec 8) : Statement (.fltRst v) := of_header rfl rfl rfl rfl (fun _ => rfl)

theorem fltProc (v : BitVec 8) (x : S) : Statement (.fltProc v x) := of_header rfl rfl rfl rfl (fun _ => rfl)

theorem envSetA (v : BitVec 8) (e : BitVec 8) (t : S) : Statement (.envSetA v e t) := of_header rfl rfl rfl rfl (fun h => nomatch h)

theorem envSetD (v : BitVec 8) (e : BitVec 8) (t : S) : Statement (.envSetD v e t) := of_header rfl rfl rfl rfl (fun h => nomatch h)

theorem envSetS (v : BitVec 8) (e : BitVec 8) (level : S) : Statement (.envSetS v e level) := of_header rfl rfl rfl rfl (fun h => nomatch h)

theorem envSetR (v : BitVec 8) (e : BitVec 8) (t : S) : Statement (.envSetR v e t) := of_header rfl rfl rfl rfl (fun h => nomatch h)

theorem envTrig (v : BitVec 8) (e : BitVec 8) : Statement (.envTrig v e) := of_header rfl rfl rfl rfl (fun h => nomatch h)

theorem envRls (v : BitVec 8) (e : BitVec 8) : Statement (.envRls v e) := of_header rfl rfl rfl rfl (fun h => nomatch h)

theorem envNext (v : BitVec 8) (e : BitVec 8) : Statement (.envNext v e) := of_header rfl rfl rfl rfl (fun h => nomatch h)

theorem envRdp (v : BitVec 8) (e : BitVec 8) : Statement (.envRdp v e) := of_header rfl rfl rfl rfl (fun h => nomatch h)

theorem vTrig (v : BitVec 8) (frequency : S) (volume : S) : Statement (.vTrig v frequency volume) := of_header rfl rfl rfl rfl (fun _ => rfl)

theorem vRls (v : BitVec 8) : Statement (.vRls v) := of_header rfl rfl rfl rfl (fun _ => rfl)

theorem vNext (v : BitVec 8) : Statement (.vNext v) := of_header rfl rfl rfl rfl (fun _ => rfl)

theorem vBend (v : BitVec 8) (bend : S) : Statement (.vBend v bend) := of_header rfl rfl rfl rfl (fun _ => rfl)

theorem vBrng (v : BitVec 8) (semitones : S) : Statement (.vBrng v semitones) := of_header rfl rfl rfl rfl (fun _ => rfl)

theorem vCut (v : BitVec 8) (cutoff : S) : Statement (.vCut v cutoff) := of_header rfl rfl rfl rfl (fun _ => rfl)

theorem vDepth (v : BitVec 8) (depth : S) : Statement (.vDepth v depth) := of_header rfl rfl rfl rfl (fun _ => rfl)

theorem vActive (v : BitVec 8) : Statement (.vActive v) := of_header rfl rfl rfl rfl (fun _ => rfl)

theorem opAlgo (index : BitVec 8) : Statement (.opAlgo index) := of_header rfl rfl rfl rfl (fun h => nomatch h)

theorem opDrive (drive : S) : Statement (.opDrive drive) := of_header rfl rfl rfl rfl (fun _ => rfl)

theorem opProc (x : S) : Statement (.opProc x) := of_header rfl rfl rfl rfl (fun _ => rfl)

theorem render : Statement (.render) := of_header rfl rfl rfl rfl (fun _ => rfl)

end Sys2Proof.Laws.HeaderFields
end

