-- ==== Sys2Proof/Laws/Units.lean ====
section
/-!
SUPPORT. What the micro-operations of the units keep: clamped values lie in their ranges, the wrapped phase in `[0, 1)`, the
filter's cache stays right, and an envelope step keeps its ranges.
-/

namespace Sys2Proof.Machine

/-! ### Ranges -/

theorem between_iff {lo hi x : S} (hl : fFinite lo = true) (hh : fFinite hi = true) :
    between lo hi x = true ↔ fFinite x = true ∧ fInt lo ≤ fInt x ∧ fInt x ≤ fInt hi := by
  unfold between
  simp only [Bool.and_eq_true]
  constructor
  · rintro ⟨⟨h1, h2⟩, h3⟩
    exact ⟨h1, (fLe_iff hl h1).mp h2, (fLe_iff h1 hh).mp h3⟩
  · rintro ⟨h1, h2, h3⟩
    exact ⟨⟨h1, (fLe_iff hl h1).mpr h2⟩, (fLe_iff h1 hh).mpr h3⟩

/-- A clamped finite value is in the range (R14). -/
theorem clamp_between {x lo hi : S} (hx : fFinite x = true) (hl : fFinite lo = true) (hh : fFinite hi = true)
    (h : fInt lo ≤ fInt hi) : between lo hi (clamp x lo hi) = true :=
  (between_iff hl hh).mpr (clamp_spec hx hl hh h)

theorem fFinite_f0 : fFinite f0 = true := by decide
theorem fFinite_f1 : fFinite f1 = true := by decide
theorem fInt_f1 : fInt f1 = 2 ^ 149 := by decide
theorem fInt_fNeg1 : fInt fNeg1 = -2 ^ 149 := by decide

theorem inUnit_iff {x : S} : inUnit x = true ↔ fFinite x = true ∧ 0 ≤ fInt x ∧ fInt x ≤ 2 ^ 149 := by
  unfold inUnit
  rw [between_iff fFinite_f0 fFinite_f1, fInt_f1, fInt_f0]

/-! ### The phase -/

/-- A difference of equal values is `+0`, never `-0`, unless both operands of the sum are negative zeros. -/
theorem addFinite_ne_neg_zero {a b : S} (h : ¬ (fSign a = true ∧ fSign b = true)) (hz : fInt a + fInt b = 0) :
    addFinite a b = f0 := by
  rw [addFinite_eq, hz]
  simp only [if_pos, Int.natAbs_zero]
  rw [roundMag_zero 1 (by decide)]
  have : (fSign a && fSign b) = false := by
    cases ha : fSign a <;> cases hb : fSign b <;> simp_all
  rw [this]; rfl

theorem phaseInRange_f0 : phaseInRange f0 = true := by decide

/-- The first guard of R113: a frequency that is not finite makes the phase `+0.0`. -/
theorem oscNext_of_not_finite (sampleRate : Nat) (o : Oscillator) {f : S} (h : fFinite f = false) :
    (oscNext sampleRate o f).1 = { o with phase := f0 } := by
  simp [oscNext, wrapPhase, not_finite_fAdd o.phase (not_finite_fDiv (srf sampleRate) h)]

/-- A wrapped phase is `+0.0` or a value that passed the test of R113. -/
theorem wrapPhase_cases (p : S) :
    wrapPhase p = f0 ∨ (fFinite p = true ∧ wrapPhase p = fSub p (fFloor p) ∧ fGe (wrapPhase p) f0 = true ∧
      fLt (wrapPhase p) f1 = true) := by
  unfold wrapPhase
  by_cases hp : fFinite p = true
  · rw [if_pos hp]
    simp only
    split
    · rename_i h
      simp only [Bool.and_eq_true] at h
      exact .inr ⟨hp, rfl, h.1, h.2⟩
    · exact .inl rfl
  · rw [if_neg hp]; exact .inl rfl

/-! ### The filter's cache (R39) -/

theorem fltRecompute_cacheInv (num : NumFns) (sampleRate : Nat) (f : Biquad) :
    (fltRecompute num sampleRate f).CacheInv num sampleRate := fun _ => rfl

theorem fltSetMode_cacheInv {num : NumFns} {sampleRate : Nat} {f : Biquad} (h : f.CacheInv num sampleRate)
    (m : FilterMode) : (fltSetMode f m).CacheInv num sampleRate := by
  unfold fltSetMode
  split
  · intro hd; simp [Biquad.markDirty] at hd
  · exact h

theorem fltSetCutoff_cacheInv {num : NumFns} {sampleRate : Nat} {f : Biquad} (h : f.CacheInv num sampleRate) (c : S) :
    (fltSetCutoff sampleRate f c).CacheInv num sampleRate := by
  unfold fltSetCutoff
  split
  · intro hd; simp [Biquad.markDirty] at hd
  · exact h

theorem fltSetQ_cacheInv {num : NumFns} {sampleRate : Nat} {f : Biquad} (h : f.CacheInv num sampleRate) (q : S) :
    (fltSetQ f q).CacheInv num sampleRate := by
  unfold fltSetQ
  split
  · intro hd; simp [Biquad.markDirty] at hd
  · exact h

theorem fltReset_cacheInv {num : NumFns} {sampleRate : Nat} {f : Biquad} (h : f.CacheInv num sampleRate) :
    (fltReset f).CacheInv num sampleRate := h

/-- After one sample the flag is clear, the control registers are as before, and the coefficient registers hold the
coefficients of the control registers. -/
theorem fltProcess_spec {num : NumFns} {sampleRate : Nat} {f : Biquad} (h : f.CacheInv num sampleRate) (x : S) :
    (fltProcess num sampleRate f x).1.dirty = false ∧ (fltProcess num sampleRate f x).1.mode = f.mode ∧
    (fltProcess num sampleRate f x).1.cutoff = f.cutoff ∧ (fltProcess num sampleRate f x).1.q = f.q ∧
    (fltProcess num sampleRate f x).1.coeffs = Machine.coeffs num sampleRate f.mode f.cutoff f.q := by
  unfold fltProcess
  split
  · exact ⟨rfl, rfl, rfl, rfl, rfl⟩
  · rename_i hd
    have hd : f.dirty = false := by simpa using hd
    refine ⟨hd, rfl, rfl, rfl, ?_⟩
    exact h hd

/-! ### Envelopes -/

/-- An envelope step touches level and phase only. -/
theorem envStep_frame (e : Envelope) : envStep e = { e with level := (envStep e).level, phase := (envStep e).phase } := by
  unfold envStep
  split
  · rfl
  · simp only; split <;> rfl
  · simp only; split <;> rfl
  · rfl
  · simp only; split <;> rfl

/-- The phases advance in the order of R164 only. -/
theorem envStep_phase (e : Envelope) :
    (envStep e).phase = e.phase ∨ (e.phase = .attack ∧ (envStep e).phase = .decay) ∨
    (e.phase = .decay ∧ (envStep e).phase = .sustain) ∨ (e.phase = .release ∧ (envStep e).phase = .idle) := by
  unfold envStep
  split
  · exact .inl rfl
  · rename_i h; simp only; split
    · exact .inr (.inl ⟨h, rfl⟩)
    · exact .inl rfl
  · rename_i h; simp only; split
    · exact .inr (.inr (.inl ⟨h, rfl⟩))
    · exact .inl rfl
  · exact .inl rfl
  · rename_i h; simp only; split
    · exact .inr (.inr (.inr ⟨h, rfl⟩))
    · exact .inl rfl

theorem envStep_idle {e : Envelope} (h : e.phase = .idle) : envStep e = e := by
  unfold envStep; rw [h]

end Sys2Proof.Machine
end

