-- ==== Sys2Proof/Tests/Slice0.lean ====
section
/-!
SUPPORT. Tests. Expected values are the spec's: worked examples of the rules, and the vectors W, F, E, V, O, X, M and A of
spec/95_test_vectors.md, named beside each. The last part shows, for every statement with hypotheses, values that meet them.
-/

namespace Sys2Proof.Tests

open Sys2Proof Sys2Proof.Machine

/-! ### Helpers -/

/-- The reset state for a rate and a number of voices. -/
def at' (sampleRate nVoices : Nat) : State := State.resetAt ⟨sampleRate, 0⟩ nVoices

/-- The next state of an outcome, or the given one. -/
def next (s : State) : Host.Outcome State Fault Refusal → State
  | .next t => t
  | _ => s

/-- The state after an instruction. -/
def after (i : Instr) (s : State) : State := next s (exec i s)

/-- The last response. -/
def last (s : State) : Option Response := s.responses.head?

/-- The response of an instruction. -/
def resp (i : Instr) (s : State) : Option Response := last (after i s)

/-- Voice unit 0, changed by `f`. -/
def State.withVoice (s : State) (f : Voice → Voice) : State :=
  { s with voices := s.voices.set 0 (f ((s.voices[0]?).getD Voice.reset)) }

/-- Voice unit 0. -/
def voice0 (s : State) : Voice := (s.voices[0]?).getD Voice.reset

/-! ### Well-formedness: each check refuses an ill-formed term -/

theorem test_wf_envelope_number : Instr.unitInRange (.envSetA 0 2 f0) = false ∧ Instr.unitInRange (.envRdp 0 2) = false ∧
    Instr.unitInRange (.envTrig 0 1) = true := by decide
theorem test_wf_filter_mode : Instr.unitInRange (.fltMode 0 5) = false ∧ Instr.unitInRange (.fltMode 0 4) = true := by decide
theorem test_wf_algorithm : Instr.unitInRange (.opAlgo 3) = false ∧ Instr.unitInRange (.opAlgo 2) = true := by decide
theorem test_wf_operand_a : Instr.operandsFinite (.oscWt 0 0x7FC00000#32) = false ∧
    Instr.operandsFinite (.opProc 0x7F800000#32) = false ∧ Instr.operandsFinite (.vBrng 0 0xFF800000#32) = false := by decide
theorem test_wf_operand_b : Instr.operandsFinite (.vTrig 0 f440 0x7F800000#32) = false := by decide
theorem test_wf_frequency : Instr.frequencyPositive (.vTrig 0 f0 f1) = false ∧
    Instr.frequencyPositive (.vTrig 0 0x80000000#32 f1) = false ∧ Instr.frequencyPositive (.vTrig 0 0x00000001#32 f1) = true := by
  decide
theorem test_wf_voice : Instr.voiceBelow 2 (.vRls 2) = false ∧ Instr.voiceBelow 2 (.vRls 1) = true ∧
    Instr.voiceBelow 1 .render = true := by decide
theorem test_wf_whole : Instr.wellFormed (.envSetA 0 2 f0) = false ∧ Instr.wellFormed (.vTrig 0 0xC3DC0000#32 f1) = false ∧
    Instr.wellFormed (.vTrig 255 f440 f1) = true := by decide

/-! ### Decoding: words written out from R81 and R85, `op[31:24] v[23:16] u[15:8] rsv[7:0]` -/

theorem test_decode_nop : decode ⟨0x00000000, 0xDEADBEEF, 0⟩ = .command .nop := by decide
theorem test_decode_statusRd : decode ⟨0x01000000, 1, 2⟩ = .command .statusRd := by decide
theorem test_decode_oscWt : decode ⟨0x10000000, 0x3E800000, 0⟩ = .command (.oscWt 0 0x3E800000#32) := by decide
theorem test_decode_oscRst : decode ⟨0x11020000, 0, 0⟩ = .command (.oscRst 2) := by decide
theorem test_decode_oscNext : decode ⟨0x12FF0000, 0x42800000, 7⟩ = .command (.oscNext 255 0x42800000#32) := by decide
theorem test_decode_oscRdt : decode ⟨0x1300C000, 0, 0⟩ = .command (.oscRdt 0 192) := by decide
theorem test_decode_fltMode : decode ⟨0x20050400, 0, 0⟩ = .command (.fltMode 5 4) := by decide
theorem test_decode_fltCut : decode ⟨0x21010000, 0x46EA6000, 0⟩ = .command (.fltCut 1 0x46EA6000#32) := by decide
theorem test_decode_fltQ : decode ⟨0x22010000, 0x42C80000, 0⟩ = .command (.fltQ 1 0x42C80000#32) := by decide
theorem test_decode_fltRst : decode ⟨0x23030000, 0, 0⟩ = .command (.fltRst 3) := by decide
theorem test_decode_fltProc : decode ⟨0x24030000, 0x3F800000, 0⟩ = .command (.fltProc 3 0x3F800000#32) := by decide
theorem test_decode_envSetA : decode ⟨0x30030100, 0x3C23D70A, 0⟩ = .command (.envSetA 3 1 0x3C23D70A#32) := by decide
theorem test_decode_envSetD : decode ⟨0x31030000, 0x3C23D70A, 0⟩ = .command (.envSetD 3 0 0x3C23D70A#32) := by decide
theorem test_decode_envSetS : decode ⟨0x32030100, 0x3C23D70A, 0⟩ = .command (.envSetS 3 1 0x3C23D70A#32) := by decide
theorem test_decode_envSetR : decode ⟨0x33030000, 0x3C23D70A, 0⟩ = .command (.envSetR 3 0 0x3C23D70A#32) := by decide
theorem test_decode_envTrig : decode ⟨0x34010000, 0, 0⟩ = .command (.envTrig 1 0) := by decide
theorem test_decode_envRls : decode ⟨0x35010100, 0, 0⟩ = .command (.envRls 1 1) := by decide
theorem test_decode_envNext : decode ⟨0x36010000, 0, 0⟩ = .command (.envNext 1 0) := by decide
theorem test_decode_envRdp : decode ⟨0x37010100, 0, 0⟩ = .command (.envRdp 1 1) := by decide
theorem test_decode_vTrig : decode ⟨0x40010000, 0x43DC0000, 0x3F800000⟩ =
    .command (.vTrig 1 0x43DC0000#32 0x3F800000#32) := by decide
theorem test_decode_vRls : decode ⟨0x41000000, 0, 0⟩ = .command (.vRls 0) := by decide
theorem test_decode_vNext : decode ⟨0x42070000, 0, 0⟩ = .command (.vNext 7) := by decide
theorem test_decode_vBend : decode ⟨0x43010000, 0x3F7FF800, 0⟩ = .command (.vBend 1 0x3F7FF800#32) := by decide
theorem test_decode_vBrng : decode ⟨0x44010000, 0xC1400000, 0⟩ = .command (.vBrng 1 0xC1400000#32) := by decide
theorem test_decode_vCut : decode ⟨0x45010000, 0x40A00000, 0⟩ = .command (.vCut 1 0x40A00000#32) := by decide
theorem test_decode_vDepth : decode ⟨0x46010000, 0x40000000, 0⟩ = .command (.vDepth 1 0x40000000#32) := by decide
theorem test_decode_vActive : decode ⟨0x47010000, 0, 0⟩ = .command (.vActive 1) := by decide
theorem test_decode_opAlgo : decode ⟨0x50000100, 0, 0⟩ = .command (.opAlgo 1) := by decide
theorem test_decode_opDrive : decode ⟨0x51000000, 0x3FC00000, 0⟩ = .command (.opDrive 0x3FC00000#32) := by decide
theorem test_decode_opProc : decode ⟨0x52000000, 0x3F000000, 0⟩ = .command (.opProc 0x3F000000#32) := by decide
theorem test_decode_render : decode ⟨0x60000000, 0xFFFFFFFF, 0xFFFFFFFF⟩ = .command .render := by decide

/-- Reserved opcodes (X2) and nonzero reserved fields (R86). -/
theorem test_decode_illegal :
    decode ⟨0x02000000, 0, 0⟩ = .illegal (.unknownOpcode 2) ∧ decode ⟨0x61000000, 0, 0⟩ = .illegal (.unknownOpcode 0x61) ∧
    decode ⟨0x60000001, 0, 0⟩ = .illegal .reservedNotZero ∧ decode ⟨0x00010000, 0, 0⟩ = .illegal .unusedVoiceField ∧
    decode ⟨0x10000100, 0, 0⟩ = .illegal .unusedUnitField := by decide

/-- The byte transport of R62: W0, W1, W2, bits 7:0 first. -/
theorem test_bytes : Command.toBytes ⟨0x40010000, 0x43DC0000, 0x3F800000⟩ =
    [0x00, 0x00, 0x01, 0x40, 0x00, 0x00, 0xDC, 0x43, 0x00, 0x00, 0x80, 0x3F] := by decide

/-- A table word: W0 in bits 31:0, W1 from bit 32 (log 15). -/
theorem test_tableWord : decodeTableWord 96 0x3E80000010000000 = some (.oscWt 0 0x3E800000#32) ∧
    decodeTableWord 32 0x3E80000010000000 = some (.oscWt 0 0) := by decide

theorem test_step_after_reset : (next State.reset (step (State.reset.withFetchWord 32 0x37000000))).responses = [⟨0, 0, 0⟩] := by
  decide

/-! ### Constants (section 2.1) -/

theorem test_cutMax : cutMax 8000 = 0x45778000 ∧ cutMax 32768 = 0x467D70A4 ∧ cutMax 44100 = 0x46AA8B00 ∧
    cutMax 48000 = 0x46B9A000 ∧ cutMax 96000 = 0x4739A000 ∧ cutMax 16777215 = 0x4AFD70A3 := by decide
theorem test_postFilter_reset : (OutputUnit.reset 8000).pf.cutoff = 0x45778000 ∧
    (OutputUnit.reset 48000).pf.cutoff = 0x461C4000 := by decide

/-! ### System -/

theorem test_nop : resp .nop (at' 48000 1) = some ⟨0, 0, 0⟩ := by decide
theorem test_statusRd : resp .statusRd (after (.vRls 1) (at' 48000 1)) = some ⟨0, 1, 0⟩ := by decide

/-! ### Oscillator (W) -/

/-- W2: `OSC.WT 0, 0.3`. -/
theorem test_oscWt_w2 : (wtEntry 0x3E99999A#32 0, wtEntry 0x3E99999A#32 1, wtEntry 0x3E99999A#32 64, wtEntry 0x3E99999A#32 255) =
    (0xBF800000#32, 0xBF7CCCCD#32, 0xBE4CCCCC#32, 0xBE46666C#32) ∧
    (wtEntry 0x3F666666#32 127, wtEntry 0x3F666666#32 128) = (0x3F7F3333#32, 0xBF199998#32) := by decide
/-- R111: `OSC.WT 0, 0.25` gives `WT[0][64] = -0.25`; W3: a NaN shape is Illegal. -/
theorem test_oscWt : Memory.read (voice0 (after (.oscWt 0 0x3E800000#32) (at' 48000 1))).osc.wt 64 = 0xBE800000#32 ∧
    resp (.oscWt 0 0x7FC00000#32) (at' 48000 1) = some ⟨1, 0, 0⟩ := by decide +kernel
theorem test_oscRst : (voice0 (after (.oscRst 0) (State.withVoice (at' 48000 1)
    fun u => { u with osc := { u.osc with phase := f0p5 } }))).osc.phase = f0 := by decide
/-- W7, n = 1. -/
theorem test_oscNext_w7 :
    (fun t => (last t, (voice0 t).osc.phase)) (after (.oscNext 0 f440) (State.withVoice (at' 48000 1)
      fun u => { u with osc := { u.osc with phase := 0x3C162FC9#32 } })) =
    (some ⟨0, 0xBF7B4E82, 0⟩, 0x3C962FC9#32) := by decide
/-- W6: the guard of R113; W5: the wrap upward and the last entry. -/
theorem test_oscNext_wrap :
    (voice0 (after (.oscNext 0 0xB727C5AC#32) (at' 32768 1))).osc.phase = f0 ∧
    (fun t => (last t, (voice0 t).osc.phase)) (after (.oscNext 0 0xC2800000#32) (State.withVoice (at' 32768 1)
      fun u => { u with osc := { u.osc with phase := 0x3F7F8000#32 } })) =
    (some ⟨0, 0xBB800000, 0⟩, 0x3F7F0000#32) := by decide
theorem test_oscRdt : resp (.oscRdt 0 192) (at' 48000 1) = some ⟨0, 0x3F000000, 0⟩ ∧
    resp (.oscRdt 0 255) (at' 48000 1) = some ⟨0, 0x3F7E0000, 0⟩ := by decide

/-! ### Filter (F) -/

/-- The values of `NUM_REF` the vectors F1, F3, O5 and V1 name, at the operands they name. -/
def refNum : NumFns where
  sin x := if x = 0x3E060A92#32 then 0x3E05A8A9#32 else if x = 0x3FA78D37#32 then 0x3F7746EB#32 else x
  cos x := if x = 0x3E060A92#32 then 0x3F7DCF55#32 else if x = 0x3FA78D37#32 then 0x3E8483EB#32 else f1
  tanh x := if x = f0p5 then 0x3EEC9A9F#32 else x
  exp2 _ := f1
  pow100 x := if x = f0p5 then 0x41200000#32 else f1

/-- F7 starts from a filter whose dirty flag is clear. -/
def cleanState : State :=
  State.withVoice (at' 48000 1) fun u => { u with flt := { u.flt with dirty := false } }

theorem test_fltMode : (fun f : Biquad => (f.mode, f.dirty)) (voice0 (after (.fltMode 0 1) cleanState)).flt = (.highpass, true) ∧
    (fun f : Biquad => (f.mode, f.dirty)) (voice0 (after (.fltMode 0 0) cleanState)).flt = (.lowpass, false) := by decide
theorem test_fltMode_illegal : (fun t => (last t, (voice0 t).flt.dirty, t.status)) (after (.fltMode 0 5) cleanState) =
    (some ⟨1, 0, 0⟩, false, 1#32) := by decide
/-- F7: 30000 Hz clamps to 23760, then 99999 Hz is no change. -/
theorem test_fltCut : (fun f : Biquad => (f.cutoff, f.dirty)) (voice0 (after (.fltCut 0 0x46EA6000#32) cleanState)).flt =
      (0x46B9A000#32, true) ∧
    (fun f : Biquad => (f.cutoff, f.dirty)) (voice0 (after (.fltCut 0 0x47C34F80#32)
      (State.withVoice cleanState fun u => { u with flt := { u.flt with cutoff := 0x46B9A000#32 } }))).flt =
      (0x46B9A000#32, false) := by decide
theorem test_fltCut_low : (voice0 (after (.fltCut 0 0xC0A00000#32) cleanState)).flt.cutoff = 0x41A00000#32 := by decide
theorem test_fltQ : (fun f : Biquad => (f.q, f.dirty)) (voice0 (after (.fltQ 0 f100) cleanState)).flt = (0x41A00000#32, true) ∧
    (voice0 (after (.fltQ 0 f0) cleanState)).flt.q = 0x3DCCCCCD#32 := by decide
theorem test_fltRst : (fun f : Biquad => (f.z1, f.z2)) (voice0 (after (.fltRst 0) (State.withVoice cleanState
    fun u => { u with flt := { u.flt with z1 := f1, z2 := f2 } }))).flt = (f0, f0) := by decide
/-- F2 and F5: the Lowpass coefficients at (1000, 0.707), and the first output of the impulse, with `z1` and `z2` after it. -/
theorem test_fltProc_f5 :
    (fun t => (last t, (voice0 t).flt)) (next (at' 48000 1) (execFltProcWith refNum 0 f1 (at' 48000 1))) =
    (some ⟨0, 0x3B805256, 0⟩,
      ({ mode := .lowpass, cutoff := f1000, q := f0p707, dirty := false, b0 := 0x3B805256#32, b1 := 0x3C005256#32,
         b2 := 0x3B805256#32, a1 := 0xBFE85C56#32, a2 := 0x3F54BB40#32, z1 := 0x3C74CB3C#32, z2 := 0x3A2D8254#32 } : Biquad)) := by
  decide
/-- F5: the second output, from `z1` and `z2` of the first. -/
theorem test_fltProc_second :
    (fun t => (last t, (voice0 t).flt.z1, (voice0 t).flt.z2)) (next (at' 48000 1) (execFltProcWith refNum 0 f0
      (State.withVoice (at' 48000 1) fun u => { u with flt := { u.flt with z1 := 0x3C74CB3C#32, z2 := 0x3A2D8254#32 } }))) =
    (some ⟨0, 0x3C74CB3C, 0⟩, 0x3CE39C8D#32, 0xBC4B6B5B#32) := by decide
/-- F2: the other modes. -/
theorem test_coeffs_f2 :
    coeffs refNum 48000 .highpass f1000 f0p707 = ⟨0x3F695CFA#32, 0xBFE95CFA#32, 0x3F695CFA#32, 0xBFE85C56#32, 0x3F54BB40#32⟩ ∧
    coeffs refNum 48000 .bandpass f1000 f0p707 = ⟨0x3DAD12FF#32, 0x00000000#32, 0xBDAD12FF#32, 0xBFE85C56#32, 0x3F54BB40#32⟩ ∧
    coeffs refNum 48000 .notch f1000 f0p707 = ⟨0x3F6A5D9F#32, 0xBFE85C56#32, 0x3F6A5D9F#32, 0xBFE85C56#32, 0x3F54BB40#32⟩ ∧
    coeffs refNum 48000 .allpass f1000 f0p707 = ⟨0x3F54BB40#32, 0xBFE85C56#32, 0x3F800000#32, 0xBFE85C56#32, 0x3F54BB40#32⟩ := by
  decide

/-! ### Envelope (E) -/

/-- The state at a rate with the amplitude envelope of voice 0 changed by `f`. -/
def withAmp (sampleRate : Nat) (f : Envelope → Envelope) : State :=
  State.withVoice (at' sampleRate 1) fun u => { u with amp := f u.amp }

/-- E1: `time * SRf = 4`, attack rate 0.25; E5: the smallest subnormal gives `+infinity`, the largest finite `+0.0`. -/
theorem test_envSetA : (voice0 (after (.envSetA 0 0 0x39000000#32) (at' 32768 1))).amp.atkRate = 0x3E800000#32 ∧
    (voice0 (after (.envSetA 0 0 0x00000001#32) (at' 48000 1))).amp.atkRate = 0x7F800000#32 ∧
    (voice0 (after (.envSetA 0 0 0x7F7FFFFF#32) (at' 48000 1))).amp.atkRate = f0 ∧
    (voice0 (after (.envSetA 0 0 0x80000000#32) (at' 48000 1))).amp.atkRate = f1 := by decide
/-- E4: decay 0.1 s at 48000 with sustain 0.7. -/
theorem test_envSetD : (voice0 (after (.envSetD 0 0 0x3DCCCCCD#32) (withAmp 48000 fun e => { e with sus := 0x3F333333#32 }))).amp.dcyRate =
    0x3883126F#32 := by decide
/-- E4: release 0.2 s at 48000 with sustain 0.7. -/
theorem test_envSetR : (voice0 (after (.envSetR 0 0 0x3E4CCCCD#32) (withAmp 48000 fun e => { e with sus := 0x3F333333#32 }))).amp.relRate =
    0x3898EAD6#32 := by decide
/-- R167: both rates follow the sustain level; E5: 1.5 stores 1.0. -/
theorem test_envSetS :
    (fun e : Envelope => (e.sus, e.dcyRate, e.relRate)) (voice0 (after (.envSetS 0 0 f0p5)
      (withAmp 32768 fun e => { e with dcy := 0x39000000#32, rel := 0x39000000#32 }))).amp =
      (f0p5, 0x3E000000#32, 0x3E000000#32) ∧
    (voice0 (after (.envSetS 0 1 0x3FC00000#32) (at' 48000 1))).feg.sus = f1 := by decide
theorem test_envTrig : (fun e : Envelope => (e.phase, e.level)) (voice0 (after (.envTrig 0 1)
      (State.withVoice (at' 48000 1) fun u => { u with feg := { u.feg with phase := .sustain, level := f1 } }))).feg =
      (.attack, f0) ∧ resp (.envTrig 0 2) (at' 48000 1) = some ⟨1, 0, 0⟩ := by decide
theorem test_envRls : (voice0 (after (.envRls 0 0) (at' 48000 1))).amp.phase = .idle ∧
    (fun e : Envelope => (e.phase, e.level)) (voice0 (after (.envRls 0 0) (withAmp 48000
      fun e => { e with phase := .attack, level := f0p5 }))).amp = (.release, f0p5) := by decide
/-- E1: attack reaches 1.0, decay reaches the sustain level. -/
theorem test_envNext :
    (fun t => (last t, (voice0 t).amp.phase)) (after (.envNext 0 0) (withAmp 32768
      fun e => { e with phase := .attack, level := 0x3F400000#32, atkRate := 0x3E800000#32 })) =
      (some ⟨0, 0x3F800000, 0⟩, .decay) ∧
    (fun t => (last t, (voice0 t).amp.phase)) (after (.envNext 0 0) (withAmp 32768
      fun e => { e with phase := .decay, level := 0x3F200000#32, dcyRate := 0x3E000000#32, sus := f0p5 })) =
      (some ⟨0, 0x3F000000, 0⟩, .sustain) := by decide
/-- E1: release; E3: the release that never ends. -/
theorem test_envNext_release :
    (fun t => (last t, (voice0 t).amp.phase)) (after (.envNext 0 0) (withAmp 32768
      fun e => { e with phase := .release, level := 0x3E000000#32, relRate := 0x3E000000#32 })) =
      (some ⟨0, 0x00000000, 0⟩, .idle) ∧
    (fun t => (last t, (voice0 t).amp.phase)) (after (.envNext 0 0) (withAmp 32768
      fun e => { e with phase := .release, level := 0x3E800000#32, relRate := f0, sus := f0 })) =
      (some ⟨0, 0x3E800000, 0⟩, .release) := by decide
theorem test_envRdp : resp (.envRdp 0 1) (after (.envTrig 0 1) (at' 48000 1)) = some ⟨0, 1, 0⟩ ∧
    resp (.envRdp 0 0) (withAmp 48000 fun e => { e with phase := .release, level := f0p5 }) = some ⟨0, 4, 0x3F000000⟩ := by decide

/-! ### Voice (V) -/

theorem test_vTrig : (fun u : Voice => (u.baseFreq, u.volume, u.osc.phase, u.flt.z1, u.amp.phase, u.feg.phase))
      (voice0 (after (.vTrig 0 0x44250000#32 0x3FC00000#32) (State.withVoice (at' 48000 1)
        fun u => { u with osc := { u.osc with phase := f0p5 }, flt := { u.flt with z1 := f1 } }))) =
      (0x44250000#32, f1, f0, f0, .attack, .attack) := by decide
/-- V5: zero, negative and non-finite operands, and a voice that does not exist. -/
theorem test_vTrig_illegal : resp (.vTrig 0 0x80000000#32 f1) (at' 48000 2) = some ⟨1, 0, 0⟩ ∧
    resp (.vTrig 0 0xC3DC0000#32 f1) (at' 48000 2) = some ⟨1, 0, 0⟩ ∧
    resp (.vTrig 0 f440 0x7F800000#32) (at' 48000 2) = some ⟨1, 0, 0⟩ ∧
    resp (.vTrig 2 f440 f1) (at' 48000 2) = some ⟨1, 0, 0⟩ ∧
    resp (.vTrig 0 0x00000001#32 f1) (at' 48000 2) = some ⟨0, 0, 0⟩ := by decide
/-- R191: an Idle amplitude envelope stays Idle while the other is released. -/
theorem test_vRls : (fun u : Voice => (u.amp.phase, u.feg.phase, u.feg.level)) (voice0 (after (.vRls 0)
      (State.withVoice (at' 48000 1) fun u => { u with feg := { u.feg with phase := .sustain, level := f1 } }))) =
      (.idle, .release, f1) := by decide
/-- V1, n = 0. -/
theorem test_vNext : (fun t => (last t, (voice0 t).amp.phase, (voice0 t).flt.z1, (voice0 t).flt.z2))
      (next (at' 48000 1) (execVNextWith refNum 0 (after (.vTrig 0 f440 f1) (at' 48000 1)))) =
      (some ⟨0, 0xBB805256, 0⟩, .decay, 0xBC74CB3C#32, 0xBA2D8254#32) := by decide +kernel
theorem test_vNext_idle : (fun t => (last t, voice0 t)) (after (.vNext 0) (at' 48000 1)) = (some ⟨0, 0, 0⟩, Voice.reset) := by decide
/-- V2 and V4: the exponent of the bend, and the clamp of the modulated cutoff. -/
theorem test_bend_exponent : fDiv (fMul f1 f2) f12 = 0x3E2AAAAB#32 ∧ fDiv (fMul f0p5 f2) f12 = 0x3DAAAAAB#32 ∧
    cutoffStored 32768 (modulatedCutoff { Voice.reset with baseCutoff := 0x459C4000#32, fegDepth := f1 } f1) = 0x467D70A4#32 := by
  decide
theorem test_vBend : (voice0 (after (.vBend 0 0x40400000#32) (at' 48000 1))).bend = f1 ∧
    (voice0 (after (.vBend 0 0xC0400000#32) (at' 48000 1))).bend = 0xBF800000#32 := by decide
theorem test_vBrng : (voice0 (after (.vBrng 0 0xC1400000#32) (at' 48000 1))).bendRange = 0xC1400000#32 := by decide
theorem test_vCut : (fun u : Voice => (u.baseCutoff, u.flt.cutoff)) (voice0 (after (.vCut 0 0x40A00000#32) (at' 48000 1))) =
    (0x41A00000#32, f1000) := by decide
theorem test_vDepth : (voice0 (after (.vDepth 0 f2) (at' 48000 1))).fegDepth = f1 := by decide
theorem test_vActive : resp (.vActive 0) (at' 48000 1) = some ⟨0, 0, 0⟩ ∧
    resp (.vActive 0) (after (.vTrig 0 f440 f1) (at' 48000 1)) = some ⟨0, 1, 0⟩ := by decide

/-! ### Output unit (O) -/

/-- O2: folding, with the cases that are not exact. -/
theorem test_waveFold : [0x00000000#32, 0x80000000#32, 0x3FC00000#32, 0x40400000#32, 0xC0A00000#32, 0x42C88000#32, 0x7149F2CA#32,
      0xBD450B1F#32, 0xBE72FBD1#32, 0xBF18FA36#32, 0xBF8B0A17#32, 0xC004C363#32].map waveFold =
    [0x00000000#32, 0x00000000#32, 0x3F000000#32, 0xBF800000#32, 0xBF800000#32, 0x3E800000#32, 0x3F800000#32,
      0xBD450B00#32, 0xBE72FBD0#32, 0xBF18FA38#32, 0xBF69EBD0#32, 0x3D986C60#32] := by decide
theorem test_opAlgo : (fun o : OutputUnit => (o.algo, o.pf.z1, o.pf.z2)) (after (.opAlgo 2)
      { at' 48000 1 with op := { OutputUnit.reset 48000 with pf := { (OutputUnit.reset 48000).pf with z1 := f1, z2 := f1 } } }).op =
      (.softWaveFold, f0, f0) := by decide
/-- O5: `OP.ALGO 3` is Illegal and does not reset the post filter. -/
theorem test_opAlgo_illegal : (fun t : State => (last t, t.op.pf.z1)) (after (.opAlgo 3)
      { at' 48000 1 with op := { OutputUnit.reset 48000 with pf := { (OutputUnit.reset 48000).pf with z1 := f1 } } }) =
      (some ⟨1, 0, 0⟩, f1) := by decide
theorem test_opDrive : (after (.opDrive 0x3FC00000#32) (at' 48000 1)).op.drive = f1 := by decide
/-- O5: TANH at drive 0.5, the first input 0.5; F3: the coefficients of the post filter. -/
theorem test_opProc : (fun t : State => (last t, t.op.pf.coeffs)) (next (at' 48000 1) (execOpProcWith refNum f0p5 (at' 48000 1))) =
    (some ⟨0, 0x3DD0620D, 0⟩, (⟨0x3E61772F#32, 0x3EE1772F#32, 0x3E61772F#32, 0xBE9D76DA#32, 0x3E40CA74#32⟩ : Coeffs)) := by decide +kernel
/-- O5: the amplified sample overflows and is muted. -/
theorem test_opProc_mute : (fun t : State => (last t, t.op.pf.z1, t.op.pf.z2)) (next (at' 48000 1)
      (execOpProcWith { refNum with pow100 := fun _ => f100 } 0x7F7FFFFF#32 (at' 48000 1))) =
    (some ⟨0, 0, 0⟩, f0, f0) := by decide +kernel
/-- R228: silence after reset. -/
theorem test_render : last (next (at' 48000 2) (execRenderWith refNum (at' 48000 2))) = some ⟨0, 0, 0⟩ := by decide +kernel
/-- O6, n = 0: the sum of two voices. -/
theorem test_render_sum : (renderVoices refNum 48000 (after (.vTrig 1 0x44250000#32 f0p5) (after (.vTrig 0 f440 f1) (at' 48000 2))).voices
    f0).2 = 0xBBC07B81#32 := by decide +kernel

/-! ### Host agent (M, A) -/

/-- The initial decoder. -/
def decoder0 : Decoder := (HostAgent.reset 1).decoder

/-- M1, M5: running status, with Real-Time bytes inside. -/
theorem test_midi_m1 : (decoder0.processAll 0 [0x90, 0x40, 0xF8, 0x7F, 0x41, 0xFE, 0x7F]).2 =
    [⟨.noteOn, 0x40, 0x7F⟩, ⟨.noteOn, 0x41, 0x7F⟩] := by decide
/-- M2: the listen channel. -/
theorem test_midi_m2 : (decoder0.processAll 1 [0x90, 0x45, 0x7F]).2 = [] ∧
    (decoder0.processAll 1 [0x91, 0x45, 0x7F]).2 = [⟨.noteOn, 0x45, 0x7F⟩] := by decide
/-- M4: a partial message is discarded. -/
theorem test_midi_m4 : (decoder0.processAll 0 [0x90, 0x3C, 0x90, 0x3E, 0x64]).2 = [⟨.noteOn, 0x3E, 0x64⟩] ∧
    (decoder0.processAll 0 [0x90, 0x3C, 0xB0, 0x07, 0x64]).2 = [⟨.controlChange, 0x07, 0x64⟩] := by decide
/-- M8: one-data-byte commands. -/
theorem test_midi_m8 : ((decoder0.processAll 0 [0xC0, 0x05, 0x06]).2.map fun m => (m.cmd, m.byte2)) =
    [(.programChange, 0x05), (.programChange, 0x06)] := by decide
/-- M10: system and stray bytes. -/
theorem test_midi_m10 : (decoder0.processAll 0 [0x40, 0x7F, 0xF0, 0x7E, 0x00, 0xF7, 0x90, 0x40, 0xF0, 0x7F]).2 = [] := by decide
/-- M6: pitch bend values. -/
theorem test_midi_m6 : normalizedBend 0x00 0x40 = f0 ∧ normalizedBend 0x7F 0x7F = 0x3F7FF800#32 ∧
    normalizedBend 0x00 0x00 = 0xBF800000#32 ∧ normalizedBend 0x00 0x60 = f0p5 := by decide
/-- M6: one `V.BEND` per voice. -/
theorem test_midi_m6_words : ((at' 48000 2).dispatch ⟨.pitchBend, 0x7F, 0x7F⟩).pending =
    [⟨0x43000000, 0x3F7FF800, 0⟩, ⟨0x43010000, 0x3F7FF800, 0⟩] := by decide
/-- M3: Note On with velocity 0, after note 64 took slot 0, is `V.RLS 0`. -/
theorem test_midi_m3 : (((at' 48000 2).allocateNote 64 .release).dispatch ⟨.noteOn, 64, 0⟩).pending =
    [⟨0x41000000, 0, 0⟩, ⟨0x41000000, 0, 0⟩] := by decide
/-- M7, M9: control change below 120, channel mode, poly aftertouch without a slot. -/
theorem test_midi_m7 : ((at' 48000 2).dispatch ⟨.controlChange, 119, 16⟩).host.calls = [.controlChange 0 119 16 ⟨[none, none], 1⟩] ∧
    ((at' 48000 2).dispatch ⟨.controlChange, 120, 0⟩).host.calls = [] ∧
    ((at' 48000 2).dispatch ⟨.polyAftertouch, 48, 80⟩).host.calls = [] ∧
    (((at' 48000 2).allocateNote 64 .release).dispatch ⟨.polyAftertouch, 64, 80⟩).host.calls = [.polyAftertouch 0 64 80 0] := by
  decide
/-- The reference values of the host's numbers (part 2.8 of spec/95). -/
theorem test_host_reference : ([0, 21, 60, 62, 64, 65, 67, 69, 71, 72, 127].map fun n => roundedFrequency (BitVec.ofNat 8 n)) =
    [0x4102D013#32, 0x41DC0000#32, 0x4382D013#32, 0x4392D517#32, 0x43A4D054#32, 0x43AE9D37#32, 0x43C3FF6A#32, 0x43DC0000#32,
      0x43F6F110#32, 0x4402D013#32, 0x4643FF6A#32] ∧
    ([1, 64, 100, 127].map fun v => isVelocityVolume (BitVec.ofNat 8 v) (fDiv (fOfInt v) f127) &&
      (fDiv (fOfInt v) f127 ∈ [0x3C010204#32, 0x3F010204#32, 0x3F499326#32, 0x3F800000#32])) = [true, true, true, true] := by
  decide +kernel
/-- R267: what is not the note's frequency is not admitted, so the neighbouring note's is not. -/
theorem test_host_precision : isNoteFrequency 69 0x43DC0001#32 = true ∧ isNoteFrequency 69 0x43E914F6#32 = false ∧
    isNoteFrequency 69 f0 = false ∧ isNoteFrequency 69 0xC3DC0000#32 = false ∧ isVelocityVolume 127 0x3F7FFFFF#32 = true ∧
    isVelocityVolume 127 0x3F7E0000#32 = false := by decide +kernel
/-- The host with the given slots and last-stolen index, in the given block. -/
def withSlots (s : State) (slots : List (Option Byte)) (lastStolen : Nat) : State :=
  { s with host := { s.host with alloc := ⟨slots, lastStolen⟩ } }

/-- A1, A2, A3: a free slot, the same slot again, the next free slot. -/
theorem test_alloc_a1 : ((at' 48000 2).allocateNote 60 .release).host.alloc.slots = [some 60, none] ∧
    ((withSlots (at' 48000 2) [some 60, none] 1).allocateNote 60 .release).host.alloc.slots = [some 60, none] ∧
    ((withSlots (at' 48000 2) [some 60, none] 1).allocateNote 62 .release).host.alloc.slots = [some 60, some 62] := by decide

/-- The host's part after `k` steps of an allocation. -/
def allocated (k : Nat) (s : State) (note : Byte) : List (Option Byte) × Nat × List Command :=
  (fun t : State => (t.host.alloc.slots, t.host.alloc.lastStolen, t.pending)) (next s (runSteps k (s.allocateNote note .release)))

/-- A4: both voices active, round-robin takes slot 0. -/
theorem test_alloc_a4 : allocated 4 (withSlots (after (.envTrig 1 0) (after (.envTrig 0 0) (at' 48000 2))) [some 60, some 62] 1) 64 =
    ([some 64, some 62], 0, [⟨0x41000000, 0, 0⟩, ⟨0x41000000, 0, 0⟩]) := by decide
/-- A6: voice 0 active, voice 1 idle: the idle one is taken, and the last-stolen index stays. -/
theorem test_alloc_a6 : allocated 4 (withSlots (after (.envTrig 0 0) (at' 48000 2)) [some 64, some 65] 1) 67 =
    ([some 64, some 67], 1, [⟨0x41010000, 0, 0⟩, ⟨0x41010000, 0, 0⟩]) := by decide

/-- A state whose Control Change callback is running. -/
def inCallback (s : State) : State := s.dispatch ⟨.controlChange, 7, 100⟩

/-- R272, R291: a callback allocates: the free slot is its answer, and nothing is presented. -/
theorem test_callback_allocates : (fun t : State => (t.host.alloc.slots, t.host.seen, t.host.task, t.pending))
    ((inCallback (at' 48000 2)).runCallback (some (.allocate 60))) = ([some 60, none], [.slot 0], .inCallback false, []) := by decide
/-- R291 (d), R272: a callback steals: the stolen voice is released, and the slot is its answer. -/
theorem test_callback_steals : (fun t : State => (t.host.alloc.slots, t.host.seen, t.host.task, t.pending))
    ((inCallback (withSlots (after (.envTrig 0 0) (at' 48000 1)) [some 60] 0)).respond 1 0 |>.scanSlot 64 0 .handOver) =
      ([some 64], [.slot 0], .inCallback false, [⟨0x41000000, 0, 0⟩]) := by decide
/-- R270: with one voice a callback commands that voice, and allocates nothing. -/
theorem test_callback_permits : callPermits (.polyAftertouch 0 64 80 1) (.command (.vCut 1 f440)) = true ∧
    callPermits (.polyAftertouch 0 64 80 1) (.command (.vCut 0 f440)) = false ∧
    callPermits (.polyAftertouch 0 64 80 1) (.allocate 60) = false ∧
    callPermits (.programChange 0 5 ⟨[none], 0⟩) (.allocate 127) = true ∧
    callPermits (.programChange 0 5 ⟨[none], 0⟩) (.allocate 128) = false := by decide
/-- R272: a callback hears the response of its command, and returns. -/
theorem test_callback_hears : (((inCallback (at' 48000 2)).respond 1 0).hearResponse true).host.seen = [.response ⟨0, 1, 0⟩] ∧
    ((inCallback (at' 48000 2)).runCallback none).host.task = .ready := by decide

/-! ### Witnesses: for every statement with hypotheses, values that meet all of them -/

theorem oscillator_reset_inv : Voice.reset.osc.Inv where
  phase := by decide
  canonical := by decide
  entries := by decide +kernel

theorem filter_reset_inv (num : NumFns) : Voice.reset.flt.Inv num 8000 where
  cutoff := by decide
  q := by decide
  cache := fun h => nomatch h

theorem envelope_reset_inv : Envelope.reset.Inv 8000 where
  atk := by decide
  dcy := by decide
  rel := by decide
  sus := by decide
  level := by decide
  idle := fun _ => rfl
  rates := by unfold Envelope.RatesInv; decide

theorem voice_reset_inv (num : NumFns) : Voice.reset.Inv num 8000 where
  osc := oscillator_reset_inv
  flt := filter_reset_inv num
  amp := envelope_reset_inv
  feg := envelope_reset_inv
  baseFreq := by decide
  volume := by decide
  bend := by decide
  bendRange := by decide
  baseCutoff := by decide
  fegDepth := by decide

theorem output_reset_inv (num : NumFns) : (OutputUnit.reset 8000).Inv num 8000 where
  drive := by decide
  fixed := ⟨rfl, rfl, rfl⟩
  pf := ⟨by decide, by decide, fun h => nomatch h⟩

/-- The reset state at 8000 Hz with one voice meets the invariant of the block. -/
theorem blockInv_witness : (at' 8000 1).BlockInv where
  legal := ⟨by decide, by decide, by decide, by decide, by decide⟩
  voices := by
    intro u hu
    have : u = Voice.reset := by simpa [at', State.resetAt] using hu
    subst this
    exact voice_reset_inv _
  op := output_reset_inv _
  status := by intro k _; simp [at', State.resetAt]

/-- A host with every slot taken, at 8000 Hz with two voices. -/
def fullHost : State := withSlots (at' 8000 2) [some 60, some 62] 1

theorem fullHost_inv : fullHost.HostInv where
  alloc := ⟨by decide, by decide, by
    intro j k note hj hk
    have hj2 : j < 2 := by
      by_contra h
      have : fullHost.host.alloc.slots[j]? = none := List.getElem?_eq_none (by simp [fullHost, withSlots]; omega)
      simp [this] at hj
    have hk2 : k < 2 := by
      by_contra h
      have : fullHost.host.alloc.slots[k]? = none := List.getElem?_eq_none (by simp [fullHost, withSlots]; omega)
      simp [this] at hk
    simp only [fullHost, withSlots] at hj hk
    rcases Nat.lt_or_ge j 1 with h1 | h1 <;> rcases Nat.lt_or_ge k 1 with h2 | h2
    · omega
    · obtain rfl : j = 0 := by omega
      obtain rfl : k = 1 := by omega
      simp at hj hk; subst hj; exact absurd hk (by decide)
    · obtain rfl : j = 1 := by omega
      obtain rfl : k = 0 := by omega
      simp at hj hk; subst hj; exact absurd hk (by decide)
    · omega, by
    intro k note h
    have : some note ∈ fullHost.host.alloc.slots := List.mem_of_getElem? h
    simp only [fullHost, withSlots, List.mem_cons, Option.some.injEq, List.not_mem_nil, or_false] at this
    rcases this with rfl | rfl <;> decide⟩
  decoder := ⟨fun h => absurd rfl h, by decide⟩
  scanning := by intro note k act h; simp [fullHost, withSlots, at', State.resetAt, HostAgent.reset] at h
  running := by intro due h; simp [fullHost, withSlots, at', State.resetAt, HostAgent.reset] at h

/-- The admitted record that answers constants where R13 allows them. -/
theorem admitted_witness : ∃ num : NumFns, num.Admitted := ⟨NumFns.machine, NumFns.machine_admitted⟩

theorem test_witness_StepRunsDecodedCommand :
    (∃ s c rest i, State.pending s = c :: rest ∧ decode c = .command i) ∧
    (∃ s c rest why, State.pending s = c :: rest ∧ decode c = .illegal why) ∧ (∃ s, State.pending s = []) ∧
    ∃ n w i, decodeTableWord n w = some i :=
  ⟨⟨{ at' 8000 1 with pending := [⟨0, 0, 0⟩] }, _, _, _, rfl, test_decode_nop⟩,
    ⟨{ at' 8000 1 with pending := [⟨0x02000000, 0, 0⟩] }, _, _, _, rfl, test_decode_illegal.1⟩, ⟨at' 8000 1, rfl⟩,
    ⟨96, 0x3E80000010000000, _, test_tableWord.1⟩⟩

/-- EveryStepAnswers, StatusRegister, PostFilterNeverChanges, BlockInvariantKept, HostInvariantKept: a step with a command,
a step of the host without and with a reset. -/
theorem test_witness_steps :
    (∃ s c rest t, State.pending s = c :: rest ∧ step s = .next t) ∧
    (∃ s t, State.pending s = [] ∧ s.host.events = [] ∧ step s = .next t) ∧
    ∃ s t rest, State.pending s = [] ∧ s.host.task = .ready ∧ s.host.events = .blockReset :: rest ∧ step s = .next t :=
  ⟨⟨{ at' 8000 1 with pending := [⟨0, 0, 0⟩] }, _, _, _, rfl, rfl⟩, ⟨at' 8000 1, _, rfl, rfl, rfl⟩,
    ⟨{ at' 8000 1 with host := { HostAgent.reset 1 with events := [.blockReset] } }, _, [], rfl, rfl, rfl, rfl⟩⟩

theorem test_witness_BlockInvariantKept : ∃ s t, State.BlockInv s ∧ step s = .next t := ⟨at' 8000 1, _, blockInv_witness, rfl⟩
theorem test_witness_HostInvariantKept : ∃ s t, State.HostInv s ∧ step s = .next t := ⟨fullHost, _, fullHost_inv, rfl⟩
theorem test_witness_status : statusReservedZero (at' 8000 1).status ∧ statusReservedZero 1 :=
  ⟨blockInv_witness.status, fun k hk => by simp [BitVec.getLsbD_one]; omega⟩

/-- Each row of the table of R312, by raw words (program P4), with the nearest legal word beside it. -/
theorem test_illegalByTable :
    ([⟨0xFF000000, 0, 0⟩, ⟨0x10000001, 0, 0⟩, ⟨0x60010000, 0, 0⟩, ⟨0x11000100, 0, 0⟩, ⟨0x11020000, 0, 0⟩, ⟨0x37000200, 0, 0⟩,
      ⟨0x20000500, 0, 0⟩, ⟨0x50000300, 0, 0⟩, ⟨0x51000000, 0x7F800000, 0⟩, ⟨0x40000000, 0x43DC0000, 0xFFC00000⟩,
      ⟨0x40000000, 0x80000000, 0⟩] : List Command).all (illegalByTable 2) = true ∧
    ([⟨0x11010000, 0, 0⟩, ⟨0x37000100, 0, 0⟩, ⟨0x20000400, 0, 0⟩, ⟨0x50000200, 0, 0⟩, ⟨0x51000000, 0x7F7FFFFF, 0⟩,
      ⟨0x1300FF00, 0, 0⟩, ⟨0x40000000, 0x00000001, 0x80000000⟩, ⟨0x60000000, 0x7F800000, 0⟩] : List Command).any
      (illegalByTable 2) = false := by decide

theorem test_witness_IllegalCausesAndEffect :
    (∃ s c rest, State.pending s = c :: rest ∧ illegalByTable s.nVoices c = true) ∧
    ∃ s c rest, State.pending s = c :: rest ∧ illegalByTable s.nVoices c = false :=
  ⟨⟨{ at' 8000 2 with pending := [⟨0xFF000000, 0, 0⟩] }, _, _, rfl, by decide⟩,
    ⟨{ at' 8000 2 with pending := [⟨0x11010000, 0, 0⟩] }, _, _, rfl, by decide⟩⟩

theorem test_witness_LegalCompletes : legalFor 2 (.vTrig 1 f440 f1) = true ∧ legalFor 2 (.vTrig 2 f440 f1) = false ∧
    legalFor 1 (.envSetS 0 1 f0) = true ∧ legalFor 1 (.envSetS 0 2 f0) = false := by decide

theorem test_witness_voice : (at' 8000 2).voices[(1 : BitVec 8).toNat]? = some Voice.reset ∧
    fFinite (0x7F7FFFFF#32) = true ∧ fFinite (0x80000000#32) = true ∧ fFinite (0x00000001#32) = true := by decide

/-- EnvSel: both envelope numbers; FilterMode: the first and the last mode; Algo: the last index and the first refused. -/
theorem test_witness_selectors : EnvSel.ofCode? 0 = some .amp ∧ EnvSel.ofCode? 1 = some .feg ∧
    FilterMode.ofCode? 0 = some .lowpass ∧ FilterMode.ofCode? 4 = some .allpass ∧ Algo.ofCode? 2 = some .softWaveFold ∧
    2 < (3 : BitVec 8).toNat := by decide

theorem test_witness_OnlyOscWtWritesTables : ∃ i s t, exec i s = .next t := ⟨.render, at' 8000 1, _, rfl⟩

theorem test_witness_OscWtTwiceIsOnce : ∃ s v u shape t, (State.voices s)[BitVec.toNat v]? = some u ∧ Memory.wf u.osc.wt ∧
    fFinite shape = true ∧ exec (.oscWt v shape) s = .next t :=
  ⟨at' 8000 1, 0, Voice.reset, f1, _, rfl, oscillator_reset_inv.canonical, by decide, rfl⟩

theorem test_witness_OscNextResult : phaseInRange f0 = true ∧ phaseInRange 0x3F7FFFFF#32 = true ∧
    phaseInRange f1 = false ∧ phaseInRange 0x80000000#32 = false ∧ fFinite f440 = true ∧ fFinite fInf = false ∧
    fFinite 0x7FC00000#32 = false := by decide

theorem test_witness_OscRstZeroesPhase : ∃ s v u t f, (State.voices s)[BitVec.toNat v]? = some u ∧ u.osc.Inv ∧
    fFinite f = true ∧ exec (.oscRst v) s = .next t :=
  ⟨at' 8000 1, 0, Voice.reset, _, f440, rfl, oscillator_reset_inv, by decide, rfl⟩

theorem test_witness_FilterCommands : (at' 8000 1).params.Legal (at' 8000 1).nVoices ∧
    between cutMin (cutMax 8000) Voice.reset.flt.cutoff = true ∧ between qMin qMax Voice.reset.flt.q = true :=
  ⟨blockInv_witness.legal, by decide, by decide⟩

/-- CacheInv: a dirty filter and a clean one. -/
theorem test_witness_CacheInv (num : NumFns) : Voice.reset.flt.CacheInv num 8000 ∧
    (fltRecompute num 8000 Voice.reset.flt).CacheInv num 8000 ∧ (fltRecompute num 8000 Voice.reset.flt).dirty = false :=
  ⟨fun h => (by simp [Voice.reset, Biquad.reset] at h), fun _ => rfl, rfl⟩

/-- CoefficientsFinite, RatesNotNegative: the ends of the ranges. -/
theorem test_witness_ranges : between cutMin (cutMax 8000) cutMin = true ∧ between cutMin (cutMax 8000) (cutMax 8000) = true ∧
    between cutMin (cutMax 16777215) (cutMax 16777215) = true ∧ between qMin qMax qMin = true ∧
    between qMin qMax qMax = true ∧ inUnit f0 = true ∧ inUnit f1 = true ∧ inUnit 0x80000000#32 = true := by
  decide +kernel

theorem test_witness_SilentStability : ∃ (num : NumFns) (f : Biquad) (xs : List S), num.Admitted ∧ f.Inv num 8000 ∧
    (∀ x ∈ xs, fIsZero x = true) ∧ xs = [f0, 0x80000000#32] :=
  ⟨NumFns.machine, Voice.reset.flt, [f0, 0x80000000#32], NumFns.machine_admitted, filter_reset_inv _,
    (by intro x hx; simp only [List.mem_cons, List.not_mem_nil, or_false] at hx; rcases hx with rfl | rfl <;> decide), rfl⟩

/-- EnvelopeNextByPhase: a level on each side of each boundary. -/
theorem test_witness_EnvelopeNextByPhase :
    fGe (fAdd 0x3F400000#32 0x3E800000#32) f1 = true ∧ fGe (fAdd f0p5 0x3E800000#32) f1 = false ∧
    fLe (fSub 0x3F200000#32 0x3E000000#32) f0p5 = true ∧ fLe (fSub f1 0x3E000000#32) f0p5 = false ∧
    fLe (fSub 0x3E000000#32 0x3E000000#32) f0 = true ∧ fLe (fSub f0p5 0x3E000000#32) f0 = false := by decide

theorem test_witness_OnlyTriggersLeaveIdle : ∃ (i : Instr) (s t : State) (u u' : Voice), exec i s = .next t ∧
    s.voices[0]? = some u ∧ t.voices[0]? = some u' ∧ (u.env .feg).phase = .idle ∧ (u'.env .feg).phase ≠ .idle :=
  ⟨.envTrig 0 1, at' 8000 1, _, Voice.reset, _, rfl, rfl, rfl, rfl, by decide⟩

theorem test_witness_StuckRelease : ∃ e : Envelope, e.Inv 8000 ∧ fIsZero e.sus = true ∧ fGt e.rel f0 = true ∧
    e.phase = .release ∧ fGt e.level f0 = true :=
  ⟨{ Envelope.reset with sus := f0, rel := f1, relRate := f0, level := 0x3E800000#32, phase := .release },
    ⟨by decide, by decide, by decide, by decide, by decide, (fun h => nomatch h), by unfold Envelope.RatesInv; decide⟩,
    by decide, by decide, rfl, by decide⟩

theorem test_witness_VoiceTriggerResult : fGt f440 f0 = true ∧ fGt 0x00000001#32 f0 = true ∧ fGt f0 f0 = false ∧
    fGt 0x80000000#32 f0 = false := by decide

/-- VoiceNextResult, EnvelopeTriggerRelease, VoiceReleaseResult: an idle and an active voice. -/
theorem test_witness_phases : Voice.reset.amp.phase = .idle ∧
    (voice0 (after (.vTrig 0 f440 f1) (at' 8000 1))).amp.phase ≠ .idle := by decide

/-- VoiceNextResult: an active voice whose bent frequency is not finite. -/
theorem test_witness_VoiceNextResult_notFinite : ∃ u : Voice, u.amp.phase ≠ .idle ∧
    fFinite (fMul u.baseFreq (NumFns.machine.exp2 (fDiv (fMul u.bend u.bendRange) f12))) = false :=
  ⟨{ Voice.reset with baseFreq := fInf, amp := { Envelope.reset with phase := .attack } }, by decide, by
    have h : fDiv (fMul Voice.reset.bend Voice.reset.bendRange) f12 = f0 := by decide
    show fFinite (fMul fInf (NumFns.machine.exp2 (fDiv (fMul Voice.reset.bend Voice.reset.bendRange) f12))) = false
    rw [h, NumFns.machine_admitted.p2.1]; decide⟩

theorem test_witness_BentFrequency : ∃ (num : NumFns) (u u' : Voice), num.Admitted ∧ u.Inv num 8000 ∧
    fIsZero u.bend = true ∧ u'.Inv num 8000 ∧ fIsZero u'.bendRange = true ∧ fIsZero u'.bend = false :=
  ⟨NumFns.machine, Voice.reset, { Voice.reset with bend := f1, bendRange := f0 }, NumFns.machine_admitted,
    voice_reset_inv _, by decide,
    ⟨oscillator_reset_inv, filter_reset_inv _, envelope_reset_inv, envelope_reset_inv, by decide, by decide, by decide,
      by decide, by decide, by decide⟩, by decide, by decide⟩

theorem test_witness_ModulationUpwardOnly : ∃ (num : NumFns) (u : Voice) (e : S), u.Inv num 8000 ∧ inUnit e = true :=
  ⟨NumFns.machine, Voice.reset, f1, voice_reset_inv _, by decide⟩

theorem test_witness_VoiceUnitsShareNothing : ∃ (i : Instr) (v : BitVec 8) (s t : State), i.voiceField = some v ∧
    t.params = s.params ∧ t.voices[v.toNat]? = s.voices[v.toNat]? ∧ t.op ≠ s.op ∧ t.voices ≠ s.voices :=
  ⟨.vNext 0, 0, at' 8000 2, after (.vTrig 1 f440 f1) (after (.opDrive f1) (at' 8000 2)), rfl, by decide, by decide, by decide,
    by decide⟩

theorem test_witness_GainAndShaperBounds : (∃ num : NumFns, num.Admitted) ∧ inUnit f0 = true ∧ inUnit f1 = true ∧
    fFinite (fMul fHalfPi f1) = true ∧ fIsZero 0x80000000#32 = true :=
  ⟨admitted_witness, by decide, by decide, by decide, by decide⟩

theorem test_witness_RenderEqualsBuffer :
    ∃ s : State, s.pending = List.replicate 2 (encode .render) ∧ s.voices ≠ [] ∧ s.op.drive = f0p5 :=
  ⟨{ at' 8000 1 with pending := List.replicate 2 (encode .render) }, rfl, by decide, rfl⟩

theorem test_witness_SilenceInSilenceOut : ∃ s : State, s.BlockInv ∧ (∀ u ∈ s.voices, u.amp.phase = .idle) ∧
    s.op.pf.z1 = f0 ∧ s.op.pf.z2 = f0 ∧ s.pending = List.replicate 2 (encode .render) :=
  ⟨{ at' 8000 1 with pending := List.replicate 2 (encode .render) },
    ⟨blockInv_witness.legal, blockInv_witness.voices, blockInv_witness.op, blockInv_witness.status⟩, by decide, rfl, rfl, rfl⟩

theorem test_witness_PostFilterNeverChanges (num : NumFns) : ∃ (s t : State), step s = .next t ∧
    (fltRecompute num 8000 (OutputUnit.reset 8000).pf).dirty = false ∧ s.op.pf.dirty = false :=
  ⟨{ at' 8000 1 with op := { OutputUnit.reset 8000 with pf := { (OutputUnit.reset 8000).pf with dirty := false } } }, _, rfl,
    rfl, rfl⟩

/-- ResetStateIsUsable: the smallest and the largest parameters. -/
theorem test_witness_Legal : Params.Legal ⟨8000, 0⟩ 1 ∧ Params.Legal ⟨16777215, 15⟩ 256 :=
  ⟨⟨by decide, by decide, by decide, by decide, by decide⟩, ⟨by decide, by decide, by decide, by decide, by decide⟩⟩

theorem test_witness_BlockIgnoresHost : ∃ s t : State, SameBlock s t ∧ s.host ≠ t.host ∧ s.pending ≠ t.pending :=
  ⟨at' 8000 2, { fullHost with pending := [⟨0, 0, 0⟩] }, ⟨rfl, rfl, rfl, rfl⟩, by decide, by decide⟩

theorem test_witness_HostReadsOnlyResponses : ∃ s t : State, s.pending = [] ∧ t.pending = [] ∧ t.params = s.params ∧
    t.nVoices = s.nVoices ∧ t.host = s.host ∧ t.responses.head? = s.responses.head? ∧ t.voices ≠ s.voices :=
  ⟨at' 8000 1, { after (.vTrig 0 f440 f1) (at' 8000 1) with responses := [] }, rfl, rfl, rfl, rfl, rfl, rfl, by decide⟩

/-- RunningStatus: the five commands with two data bytes, the two with one; boundary data bytes. -/
theorem test_witness_RunningStatus :
    (MidiCommand.ofNibble 0x8, MidiCommand.ofNibble 0x9, MidiCommand.ofNibble 0xA, MidiCommand.ofNibble 0xB,
      MidiCommand.ofNibble 0xE) =
      (some .noteOff, some .noteOn, some .polyAftertouch, some .controlChange, some .pitchBend) ∧
    (MidiCommand.ofNibble 0xC, MidiCommand.ofNibble 0xD) = (some .programChange, some .channelPressure) ∧
    MidiCommand.pitchBend ≠ .programChange ∧ MidiCommand.pitchBend ≠ .channelPressure ∧
    (0x7F : Byte).toNat < 0x80 ∧ (0x00 : Byte).toNat < 0x80 := by decide

theorem test_witness_StatusByteDiscardsPartial : 0x80 ≤ (0x80 : Byte).toNat ∧ (0xF7 : Byte).toNat < 0xF8 ∧
    (0x91 : Byte).toNat % 16 ≠ 0 ∧ 0xF0 ≤ (0xF0 : Byte).toNat := by decide

/-- NoteTakesItsSlot: a note with a slot, and a note that finds a free one. -/
theorem test_witness_NoteTakesItsSlot :
    (fullHost.host.alloc.slots[1]? = some (some 62) ∧ (∀ j, j < 1 → fullHost.host.alloc.slots[j]? ≠ some (some 62)) ∧
      fullHost.host.task = .ready ∧ (inCallback fullHost).host.task = .inCallback false) ∧
    ((∀ j : Nat, (at' 8000 2).host.alloc.slots[j]? ≠ some (some 62)) ∧ (at' 8000 2).host.alloc.slots[0]? = some none ∧
      (∀ j, j < 0 → (at' 8000 2).host.alloc.slots[j]? ≠ some none) ∧ (at' 8000 2).host.task = .ready) ∧
    (0 : Byte).toNat < 128 ∧ (127 : Byte).toNat < 128 :=
  ⟨by decide, ⟨(Allocator.findAllocated_eq_none _ _).mp (by decide), by decide, by decide, by decide⟩, by decide, by decide⟩

/-- StealsFirstInactiveElseRoundRobin: full slots with voice 1 the first inactive one, and with both voices active. -/
theorem test_witness_Steals : ∃ s t : State,
    (s.HostInv ∧ 1 ≤ s.nVoices ∧ s.nVoices ≤ 256 ∧ s.pending = [] ∧
      (∀ j : Nat, s.host.alloc.slots[j]? ≠ some (some 67)) ∧ (∀ j : Nat, s.host.alloc.slots[j]? ≠ some none) ∧ (s.voices.map voiceIsActive) = [true, false]) ∧
    (t.HostInv ∧ 1 ≤ t.nVoices ∧ t.nVoices ≤ 256 ∧ t.pending = [] ∧
      (∀ j : Nat, t.host.alloc.slots[j]? ≠ some (some 67)) ∧ (∀ j : Nat, t.host.alloc.slots[j]? ≠ some none) ∧ ∀ u ∈ t.voices, voiceIsActive u = true) :=
  ⟨after (.envTrig 0 0) fullHost, after (.envTrig 1 0) (after (.envTrig 0 0) fullHost),
    ⟨⟨fullHost_inv.alloc, fullHost_inv.decoder, fullHost_inv.scanning, fullHost_inv.running⟩, by decide, by decide, rfl,
      (Allocator.findAllocated_eq_none _ _).mp (by decide), (Allocator.firstFree_eq_none _).mp (by decide), by decide⟩,
    ⟨fullHost_inv.alloc, fullHost_inv.decoder, fullHost_inv.scanning, fullHost_inv.running⟩, by decide, by decide, rfl,
    (Allocator.findAllocated_eq_none _ _).mp (by decide), (Allocator.firstFree_eq_none _).mp (by decide), by decide⟩

/-- OtherHostInputs: controllers 119 and 120, a note with a slot and one without. -/
theorem test_witness_OtherHostInputs : (119 : Byte).toNat < 120 ∧ 120 ≤ (120 : Byte).toNat ∧
    fullHost.host.alloc.slots[0]? = some (some 60) ∧ (∀ j : Nat, fullHost.host.alloc.slots[j]? ≠ some (some 61)) :=
  ⟨by decide, by decide, by decide, (Allocator.findAllocated_eq_none _ _).mp (by decide)⟩

/-- The initial host with these inputs waiting. -/
def withEvents (evs : List HostEvent) : State := { at' 8000 2 with host := { HostAgent.reset 2 with events := evs } }

/-- OtherHostInputs: no input, a byte that completes no message, one that does, and a request for frames. -/
theorem test_witness_hostSteps :
    (∀ evs, (withEvents evs).pending = [] ∧ (withEvents evs).host.task = .ready ∧ (withEvents evs).host.events = evs) ∧
    (decoder0.process 0 0x90).2 = none ∧
    ((⟨.need1Byte, some .noteOn, 60⟩ : Decoder).process 0 100).2 = some ⟨.noteOn, 60, 100⟩ :=
  ⟨fun _ => ⟨rfl, rfl, rfl⟩, by decide, by decide⟩
/-- R277: a request for two frames; R262: a Real-Time byte; the event is taken off. -/
theorem test_host_step : (fun t : State => (t.pending, t.host.events)) (next (at' 8000 2) (step (withEvents [.frames 2, .midi 0xF8]))) =
      ([⟨0x60000000, 0, 0⟩, ⟨0x60000000, 0, 0⟩], [.midi 0xF8]) ∧
    next (at' 8000 2) (step (withEvents [.midi 0xF8])) = withEvents [] := by decide

/-- CallbackMoves: a callback of each kind under way, with and without a response due. -/
theorem test_witness_CallbackMoves : (∃ (s : State) (call : HostCall) (earlier : List HostCall), s.pending = [] ∧
      s.host.task = .inCallback false ∧ s.host.calls = call :: earlier ∧ s.HostInv) ∧
    ∃ (s : State) (call : HostCall) (earlier : List HostCall), s.pending = [] ∧ s.host.task = .inCallback true ∧
      s.host.calls = call :: earlier ∧ s.responses ≠ [] ∧ call = .polyAftertouch 0 60 80 0 :=
  ⟨⟨inCallback fullHost, _, _, rfl, rfl, rfl, fullHost_inv.alloc, fullHost_inv.decoder, (fun _ _ _ h => nomatch h),
      fun _ _ h => nomatch h⟩,
    ⟨{ (fullHost.dispatch ⟨.polyAftertouch, 60, 80⟩).respond 0 0 with
        host := { (fullHost.dispatch ⟨.polyAftertouch, 60, 80⟩).host with task := .inCallback true } },
      _, _, rfl, rfl, rfl, by simp, rfl⟩⟩

/-- PitchBendReachesEveryVoice: the ends of the data bytes. -/
theorem test_witness_PitchBend : (0x7F : Byte).toNat < 128 ∧ (0x00 : Byte).toNat < 128 ∧ (0x40 : Byte).toNat < 128 := by decide

end Sys2Proof.Tests
end

/-!
PROOFS. The step (R18, R67, R83, R84): a pending command is taken, decoded and executed, and it gives one response.
-/

namespace Sys2Proof.Machine

/-! ### One step of the machine -/

theorem step_of_pending {s : State} {c : Command} {rest : List Command} (h : s.pending = c :: rest) :
    step s = execCommand c { s with pending := rest } := by
  unfold step; rw [h]

theorem step_of_no_pending {s : State} (h : s.pending = []) : step s = .next s.hostMove := by
  unfold step; rw [h]

theorem execCommand_of_command {c : Command} {i : Instr} (h : decode c = .command i) (s : State) :
    execCommand c s = exec i s := by
  unfold execCommand; rw [h]

theorem execCommand_of_illegal {c : Command} {why : DecodeError} (h : decode c = .illegal why) (s : State) :
    execCommand c s = .next s.raiseIllegal := by
  unfold execCommand; rw [h]

theorem Decoded.toOption_eq_some {d : Decoded} {i : Instr} : d.toOption = some i ↔ d = .command i := by
  cases d <;> simp [Decoded.toOption]

/-- A presented table word is the next command, and what was pending stands behind it (log 7). -/
theorem step_withFetchWord (s : State) (nbits w : Nat) :
    step (s.withFetchWord nbits w) = execCommand (tableCommand nbits w) s :=
  step_of_pending rfl

end Sys2Proof.Machine

namespace Sys2Proof.Proofs

open Sys2Proof.Machine

/-- Settles O4: the cases of `step` and of `execCommand`. -/
theorem stepRunsDecodedCommand : Obligations.StepRunsDecodedCommand := by
  refine ⟨fun s c rest i hp hd => ?_, fun s c rest why hp hd => ?_, fun s hp => step_of_no_pending hp,
    fun s nbits w i hd => ?_⟩
  · rw [step_of_pending hp, execCommand_of_command hd]
  · rw [step_of_pending hp, execCommand_of_illegal hd]; rfl
  · rw [step_withFetchWord, execCommand_of_command (Decoded.toOption_eq_some.mp hd)]

end Sys2Proof.Proofs

namespace Sys2Proof.Machine

/-! ### What a command does, by the checks of R84 -/

/-- The outcome of a command that passes every check: it responds with `RS = 0`, changes no status bit, and changes nothing
outside the block (R84 step 8). -/
def Completes (s : State) (o : Host.Outcome State Fault Refusal) : Prop :=
  ∃ t r0 r1, o = .next t ∧ t.responses = ⟨0, r0, r1⟩ :: s.responses ∧ t.status = s.status ∧ t.nVoices = s.nVoices ∧
    SameOutside s t

theorem Completes.respond {s t : State} (r0 r1 : BitVec 32) (hr : t.responses = s.responses) (hs : t.status = s.status)
    (hn : t.nVoices = s.nVoices) (ho : SameOutside s t) : Completes s (.next (t.respond r0 r1)) :=
  ⟨_, r0, r1, rfl, by rw [respond_responses, hr], hs, hn, ⟨ho.params, ho.host, ho.pending⟩⟩

theorem onVoice_completes {s : State} {v : BitVec 8} (hv : v.toNat < s.nVoices)
    (f : Voice → Voice × BitVec 32 × BitVec 32) : Completes s (s.onVoice v true f) := by
  obtain ⟨u, hu⟩ : ∃ u, s.voice? v = some u := by
    rw [← Option.ne_none_iff_exists']
    exact fun h => absurd ((s.voice?_eq_none v).mp h) (by omega)
  rw [State.onVoice_legal hu]
  exact Completes.respond _ _ rfl rfl (by simp [State.nVoices]) ⟨rfl, rfl, rfl⟩

/-- An envelope command is a voice command: check 5 of R84 refuses it like its other checks. -/
theorem onEnv_eq_onVoice (s : State) (v e : BitVec 8) (legal : Bool) (f : Envelope → Envelope × BitVec 32 × BitVec 32) :
    ∃ g, s.onEnv v e legal f = s.onVoice v (decide (e.toNat ≤ 1) && legal) g := by
  unfold State.onEnv
  split
  · rename_i he
    rw [decide_eq_false ((EnvSel.ofCode?_eq_none e).mp he), Bool.false_and]
    exact ⟨fun u => (u, 0, 0), (State.onVoice_illegal (.inr rfl) _).symm⟩
  · rename_i sel he
    rw [decide_eq_true (not_not.mp ((EnvSel.ofCode?_eq_none e).not.mp (by simp [he]))), Bool.true_and]
    exact ⟨_, rfl⟩

theorem execFltMode_eq_onVoice (v mode : BitVec 8) (s : State) :
    ∃ g, execFltMode v mode s = s.onVoice v (decide (mode.toNat ≤ 4)) g := by
  unfold execFltMode
  split
  · rename_i hm
    rw [decide_eq_false ((FilterMode.ofCode?_eq_none mode).mp hm)]
    exact ⟨fun u => (u, 0, 0), (State.onVoice_illegal (.inr rfl) _).symm⟩
  · rename_i hm
    rw [decide_eq_true (not_not.mp ((FilterMode.ofCode?_eq_none mode).not.mp (by simp [hm])))]
    exact ⟨_, rfl⟩

theorem wellFormed_eq (i : Instr) : i.wellFormed = (i.unitInRange && i.operandsFinite && i.frequencyPositive) := rfl

/-- The meaning of a command with a voice operand is a command on that voice unit, legal by checks 5 to 7 of R84. -/
theorem exec_eq_onVoice {i : Instr} {v : BitVec 8} (hv : i.voiceField = some v) (s : State) :
    ∃ f, exec i s = s.onVoice v i.wellFormed f := by
  rw [wellFormed_eq]
  cases i with
  | nop | statusRd | opAlgo | opDrive | opProc | render => cases hv
  | fltMode _ mode =>
    cases hv
    simp only [Instr.unitInRange, Instr.operandsFinite, Instr.frequencyPositive, Bool.and_true]
    exact execFltMode_eq_onVoice v mode s
  | envSetA | envSetD | envSetS | envSetR =>
    cases hv
    simp only [Instr.unitInRange, Instr.operandsFinite, Instr.frequencyPositive, Bool.and_true, exec, execEnvSetA,
      execEnvSetD, execEnvSetS, execEnvSetR]
    exact onEnv_eq_onVoice s v _ _ _
  | envTrig | envRls | envNext | envRdp =>
    cases hv
    simp only [Instr.unitInRange, Instr.operandsFinite, Instr.frequencyPositive, Bool.and_assoc, Bool.true_and, exec,
      execEnvTrig, execEnvRls, execEnvNext, execEnvRdp]
    exact onEnv_eq_onVoice s v _ _ _
  | oscWt | oscRst | oscNext | oscRdt | fltCut | fltQ | fltRst | fltProc | vTrig | vRls | vNext | vBend | vBrng | vCut
  | vDepth | vActive =>
    cases hv
    simp only [Instr.unitInRange, Instr.operandsFinite, Instr.frequencyPositive, Bool.and_true, Bool.true_and]
    exact ⟨_, rfl⟩

theorem renderVoices_length (num : NumFns) (sampleRate : Nat) (us : List Voice) (acc : S) :
    (renderVoices num sampleRate us acc).1.length = us.length := by
  induction us generalizing acc with
  | nil => rfl
  | cons u us ih => simp [renderVoices, ih]

theorem execOpAlgo_illegal {index : BitVec 8} (h : ¬ index.toNat ≤ 2) (s : State) :
    execOpAlgo index s = .next s.raiseIllegal := by
  unfold execOpAlgo; rw [(Algo.ofCode?_eq_none index).mpr h]

theorem execOpAlgo_completes {index : BitVec 8} (h : index.toNat ≤ 2) (s : State) : Completes s (execOpAlgo index s) := by
  obtain ⟨a, ha⟩ : ∃ a, Algo.ofCode? index = some a := by
    rw [← Option.ne_none_iff_exists']
    exact fun hn => (Algo.ofCode?_eq_none index).mp hn h
  unfold execOpAlgo
  rw [ha]
  exact .respond 0 0 rfl rfl rfl ⟨rfl, rfl, rfl⟩

theorem execOpDrive_completes {drive : S} (h : fFinite drive = true) (s : State) : Completes s (execOpDrive drive s) := by
  rw [execOpDrive, if_pos h]
  exact .respond 0 0 rfl rfl rfl ⟨rfl, rfl, rfl⟩

theorem execOpProc_completes {x : S} (h : fFinite x = true) (s : State) : Completes s (execOpProc x s) := by
  rw [execOpProc, execOpProcWith, if_pos h]
  exact .respond _ 0 rfl rfl rfl ⟨rfl, rfl, rfl⟩

theorem execRender_completes (s : State) : Completes s (execRender s) :=
  .respond _ _ rfl rfl (renderVoices_length _ _ _ _) ⟨rfl, rfl, rfl⟩

/-- A command that passes checks 4 to 7 of R84 completes. -/
theorem exec_completes {i : Instr} {s : State} (h : legalFor s.nVoices i = true) : Completes s (exec i s) := by
  obtain ⟨hv, hw⟩ := (Bool.and_eq_true _ _).mp h
  cases hf : i.voiceField with
  | some v =>
    obtain ⟨f, hx⟩ := exec_eq_onVoice hf s
    rw [hx, hw]
    exact onVoice_completes (by simpa [Instr.voiceBelow, hf] using hv) f
  | none =>
    obtain ⟨⟨hu, ho⟩, -⟩ : (i.unitInRange = true ∧ i.operandsFinite = true) ∧ i.frequencyPositive = true := by
      simpa [wellFormed_eq] using hw
    cases i with
    | nop => exact .respond 0 0 rfl rfl rfl ⟨rfl, rfl, rfl⟩
    | statusRd => exact .respond s.status 0 rfl rfl rfl ⟨rfl, rfl, rfl⟩
    | opAlgo index => exact execOpAlgo_completes (of_decide_eq_true hu) s
    | opDrive drive => exact execOpDrive_completes ho s
    | opProc x => exact execOpProc_completes ho s
    | render => exact execRender_completes s
    | _ => cases hf

/-- A command that fails one of the checks 4 to 7 of R84 is wholly refused. -/
theorem exec_refuses {i : Instr} {s : State} (h : legalFor s.nVoices i = false) : exec i s = .next s.raiseIllegal := by
  have hfail : i.voiceBelow s.nVoices = false ∨ i.wellFormed = false := (Bool.and_eq_false_iff).mp h
  cases hf : i.voiceField with
  | some v =>
    obtain ⟨f, hx⟩ := exec_eq_onVoice hf s
    rw [hx]
    refine State.onVoice_illegal (hfail.imp_left fun hv => ?_) f
    rw [State.voice?_eq_none]
    simpa [Instr.voiceBelow, hf] using hv
  | none =>
    have hw : i.wellFormed = false := hfail.resolve_left (by simp [Instr.voiceBelow, hf])
    rw [wellFormed_eq] at hw
    cases i with
    | nop | statusRd | render => cases hw
    | opAlgo index =>
      simp only [Instr.unitInRange, Instr.operandsFinite, Instr.frequencyPositive, Bool.and_true] at hw
      exact execOpAlgo_illegal (of_decide_eq_false hw) s
    | opDrive x | opProc x =>
      simp only [Instr.unitInRange, Instr.operandsFinite, Instr.frequencyPositive, Bool.and_true, Bool.true_and] at hw
      simp only [exec, execOpDrive, execOpProc, execOpProcWith, hw, Bool.false_eq_true, if_false]
    | _ => cases hf

/-! ### Every step answers -/

theorem commandIllegal_of_command {c : Command} {i : Instr} (h : decode c = .command i) (nVoices : Nat) :
    commandIllegal nVoices c = !legalFor nVoices i := by
  unfold commandIllegal; rw [h]

theorem commandIllegal_of_illegal {c : Command} {why : DecodeError} (h : decode c = .illegal why) (nVoices : Nat) :
    commandIllegal nVoices c = true := by
  unfold commandIllegal; rw [h]

/-- A command that fails a check of R84 is wholly refused, whichever check it is (R315). -/
theorem execCommand_refuses {c : Command} {s : State} (h : commandIllegal s.nVoices c = true) :
    execCommand c s = .next s.raiseIllegal := by
  cases hd : decode c with
  | illegal why => exact execCommand_of_illegal hd s
  | command i =>
    rw [execCommand_of_command hd]
    exact exec_refuses (by simpa [commandIllegal_of_command hd] using h)

/-- A command that passes every check of R84 completes. -/
theorem execCommand_completes {c : Command} {s : State} (h : commandIllegal s.nVoices c = false) :
    Completes s (execCommand c s) := by
  cases hd : decode c with
  | illegal why => simp [commandIllegal_of_illegal hd] at h
  | command i =>
    rw [execCommand_of_command hd]
    exact exec_completes (by simpa [commandIllegal_of_command hd] using h)

/-- What the block does with one command: one response, with `RS` by the checks of R84, and nothing outside the block. -/
theorem execCommand_answers (c : Command) (s : State) :
    ∃ t r, execCommand c s = .next t ∧ SameOutside s t ∧ t.nVoices = s.nVoices ∧ t.responses = r :: s.responses ∧
      r.rs = if commandIllegal s.nVoices c then 1 else 0 := by
  by_cases hc : commandIllegal s.nVoices c = true
  · exact ⟨_, ⟨1, 0, 0⟩, execCommand_refuses hc, ⟨rfl, rfl, rfl⟩, rfl, rfl, (if_pos hc).symm⟩
  · obtain ⟨t, r0, r1, hx, hr, -, hn, ho⟩ := execCommand_completes (Bool.not_eq_true _ ▸ hc)
    exact ⟨t, ⟨0, r0, r1⟩, hx, ho, hn, hr, (if_neg hc).symm⟩

/-- A move of the host keeps the parameters, the number of voices and the responses, be it a reset from outside (R330). -/
theorem hostMove_frame (s : State) :
    s.hostMove.params = s.params ∧ s.hostMove.nVoices = s.nVoices ∧ s.hostMove.responses = s.responses := by
  rcases s.hostMove_cases with h | ⟨rest, -, -, h⟩
  · exact ⟨h.params, congrArg List.length h.voices, h.responses⟩
  · rw [h]
    exact ⟨rfl, List.length_replicate, rfl⟩

end Sys2Proof.Machine

namespace Sys2Proof.Proofs

open Sys2Proof.Machine

/-- Settles O5: with a command pending by `execCommand_answers`, with none by `hostMove_frame`. -/
theorem everyStepAnswers : Obligations.EveryStepAnswers := by
  intro s
  cases hp : s.pending with
  | nil =>
    obtain ⟨h1, h2, h3⟩ := hostMove_frame s
    exact ⟨_, step_of_no_pending hp, h1, h2, (fun _ _ h => nomatch h), fun _ => h3⟩
  | cons c rest =>
    obtain ⟨t, r, hx, ho, hn, hr, hrs⟩ := execCommand_answers c { s with pending := rest }
    refine ⟨t, (step_of_pending hp).trans hx, ho.params, hn, ?_, fun h => nomatch h⟩
    intro c' rest' h
    cases h
    exact ⟨ho.pending, ho.host, r, hr, hrs⟩

end Sys2Proof.Proofs

/-!
PROOFS. Noninterference of the host (R18, R291): what it does next depends on the parameters, the number of voices, its own
state and the last response alone.
-/

namespace Sys2Proof.Machine

/-- Two states that look alike to the host: what it may read of a state, and the queue it writes. -/
structure SameToHost (s t : State) : Prop where
  params : t.params = s.params
  nVoices : t.nVoices = s.nVoices
  host : t.host = s.host
  pending : t.pending = s.pending
  lastResponse : t.responses.head? = s.responses.head?

namespace SameToHost

/-- Both states take the same new host state. -/
theorem withHost {s t : State} (h : SameToHost s t) (a : HostAgent) :
    SameToHost { s with host := a } { t with host := a } :=
  ⟨h.params, h.nVoices, rfl, h.pending, h.lastResponse⟩

theorem issue {s t : State} (h : SameToHost s t) (is : List Instr) : SameToHost (s.issue is) (t.issue is) :=
  ⟨h.params, h.nVoices, h.host, by rw [issue_pending, issue_pending, h.pending], h.lastResponse⟩

theorem finishAllocation {s t : State} (h : SameToHost s t) (a : Allocator) (k : Nat) (act : NoteAction)
    (steal : List Instr) : SameToHost (s.finishAllocation a k act steal) (t.finishAllocation a k act steal) := by
  unfold State.finishAllocation
  rw [h.host]
  exact (h.withHost _).issue _

theorem allocateNote {s t : State} (h : SameToHost s t) (note : Byte) (act : NoteAction) :
    SameToHost (s.allocateNote note act) (t.allocateNote note act) := by
  unfold State.allocateNote
  rw [h.host]
  split
  · exact h.finishAllocation _ _ _ _
  · split
    · exact h.finishAllocation _ _ _ _
    · exact (h.withHost _).issue _

theorem lastResponseActive {s t : State} (h : SameToHost s t) : t.lastResponseActive = s.lastResponseActive := by
  have hr := h.lastResponse
  unfold State.lastResponseActive
  cases hs : s.responses <;> cases ht : t.responses <;> simp_all

theorem scanSlot {s t : State} (h : SameToHost s t) (note : Byte) (k : Nat) (act : NoteAction) :
    SameToHost (s.scanSlot note k act) (t.scanSlot note k act) := by
  unfold State.scanSlot
  rw [h.host, h.nVoices, h.lastResponseActive]
  simp only
  split
  · exact h.finishAllocation _ _ _ _
  · split
    · exact (h.withHost _).issue _
    · exact h.finishAllocation _ _ _ _

theorem callback {s t : State} (h : SameToHost s t) (c : HostCall) : SameToHost (s.callback c) (t.callback c) := by
  unfold State.callback
  rw [h.host]
  exact h.withHost _

theorem dispatch {s t : State} (h : SameToHost s t) (m : MidiMessage) : SameToHost (s.dispatch m) (t.dispatch m) := by
  unfold State.dispatch
  rw [h.host, h.params, h.nVoices]
  split
  · split <;> exact h.allocateNote _ _
  · exact h.allocateNote _ _
  · split
    · exact h.callback _
    · exact h
  · exact h
  · split
    · exact h.callback _
    · exact h
  · exact h.callback _
  · exact h.issue _

theorem processByte {s t : State} (h : SameToHost s t) (b : Byte) : SameToHost (s.processByte b) (t.processByte b) := by
  unfold State.processByte
  rw [h.host, show t.params.listenChannel = s.params.listenChannel by rw [h.params]]
  simp only
  split
  · exact (h.withHost _).dispatch _
  · exact h.withHost _

theorem hearResponse {s t : State} (h : SameToHost s t) (due : Bool) :
    SameToHost (s.hearResponse due) (t.hearResponse due) := by
  unfold State.hearResponse
  rw [h.host, h.lastResponse]
  cases due
  · exact h
  · exact h.withHost _

theorem callbackAction {s t : State} (h : SameToHost s t) : t.callbackAction = s.callbackAction := by
  unfold State.callbackAction
  rw [h.host]

theorem runCallback {s t : State} (h : SameToHost s t) (act : Option CallbackAction) :
    SameToHost (s.runCallback act) (t.runCallback act) := by
  unfold State.runCallback
  rw [h.host]
  split
  · exact h.withHost _
  · exact (h.withHost _).issue _
  · exact h.allocateNote _ _

theorem callbackMove {s t : State} (h : SameToHost s t) (due : Bool) :
    SameToHost (s.callbackMove due) (t.callbackMove due) := by
  unfold State.callbackMove
  rw [(h.hearResponse due).callbackAction]
  exact (h.hearResponse due).runCallback _

theorem blockReset {s t : State} (h : SameToHost s t) : SameToHost s.blockReset t.blockReset :=
  ⟨h.params, by simp [State.blockReset, State.nVoices, show t.voices.length = s.voices.length from h.nVoices],
    h.host, h.pending, h.lastResponse⟩

theorem handleEvent {s t : State} (h : SameToHost s t) (ev : HostEvent) :
    SameToHost (s.handleEvent ev) (t.handleEvent ev) := by
  cases ev with
  | midi b => exact h.processByte b
  | frames n => exact h.issue _
  | blockReset => exact h.blockReset

theorem hostMove {s t : State} (h : SameToHost s t) : SameToHost s.hostMove t.hostMove := by
  unfold State.hostMove
  rw [h.host]
  split
  · exact h.scanSlot _ _ _
  · exact h.callbackMove _
  · split
    · exact h
    · exact (h.withHost _).handleEvent _

end SameToHost

end Sys2Proof.Machine

namespace Sys2Proof.Proofs

open Sys2Proof.Machine

/-- Settles O51: two states that look alike to the host look alike to it after its move. -/
theorem hostReadsOnlyResponses : Obligations.HostReadsOnlyResponses := by
  intro s t hs ht hparams hvoices hhost hlast
  have h : SameToHost s t := ⟨hparams, hvoices, hhost, ht.trans hs.symm, hlast⟩
  exact ⟨_, _, step_of_no_pending hs, step_of_no_pending ht, h.hostMove.host, h.hostMove.pending⟩

end Sys2Proof.Proofs

/-!
PROOFS. More about binary32: signs and magnitudes of products and quotients, when a result is finite, and the values that
R13 bounds. Then the bounds of the voice's bent frequency (R202) and of the output unit (R229).
-/

namespace Sys2Proof.Machine

/-! ### Signs and magnitudes -/

theorem fSign_of_fInt_pos {x : S} (h : 0 < fInt x) : fSign x = false := by
  cases hs : fSign x with
  | false => rfl
  | true => simp [fInt, hs] at h; omega

theorem fInt_le_fUnits (x : S) : fInt x ≤ fUnits x := by
  rw [← natAbs_fInt]; exact Int.le_natAbs

@[simp] theorem fUnits_fNeg (x : S) : fUnits (fNeg x) = fUnits x := by simp [fUnits]
@[simp] theorem fUnits_fAbs (x : S) : fUnits (fAbs x) = fUnits x := by simp [fUnits]

theorem fInt_fAbs (x : S) : fInt (fAbs x) = fUnits x := by
  rw [fInt_of_not_sign (fSign_fAbs x), fUnits_fAbs]

theorem fFinite_of_fIsZero {x : S} (h : fIsZero x = true) : fFinite x = true := by
  rcases (fIsZero_iff x).mp h with rfl | rfl <;> decide

theorem fIsZero_eq_false_of_fUnits_pos {x : S} (h : 0 < fUnits x) : fIsZero x = false := by
  rw [← Bool.not_eq_true, ← fUnits_eq_zero]; omega

theorem fMag_fMul {a b : S} (ha : fFinite a = true) (hb : fFinite b = true) :
    fMag (fMul a b) = roundMag (fUnits a * fUnits b) (2 ^ 149) := by
  rw [fMul_finite ha hb, fMag_fPack _ _ ((roundMag_le_inf _ _).trans_lt infMag_lt)]

theorem fSign_fMul {a b : S} (ha : fFinite a = true) (hb : fFinite b = true) :
    fSign (fMul a b) = (fSign a != fSign b) := by
  rw [fMul_finite ha hb, fSign_fPack _ _ ((roundMag_le_inf _ _).trans_lt infMag_lt)]

/-- A product grows with the magnitude of its second factor. -/
theorem fMag_fMul_mono {a x y : S} (ha : fFinite a = true) (hx : fFinite x = true) (hy : fFinite y = true)
    (h : fUnits x ≤ fUnits y) : fMag (fMul a x) ≤ fMag (fMul a y) := by
  rw [fMag_fMul ha hx, fMag_fMul ha hy]
  exact roundMag_mono (Nat.two_pow_pos _) (Nat.two_pow_pos _) (Nat.mul_le_mul_right _ (Nat.mul_le_mul_left _ h))

/-- A zero divided by a finite value that is not a zero is a zero. -/
theorem fDiv_zero {a b : S} (ha : fIsZero a = true) (hb : fFinite b = true) (hz : fIsZero b = false) :
    fIsZero (fDiv a b) = true := by
  have hb0 : 0 < fUnits b := Nat.pos_of_ne_zero fun h => by simp [(fUnits_eq_zero b).mp h] at hz
  rw [fDiv_finite (fFinite_of_fIsZero ha) hb hz, (fUnits_eq_zero a).mpr ha, Nat.zero_mul, roundMag_zero _ hb0]
  unfold fIsZero
  rw [fMag_fPack _ _ (by decide)]; rfl

theorem fSign_fDiv {a b : S} (ha : fFinite a = true) (hb : fFinite b = true) (hz : fIsZero b = false) :
    fSign (fDiv a b) = (fSign a != fSign b) := by
  rw [fDiv_finite ha hb hz, fSign_fPack _ _ ((roundMag_le_inf _ _).trans_lt infMag_lt)]

/-- A value that is not negative, divided by a positive one, is not negative (it may be `-0`). -/
theorem fInt_fDiv_nonneg {a b : S} (ha : fFinite a = true) (h0 : 0 ≤ fInt a) (hb : fFinite b = true)
    (hz : fIsZero b = false) (hs : fSign b = false) : 0 ≤ fInt (fDiv a b) := by
  rcases h0.eq_or_lt with h | h
  · have hza : fIsZero a = true := (fInt_eq_zero a).mp h.symm
    rw [(fInt_eq_zero _).mpr (fDiv_zero hza hb hz)]
  · have hsign : fSign (fDiv a b) = false := by rw [fSign_fDiv ha hb hz, fSign_of_fInt_pos h, hs]; rfl
    rw [fInt_of_not_sign hsign]
    exact Int.natCast_nonneg _

/-- Positive values are ordered as their magnitudes. -/
theorem fLe_of_fMag_le {x y : S} (hx : fFinite x = true) (hy : fFinite y = true) (sx : fSign x = false)
    (sy : fSign y = false) (h : fMag x ≤ fMag y) : fLe x y = true := by
  simpa [fLe, fIsNaN_of_finite hx, fIsNaN_of_finite hy, fOrd, sx, sy] using h

/-! ### Results that are finite -/

/-- A finite value divided by one that is at least 1 in magnitude is finite. -/
theorem fFinite_fDiv_of_one_le {a b : S} (ha : fFinite a = true) (hb : fFinite b = true) (h : 2 ^ 149 ≤ fUnits b) :
    fFinite (fDiv a b) = true :=
  (fDiv_bound ha hb (fIsZero_eq_false_of_fUnits_pos (Nat.lt_of_lt_of_le (Nat.two_pow_pos 149) h)) ((fFinite_iff a).mp ha)
    (Nat.mul_le_mul_left _ h)).1

/-- A value at most 1 in magnitude times a finite value is finite. -/
theorem fFinite_fMul_of_le_one {a b : S} (ha : fFinite a = true) (hb : fFinite b = true) (h : fUnits a ≤ 2 ^ 149) :
    fFinite (fMul a b) = true :=
  (fMul_bound ha hb ((fFinite_iff b).mp hb) (by rw [Nat.mul_comm]; exact Nat.mul_le_mul_left _ h)).1

/-- Sums, differences and products of values at most 8 in magnitude are finite. -/
theorem fFinite_fAdd_of_le_eight {a b : S} (ha : fFinite a = true) (hb : fFinite b = true) (h1 : fUnits a ≤ 2 ^ 152)
    (h2 : fUnits b ≤ 2 ^ 152) : fFinite (fAdd a b) = true := by
  rw [fAdd_finite ha hb]
  refine (addFinite_bound (mag := 0x41800000) (by decide) ?_).1
  rw [show magUnits 0x41800000 = 2 ^ 152 + 2 ^ 152 by decide]
  exact (Int.natAbs_add_le _ _).trans (by rw [natAbs_fInt, natAbs_fInt]; exact Nat.add_le_add h1 h2)

theorem fFinite_fSub_of_le_eight {a b : S} (ha : fFinite a = true) (hb : fFinite b = true) (h1 : fUnits a ≤ 2 ^ 152)
    (h2 : fUnits b ≤ 2 ^ 152) : fFinite (fSub a b) = true := by
  rw [fSub_finite ha hb, ← fAdd_finite ha (by simpa using hb)]
  exact fFinite_fAdd_of_le_eight ha (by simpa using hb) h1 (by simpa using h2)

theorem fFinite_fMul_of_le_eight {a b : S} (ha : fFinite a = true) (hb : fFinite b = true) (h1 : fUnits a ≤ 2 ^ 152)
    (h2 : fUnits b ≤ 2 ^ 152) : fFinite (fMul a b) = true := by
  refine (fMul_bound (mag := 0x42800000) ha hb (by decide) ?_).1
  rw [show magUnits 0x42800000 * 2 ^ 149 = 2 ^ 152 * 2 ^ 152 by decide]
  exact Nat.mul_le_mul h1 h2

/-- Rounding takes a sum that is at least a positive value to no less than it. -/
theorem le_fInt_fAdd {a b c : S} (ha : fFinite a = true) (hb : fFinite b = true) (hc : fFinite c = true)
    (hsum : fFinite (fAdd a b) = true) (hpos : 0 < fInt c) (h : fInt c ≤ fInt a + fInt b) :
    fInt c ≤ fInt (fAdd a b) := by
  have hr : fMag c ≤ roundMag (fInt a + fInt b).natAbs 1 := by
    refine le_roundMag (by decide) ((fFinite_iff c).mp hc) ?_
    rw [Nat.mul_one]
    change fUnits c ≤ _
    rw [← natAbs_fInt]; omega
  have hlt := (roundMag_le_inf (fInt a + fInt b).natAbs 1).trans_lt infMag_lt
  rw [fAdd_finite ha hb, addFinite_eq, if_neg (by omega), decide_eq_false (by omega)] at hsum ⊢
  rw [fFinite_iff, fMag_fPack _ _ hlt] at hsum
  rw [fInt_fPack _ _ hlt, if_neg Bool.false_ne_true, fInt_of_not_sign (fSign_of_fInt_pos hpos)]
  exact_mod_cast (magUnits_mono ((fFinite_iff c).mp hc) hsum).mpr hr

/-! ### The ranges of R13 -/

theorem absAtMostOne_iff {x : S} : absAtMostOne x = true ↔ fFinite x = true ∧ fUnits x ≤ 2 ^ 149 := by
  unfold absAtMostOne
  rw [Bool.and_eq_true]
  refine and_congr_right fun hx => ?_
  rw [fLe_iff (by simpa using hx) fFinite_f1, fInt_fAbs, fInt_f1]
  exact_mod_cast Iff.rfl

theorem notNegativeNorNaN_fPack {mag : Nat} (h : mag ≤ infMag) : notNegativeNorNaN (fPack false mag) = true := by
  simp [notNegativeNorNaN, fSign_fPack false mag (h.trans_lt infMag_lt), fIsNaN_fPack false mag h]

/-- A positive finite value times `+0`, a positive value or `+infinity` is one of these. -/
theorem notNegativeNorNaN_fMul {a b : S} (ha : fFinite a = true) (hpos : 0 < fInt a)
    (hb : notNegativeNorNaN b = true) : notNegativeNorNaN (fMul a b) = true := by
  obtain ⟨sb, nb⟩ : fSign b = false ∧ fIsNaN b = false := by simpa [notNegativeNorNaN] using hb
  have sa := fSign_of_fInt_pos hpos
  have za : fIsZero a = false := by
    rw [← Bool.not_eq_true, ← fInt_eq_zero]; omega
  rcases finite_inf_or_nan b with fb | ib | nb'
  · rw [fMul_finite ha fb, sa, sb]
    exact notNegativeNorNaN_fPack (roundMag_le_inf _ _)
  · have zb : fIsZero b = false := by
      simp only [fIsInf, beq_iff_eq] at ib
      simp only [fIsZero, ib]; decide
    have hinf : fMul a b = fPack false infMag := by simp [fMul, fIsNaN_of_finite ha, nb, ib, za, zb, sa, sb]
    rw [hinf]
    exact notNegativeNorNaN_fPack le_rfl
  · rw [nb] at nb'; cases nb'

theorem NumFns.Admitted.exp2_zero {num : NumFns} (h : num.Admitted) {x : S} (hx : fIsZero x = true) : num.exp2 x = f1 := by
  rcases (fIsZero_iff x).mp hx with rfl | rfl
  · exact h.p2.1
  · exact h.p2.2

theorem NumFns.Admitted.sin_zero {num : NumFns} (h : num.Admitted) {x : S} (hx : fIsZero x = true) : num.sin x = x := by
  rcases (fIsZero_iff x).mp hx with rfl | rfl
  · exact h.p3.1
  · exact h.p3.2.1

theorem NumFns.Admitted.tanh_zero {num : NumFns} (h : num.Admitted) {x : S} (hx : fIsZero x = true) : num.tanh x = x := by
  rcases (fIsZero_iff x).mp hx with rfl | rfl
  · exact h.p3.2.2.1
  · exact h.p3.2.2.2

/-! ### The bent frequency (R202) -/

theorem fUnits_le_of_between_neg1_f1 {x : S} (h : between fNeg1 f1 x = true) :
    fFinite x = true ∧ fUnits x ≤ 2 ^ 149 := by
  obtain ⟨hx, hlo, hhi⟩ := (between_iff (by decide) fFinite_f1).mp h
  rw [fInt_fNeg1] at hlo
  rw [fInt_f1] at hhi
  refine ⟨hx, ?_⟩
  rw [← natAbs_fInt]; omega

/-- The exponent of the bent frequency is finite, so NUM-P7 speaks of it. -/
theorem fFinite_bendExponent {bend range : S} (hb : between fNeg1 f1 bend = true) (hr : fFinite range = true) :
    fFinite (fDiv (fMul bend range) f12) = true := by
  obtain ⟨hbf, hb1⟩ := fUnits_le_of_between_neg1_f1 hb
  exact fFinite_fDiv_of_one_le (fFinite_fMul_of_le_one hbf hr hb1) (by decide) (by decide)

end Sys2Proof.Machine

namespace Sys2Proof.Proofs

open Sys2Proof.Machine

/-- Settles O34: the base frequency is positive and times an `exp2` (NUM-P7), which is 1 for a zero exponent (NUM-P2). -/
theorem bentFrequency : Obligations.BentFrequency := by
  intro num sampleRate u hnum hu
  obtain ⟨hfin, hgt⟩ := (Bool.and_eq_true _ _).mp hu.baseFreq
  have hpos : 0 < fInt u.baseFreq := by simpa [fInt_f0] using (fGt_iff hfin fFinite_f0).mp hgt
  refine ⟨notNegativeNorNaN_fMul hfin hpos (hnum.p7 _ (fFinite_bendExponent hu.bend hu.bendRange)), fun hz => ?_⟩
  have hprod := fMul_zero (fUnits_le_of_between_neg1_f1 hu.bend).1 hu.bendRange hz
  rw [Machine.bentFrequency, hnum.exp2_zero (fDiv_zero hprod (by decide) (by decide)), fMul_one hfin]

end Sys2Proof.Proofs

namespace Sys2Proof.Machine

/-! ### The gain and the transfer functions (R229) -/

/-- `op_gain` is a product of two positive values, the second in `[1, 100]` (NUM-P6), so it lies between the products at the
ends. -/
theorem opGain_between {num : NumFns} (hnum : num.Admitted) {drive : S} (hd : inUnit drive = true) :
    between f0p1 0x41200000#32 (opGain num drive) = true := by
  obtain ⟨⟨hdf, hd0⟩, hd1⟩ : (fFinite drive = true ∧ fLe f0 drive = true) ∧ fLe drive f1 = true := by
    simpa [between] using hd
  obtain ⟨⟨hpf, hp1⟩, hp100⟩ : (fFinite (num.pow100 drive) = true ∧ fLe f1 (num.pow100 drive) = true) ∧
      fLe (num.pow100 drive) f100 = true := by
    simpa [inP6Range] using hnum.p6.1 drive hdf hd0 hd1
  have h0p1 : fFinite f0p1 = true := by decide
  rw [fLe_iff fFinite_f1 hpf, fInt_f1] at hp1
  rw [fLe_iff hpf (by decide)] at hp100
  have hsign : fSign (num.pow100 drive) = false := fSign_of_fInt_pos (lt_of_lt_of_le (by decide) hp1)
  rw [fInt_of_not_sign hsign] at hp1 hp100
  have hlo : fMag f0p1 ≤ fMag (opGain num drive) := by
    have h := fMag_fMul_mono h0p1 fFinite_f1 hpf (by rw [show fUnits f1 = 2 ^ 149 by decide]; exact_mod_cast hp1)
    rwa [fMul_one h0p1] at h
  have hhi : fMag (opGain num drive) ≤ fMag 0x41200000#32 := by
    have h := fMag_fMul_mono h0p1 hpf (show fFinite f100 = true by decide)
      (by exact_mod_cast hp100.trans (fInt_le_fUnits f100))
    rwa [show fMul f0p1 f100 = 0x41200000#32 by decide] at h
  have hfin : fFinite (opGain num drive) = true := (fFinite_iff _).mpr (hhi.trans_lt (by decide))
  have hs : fSign (opGain num drive) = false := by rw [opGain, fSign_fMul h0p1 hpf, hsign]; decide
  simp only [between, Bool.and_eq_true]
  exact ⟨⟨hfin, fLe_of_fMag_le h0p1 hfin (by decide) hs hlo⟩, fLe_of_fMag_le hfin (by decide) hs (by decide) hhi⟩

/-- Every transfer function maps a zero to a zero (R229). -/
theorem shaper_zero {num : NumFns} (hnum : num.Admitted) (algo : Algo) {u : S} (hu : fIsZero u = true) :
    fIsZero (shaper num algo u) = true := by
  cases algo with
  | tanhClip => rw [shaper, hnum.tanh_zero hu]; exact hu
  | waveFold => rcases (fIsZero_iff u).mp hu with rfl | rfl <;> rw [shaper] <;> decide
  | softWaveFold =>
    have hprod := fMul_zero (a := fHalfPi) (by decide) (fFinite_of_fIsZero hu) (.inr hu)
    rw [shaper, hnum.sin_zero hprod]; exact hprod

end Sys2Proof.Machine

namespace Sys2Proof.Proofs

open Sys2Proof.Machine

/-- Settles O40: the gain by `opGain_between`, its ends and the two shapers by NUM-P5 and NUM-P6, zeros by `shaper_zero`. -/
theorem gainAndShaperBounds : Obligations.GainAndShaperBounds := by
  intro num hnum
  refine ⟨fun drive hd => opGain_between hnum hd, ?_, ?_, fun u hu => (hnum.p5 u hu).1,
    fun u _ hprod => (hnum.p5 _ hprod).2, fun algo u hu => shaper_zero hnum algo hu⟩
  · rw [opGain, hnum.p6.2.1]; decide
  · rw [opGain, hnum.p6.2.2]; decide

end Sys2Proof.Proofs

/-!
PROOFS. The coefficients of R134 are well defined over the whole parameter range: `w0` stays below 3.12 because the cutoff
stays below 0.99 of half the sample rate, three roundings included, and every division is by a value at least 1.
-/

namespace Sys2Proof.Machine

/-! ### `SRf` and `CUT_MAX` (R5, R16) -/

/-- `SRf` of a legal rate is finite and positive, between 8000 and 2^24. -/
theorem srf_bounds {sampleRate : Nat} (hlo : 8000 ≤ sampleRate) (hhi : sampleRate ≤ 16777215) :
    fFinite (srf sampleRate) = true ∧ fSign (srf sampleRate) = false ∧ 8000 * 2 ^ 149 ≤ fUnits (srf sampleRate) ∧
      fUnits (srf sampleRate) ≤ 2 ^ 24 * 2 ^ 149 := by
  have h1 : 0x45FA0000 ≤ roundMag (sampleRate * 2 ^ 149) 1 := by
    refine le_roundMag (by decide) (by decide) ?_
    rw [show magUnits 0x45FA0000 = 8000 * 2 ^ 149 by decide, Nat.mul_one]
    exact Nat.mul_le_mul_right _ hlo
  have h2 : roundMag (sampleRate * 2 ^ 149) 1 ≤ 0x4B800000 := by
    refine roundMag_le (by decide) (by decide) ?_
    rw [show magUnits 0x4B800000 = 2 ^ 24 * 2 ^ 149 by decide, Nat.mul_one]
    exact Nat.mul_le_mul_right _ (by omega)
  have hinf : (0x4B800000 : Nat) < infMag := by decide
  have hmag : roundMag (sampleRate * 2 ^ 149) 1 < infMag := h2.trans_lt hinf
  have hdef : srf sampleRate = fPack false (roundMag (sampleRate * 2 ^ 149) 1) := by
    unfold srf fOfInt
    rw [Int.natAbs_natCast, decide_eq_false (by omega)]
  rw [hdef, fUnits, fMag_fPack _ _ (hmag.trans infMag_lt)]
  refine ⟨fFinite_fPack _ _ hmag, fSign_fPack _ _ (hmag.trans infMag_lt), ?_, ?_⟩
  · rw [show 8000 * 2 ^ 149 = magUnits 0x45FA0000 by decide]
    exact (magUnits_mono (by decide) hmag).mpr h1
  · rw [show 2 ^ 24 * 2 ^ 149 = magUnits 0x4B800000 by decide]
    exact (magUnits_mono hmag hinf).mpr h2

/-- A product exceeds the exact one by at most half a unit in the 24th place, or half a unit of 2^-149. -/
theorem fUnits_fMul_upper {a b : S} (ha : fFinite a = true) (hb : fFinite b = true) :
    fUnits (fMul a b) * 2 ^ 149 * 2 ^ 24 ≤ fUnits a * fUnits b * (2 ^ 24 + 1) + 2 ^ 149 * 2 ^ 23 := by
  have h := roundMag_upper (fUnits a * fUnits b) (2 ^ 149) (Nat.two_pow_pos _)
  rwa [← fMag_fMul ha hb] at h

/-- `CUT_MAX` is finite and below 0.4951 of `SRf` (exactly it would be 0.495 of it). -/
theorem cutMax_bounds {sampleRate : Nat} (hlo : 8000 ≤ sampleRate) (hhi : sampleRate ≤ 16777215) :
    fFinite (cutMax sampleRate) = true ∧ fUnits (cutMax sampleRate) * 10000 ≤ 4951 * fUnits (srf sampleRate) := by
  obtain ⟨hf, -, h8000, h24⟩ := srf_bounds hlo hhi
  have h0p5 : fFinite f0p5 = true := by decide
  have h0p99 : fFinite f0p99 = true := by decide
  have hhalf : fFinite (fMul (srf sampleRate) f0p5) = true := by
    exact (fMul_bound hf h0p5 ((fFinite_iff _).mp hf) (Nat.mul_le_mul_left _ (by decide))).1
  have herr1 := fUnits_fMul_upper hf h0p5
  have herr2 := fUnits_fMul_upper h0p99 hhalf
  refine ⟨fFinite_fMul_of_le_one h0p99 hhalf (by decide), ?_⟩
  rw [show fUnits f0p5 = 2 ^ 148 by decide] at herr1
  rw [show fUnits f0p99 = 0xFD70A4 * 2 ^ 125 by decide] at herr2
  rw [cutMax]
  generalize fUnits (srf sampleRate) = r at herr1 h8000 ⊢
  generalize fUnits (fMul (srf sampleRate) f0p5) = h at herr1 herr2
  generalize fUnits (fMul f0p99 _) = c at herr2 ⊢
  linarith

/-! ### `w0` (R134) -/

/-- A cutoff in its range is positive and at most `CUT_MAX`. -/
theorem cutoff_bounds {sampleRate : Nat} {cutoff : S} (hmax : fFinite (cutMax sampleRate) = true)
    (hc : between cutMin (cutMax sampleRate) cutoff = true) :
    fFinite cutoff = true ∧ fSign cutoff = false ∧ fUnits cutoff ≤ fUnits (cutMax sampleRate) := by
  obtain ⟨hf, hlo, hhi⟩ := (between_iff (by decide) hmax).mp hc
  have hs : fSign cutoff = false := fSign_of_fInt_pos (lt_of_lt_of_le (by decide) hlo)
  rw [fInt_of_not_sign hs] at hhi
  exact ⟨hf, hs, by exact_mod_cast hhi.trans (fInt_le_fUnits _)⟩

/-- `w0` is in the range of NUM-P4: a positive value, finite, and at most 3.12. -/
theorem angularFrequency_inP4Range {sampleRate : Nat} {cutoff : S} (hlo : 8000 ≤ sampleRate)
    (hhi : sampleRate ≤ 16777215) (hc : between cutMin (cutMax sampleRate) cutoff = true) :
    inP4Range (angularFrequency sampleRate cutoff) = true := by
  obtain ⟨hrf, hrs, h8000, h24⟩ := srf_bounds hlo hhi
  obtain ⟨hmaxf, hmax⟩ := cutMax_bounds hlo hhi
  obtain ⟨hcf, hcs, hcmax⟩ := cutoff_bounds hmaxf hc
  have h2pi : fFinite fTwoPi = true := by decide
  have u2pi : fUnits fTwoPi = 0xC90FDB * 2 ^ 128 := by decide
  have hprodf : fFinite (fMul fTwoPi cutoff) = true := by
    refine (fMul_bound (mag := 0x4D000000) h2pi hcf (by decide) ?_).1
    rw [u2pi, show magUnits 0x4D000000 = 2 ^ 27 * 2 ^ 149 by decide]
    linarith
  have hprods : fSign (fMul fTwoPi cutoff) = false := by rw [fSign_fMul h2pi hcf, hcs]; decide
  have hprod := fUnits_fMul_upper h2pi hcf
  rw [u2pi] at hprod
  have hrz : fIsZero (srf sampleRate) = false :=
    fIsZero_eq_false_of_fUnits_pos (lt_of_lt_of_le (by decide) h8000)
  obtain ⟨hwf, hw⟩ := fDiv_bound (mag := fMag f3p12) hprodf hrf hrz (by decide) (by
    rw [show magUnits (fMag f3p12) = 0xC7AE14 * 2 ^ 127 by decide]
    generalize fUnits (fMul fTwoPi cutoff) = p at hprod ⊢
    linarith)
  have hws : fSign (angularFrequency sampleRate cutoff) = false := by
    rw [angularFrequency, fSign_fDiv hprodf hrf hrz, hprods, hrs]; rfl
  rw [← angularFrequency] at hwf hw
  simp only [inP4Range, Bool.and_eq_true]
  exact ⟨⟨hwf, fLe_of_fMag_le fFinite_f0 hwf (by decide) hws (Nat.zero_le _)⟩,
    fLe_of_fMag_le hwf (by decide) hws (by decide) hw⟩

/-! ### `alpha` and `a0` (R134) -/

/-- `2q` for a Q in its range: positive and at least an eighth. -/
theorem twiceQ_bounds {q : S} (hq : between qMin qMax q = true) :
    fFinite (fMul f2 q) = true ∧ fSign (fMul f2 q) = false ∧ 2 ^ 146 ≤ fUnits (fMul f2 q) := by
  obtain ⟨hf, hlo, hhi⟩ := (between_iff (by decide) (by decide)).mp hq
  have hs : fSign q = false := fSign_of_fInt_pos (lt_of_lt_of_le (by decide) hlo)
  rw [fInt_of_not_sign hs, fInt_of_not_sign (by decide)] at hlo hhi
  have h2 : fFinite f2 = true := by decide
  have hmin : fMag (fMul f2 qMin) ≤ fMag (fMul f2 q) :=
    fMag_fMul_mono h2 (by decide) hf (by exact_mod_cast hlo)
  have hmax : fMag (fMul f2 q) ≤ fMag (fMul f2 qMax) :=
    fMag_fMul_mono h2 hf (by decide) (by exact_mod_cast hhi)
  have hmag : fMag (fMul f2 q) < infMag := hmax.trans_lt (by decide)
  refine ⟨(fFinite_iff _).mpr hmag, by rw [fSign_fMul h2 hf, hs]; decide, ?_⟩
  exact le_trans (by decide) ((magUnits_mono (by decide) hmag).mpr hmin)

/-- `alpha`, the quotient of a sine in `[0, 1]` and `2q`, is in `[0, 8]`. -/
theorem alpha_bounds {num : NumFns} (hnum : num.Admitted) {w q : S} (hw : inP4Range w = true)
    (hq : between qMin qMax q = true) :
    fFinite (fDiv (num.sin w) (fMul f2 q)) = true ∧ 0 ≤ fInt (fDiv (num.sin w) (fMul f2 q)) ∧
      fUnits (fDiv (num.sin w) (fMul f2 q)) ≤ 2 ^ 152 := by
  obtain ⟨hsf, hs0, -⟩ := hnum.p4 w hw
  obtain ⟨-, hs1⟩ := absAtMostOne_iff.mp (hnum.p5 w (fFinite_of_inP4Range hw)).2
  obtain ⟨hqf, hqs, hq8⟩ := twiceQ_bounds hq
  have hqz : fIsZero (fMul f2 q) = false := fIsZero_eq_false_of_fUnits_pos (lt_of_lt_of_le (by decide) hq8)
  rw [fLe_iff fFinite_f0 hsf, fInt_f0] at hs0
  obtain ⟨hf, hmag⟩ := fDiv_bound (mag := 0x41000000) hsf hqf hqz (by decide) (by
    rw [show magUnits 0x41000000 = 2 ^ 152 by decide]
    linarith)
  refine ⟨hf, fInt_fDiv_nonneg hsf hs0 hqf hqz hqs, ?_⟩
  exact le_trans ((magUnits_mono ((fFinite_iff _).mp hf) (by decide)).mpr hmag) (by decide)

/-- `a0 = 1 + alpha` is finite and at least 1. -/
theorem a0_bounds {alpha : S} (hf : fFinite alpha = true) (h0 : 0 ≤ fInt alpha) (h8 : fUnits alpha ≤ 2 ^ 152) :
    fFinite (fAdd f1 alpha) = true ∧ fInt f1 ≤ fInt (fAdd f1 alpha) ∧ 2 ^ 149 ≤ fUnits (fAdd f1 alpha) := by
  have hsum := fFinite_fAdd_of_le_eight fFinite_f1 hf (by decide) h8
  have hone : fInt f1 ≤ fInt (fAdd f1 alpha) := le_fInt_fAdd fFinite_f1 hf fFinite_f1 hsum (by decide) (by omega)
  have hunits := hone.trans (fInt_le_fUnits _)
  rw [fInt_f1] at hunits
  exact ⟨hsum, hone, by exact_mod_cast hunits⟩

/-! ### The coefficients (R134) -/

/-- The numerators of every mode are sums, differences and products of small values, so they are finite. -/
theorem numerator_finite (mode : FilterMode) {cs alpha : S} (hc : absAtMostOne cs = true) (hf : fFinite alpha = true)
    (h8 : fUnits alpha ≤ 2 ^ 152) :
    fFinite (numerator mode cs alpha).1 = true ∧ fFinite (numerator mode cs alpha).2.1 = true ∧
      fFinite (numerator mode cs alpha).2.2 = true := by
  obtain ⟨hcf, hc1⟩ := absAtMostOne_iff.mp hc
  have hc8 : fUnits cs ≤ 2 ^ 152 := hc1.trans (by decide)
  have hsub : fFinite (fSub f1 cs) = true := fFinite_fSub_of_le_eight fFinite_f1 hcf (by decide) hc8
  have hadd : fFinite (fAdd f1 cs) = true := fFinite_fAdd_of_le_eight fFinite_f1 hcf (by decide) hc8
  have hmul : fFinite (fMul fNeg2 cs) = true := fFinite_fMul_of_le_eight (by decide) hcf (by decide) hc8
  have half : ∀ {x : S}, fFinite x = true → fFinite (fDiv x f2) = true := fun hx =>
    fFinite_fDiv_of_one_le hx (by decide) (by decide)
  cases mode with
  | lowpass => exact ⟨half hsub, hsub, half hsub⟩
  | highpass => exact ⟨half hadd, (fFinite_fNeg _).trans hadd, half hadd⟩
  | bandpass => exact ⟨hf, fFinite_f0, (fFinite_fNeg _).trans hf⟩
  | notch => exact ⟨fFinite_f1, hmul, fFinite_f1⟩
  | allpass =>
    exact ⟨fFinite_fSub_of_le_eight fFinite_f1 hf (by decide) h8, hmul, fFinite_fAdd_of_le_eight fFinite_f1 hf (by decide) h8⟩

/-- The five coefficients are finite when the cosine, `alpha` and `a0` are in their ranges: each is a finite value divided
by `a0`, which is at least 1. -/
theorem coeffs_finite {num : NumFns} (hnum : num.Admitted) {sampleRate : Nat} (mode : FilterMode) {cutoff q : S}
    (hw : inP4Range (angularFrequency sampleRate cutoff) = true) (hq : between qMin qMax q = true) :
    let k := coeffs num sampleRate mode cutoff q
    fFinite k.b0 = true ∧ fFinite k.b1 = true ∧ fFinite k.b2 = true ∧ fFinite k.a1 = true ∧ fFinite k.a2 = true := by
  obtain ⟨-, -, hc⟩ := hnum.p4 _ hw
  obtain ⟨haf, ha0, ha8⟩ := alpha_bounds hnum hw hq
  obtain ⟨h0f, -, h01⟩ := a0_bounds haf ha0 ha8
  obtain ⟨hb0, hb1, hb2⟩ := numerator_finite mode hc haf ha8
  obtain ⟨hcf, hc1⟩ := absAtMostOne_iff.mp hc
  have overA0 := fun {x : S} (hx : fFinite x = true) => fFinite_fDiv_of_one_le hx h0f h01
  exact ⟨overA0 hb0, overA0 hb1, overA0 hb2,
    overA0 (fFinite_fMul_of_le_eight (by decide) hcf (by decide) (hc1.trans (by decide))),
    overA0 (fFinite_fSub_of_le_eight fFinite_f1 haf (by decide) ha8)⟩

end Sys2Proof.Machine

namespace Sys2Proof.Proofs

open Sys2Proof.Machine

/-- Settles O22: `w0` by `angularFrequency_inP4Range`, then `alpha`, `a0` and the coefficients from the bounds of `NUM`. -/
theorem coefficientsFinite : Obligations.CoefficientsFinite := by
  intro num sampleRate mode cutoff q hnum hlo hhi hc hq
  have hw := angularFrequency_inP4Range hlo hhi hc
  obtain ⟨haf, ha0, ha8⟩ := alpha_bounds hnum hw hq
  obtain ⟨h0f, h01, -⟩ := a0_bounds haf ha0 ha8
  refine ⟨hw, ⟨?_, h0f, (fLe_iff fFinite_f1 h0f).mpr h01⟩, coeffs_finite hnum mode hw hq⟩
  rw [fLe_iff fFinite_f0 haf, fInt_f0]
  exact ha0

end Sys2Proof.Proofs

/-!
PROOFS. Rounding keeps bounds: a sum or difference that is at most (at least) a binary32 value rounds to at most (at least)
it, and a value of at most 24 significant bits is a binary32 value, so the operations that have it as exact result give it.
-/

namespace Sys2Proof.Machine

/-! ### The order of all values that are not NaN -/

theorem fLe_eq_true {a b : S} : fLe a b = true ↔ fIsNaN a = false ∧ fIsNaN b = false ∧ fOrd a ≤ fOrd b := by
  simp [fLe, and_assoc]

theorem fOrd_fPack (neg : Bool) {mag : Nat} (h : mag < 2 ^ 31) :
    fOrd (fPack neg mag) = if neg then -(mag : Int) else (mag : Int) := by
  unfold fOrd; rw [fSign_fPack _ _ h, fMag_fPack _ _ h]

theorem fOrd_fNeg (x : S) : fOrd (fNeg x) = -fOrd x := by
  unfold fOrd; rw [fSign_fNeg, fMag_fNeg]; cases fSign x <;> simp

theorem fOrd_nonneg_of_not_sign {x : S} (h : fSign x = false) : 0 ≤ fOrd x := by
  simp [fOrd, h]

/-- A value in `[0, 1]` by the comparisons of R12 is finite. -/
theorem inUnit_of_fLe {x : S} (h0 : fLe f0 x = true) (h1 : fLe x f1 = true) : inUnit x = true := by
  obtain ⟨-, hx, hlo⟩ := fLe_eq_true.mp h0
  obtain ⟨-, -, hhi⟩ := fLe_eq_true.mp h1
  rw [show fOrd f0 = 0 by decide] at hlo
  rw [show fOrd f1 = 0x3F800000 by decide] at hhi
  have hfin : fFinite x = true := by
    rw [fFinite_iff, show infMag = 0x7F800000 by decide]
    unfold fOrd at hlo hhi
    omega
  simp [inUnit, between, hfin, h0, h1]

/-- Values that are not NaN are ordered one way or the other. -/
theorem fLe_of_not_fLe {a b : S} (ha : fIsNaN a = false) (hb : fIsNaN b = false) (h : fLe a b = false) :
    fLe b a = true := by
  rw [← Bool.not_eq_true, fLe_eq_true] at h
  exact fLe_eq_true.mpr ⟨hb, ha, by by_contra hc; exact h ⟨ha, hb, by omega⟩⟩

/-! ### Sums and differences -/

/-- The place in the order of the binary32 nearest to `z` units of 2^-149. -/
def roundOrd (z : Int) : Int := if z < 0 then -(roundMag z.natAbs 1 : Int) else roundMag z.natAbs 1

theorem fOrd_addFinite (a b : S) : fOrd (addFinite a b) = roundOrd (fInt a + fInt b) := by
  rw [addFinite_eq, fOrd_fPack _ ((roundMag_le_inf _ _).trans_lt infMag_lt), roundOrd]
  rcases eq_or_ne (fInt a + fInt b) 0 with hz | hz
  · rw [hz]; simp
  · simp [hz]

theorem roundOrd_neg (z : Int) : roundOrd (-z) = -roundOrd z := by
  unfold roundOrd
  rw [Int.natAbs_neg]
  rcases lt_trichotomy z 0 with h | rfl | h
  · rw [if_neg (by omega), if_pos h, neg_neg]
  · simp
  · rw [if_pos (by omega), if_neg (by omega)]

/-- Rounding to nearest is monotone: what is at most a finite `c` rounds to at most `c`. -/
theorem roundOrd_le {z : Int} {c : S} (hc : fFinite c = true) (h : z ≤ fInt c) : roundOrd z ≤ fOrd c := by
  have hmag := (fFinite_iff c).mp hc
  have hup : z.natAbs ≤ fUnits c → roundMag z.natAbs 1 ≤ fMag c := fun hle =>
    roundMag_le (by decide) hmag (by rw [Nat.mul_one]; exact hle)
  have hlow : fUnits c ≤ z.natAbs → fMag c ≤ roundMag z.natAbs 1 := fun hle =>
    le_roundMag (by decide) hmag (by rw [Nat.mul_one]; exact hle)
  have hzero : z = 0 → roundMag z.natAbs 1 = 0 := by rintro rfl; exact roundMag_zero 1 (by decide)
  unfold roundOrd fOrd
  unfold fInt at h
  cases hs : fSign c <;> simp only [hs, if_true, if_false, Bool.false_eq_true] at h ⊢ <;> split <;> omega

/-- The same from below. -/
theorem le_roundOrd {z : Int} {c : S} (hc : fFinite c = true) (h : fInt c ≤ z) : fOrd c ≤ roundOrd z := by
  have hneg := roundOrd_le (z := -z) (c := fNeg c) (by simpa using hc) (by rw [fInt_fNeg]; omega)
  rw [roundOrd_neg, fOrd_fNeg] at hneg
  omega

theorem fLe_addFinite_left {a b c : S} (hc : fFinite c = true) (h : fInt a + fInt b ≤ fInt c) :
    fLe (addFinite a b) c = true :=
  fLe_eq_true.mpr ⟨addFinite_notNaN a b, fIsNaN_of_finite hc, by rw [fOrd_addFinite]; exact roundOrd_le hc h⟩

theorem fLe_addFinite_right {a b c : S} (hc : fFinite c = true) (h : fInt c ≤ fInt a + fInt b) :
    fLe c (addFinite a b) = true :=
  fLe_eq_true.mpr ⟨fIsNaN_of_finite hc, addFinite_notNaN a b, by rw [fOrd_addFinite]; exact le_roundOrd hc h⟩

/-- An infinity is the only value that is neither finite nor a NaN, and a rate is never the negative one. -/
theorem finite_or_inf_of_fLe_f0 {r : S} (h : fLe f0 r = true) :
    (fFinite r = true ∧ 0 ≤ fInt r) ∨ (fIsInf r = true ∧ fSign r = false) := by
  obtain ⟨-, hn, ho⟩ := fLe_eq_true.mp h
  rcases finite_inf_or_nan r with hf | hi | hn'
  · exact .inl ⟨hf, by rw [← fInt_f0]; exact (fLe_iff fFinite_f0 hf).mp h⟩
  · refine .inr ⟨hi, ?_⟩
    cases hs : fSign r with
    | false => rfl
    | true =>
      rw [show fOrd f0 = 0 by decide] at ho
      simp only [fIsInf, beq_iff_eq] at hi
      simp [fOrd, hs, hi] at ho
      exact absurd ho (by decide)
  · rw [hn] at hn'; cases hn'

/-- A level plus a rate is not below the level's own lower bound 0, and is no NaN. -/
theorem fLe_f0_fAdd {a r : S} (ha : fFinite a = true) (h0 : 0 ≤ fInt a) (hr : fLe f0 r = true) :
    fLe f0 (fAdd a r) = true := by
  rcases finite_or_inf_of_fLe_f0 hr with ⟨hf, hr0⟩ | ⟨hi, -⟩
  · rw [fAdd_finite ha hf]
    exact fLe_addFinite_right fFinite_f0 (by rw [fInt_f0]; omega)
  · have hn : fIsNaN r = false := (fLe_eq_true.mp hr).2.1
    have : fAdd a r = r := by simp [fAdd, fIsNaN_of_finite ha, hn, fIsInf_of_finite ha, hi]
    rw [this]; exact hr

/-- A level less a rate is not above the level, and is no NaN. -/
theorem fLe_fSub_self {a r : S} (ha : fFinite a = true) (hr : fLe f0 r = true) : fLe (fSub a r) a = true := by
  rcases finite_or_inf_of_fLe_f0 hr with ⟨hf, hr0⟩ | ⟨hi, hs⟩
  · rw [fSub_finite ha hf]
    exact fLe_addFinite_left ha (by rw [fInt_fNeg]; omega)
  · have hn : fIsNaN r = false := (fLe_eq_true.mp hr).2.1
    have hsub : fSub a r = fNeg r := by simp [fSub, fIsNaN_of_finite ha, hn, fIsInf_of_finite ha, hi]
    have hmag := (fFinite_iff a).mp ha
    simp only [fIsInf, beq_iff_eq] at hi
    rw [hsub, fLe_eq_true]
    refine ⟨by simpa [fIsNaN] using hn, fIsNaN_of_finite ha, ?_⟩
    rw [fOrd_fNeg]
    simp only [fOrd, hs, hi, Bool.false_eq_true, if_false]
    split <;> omega

end Sys2Proof.Machine

/-!
PROOFS. Every micro-operation of a unit keeps that unit's invariant (R40, R31, R39).
-/

namespace Sys2Proof.Machine

/-! ### Envelopes: the rates are not negative, and the level stays in `[0, 1]` -/

/-- A value that is not negative, divided by a positive value or `+infinity`, is not negative and no NaN. -/
theorem fLe_f0_fDiv {a b : S} (ha : fFinite a = true) (h0 : 0 ≤ fInt a) (hb : notNegativeNorNaN b = true)
    (hz : fIsZero b = false) : fLe f0 (fDiv a b) = true := by
  obtain ⟨hs, hn⟩ : fSign b = false ∧ fIsNaN b = false := by simpa [notNegativeNorNaN] using hb
  rcases finite_inf_or_nan b with hf | hi | hn'
  · have hlt := (roundMag_le_inf (fUnits a * 2 ^ 149) (fUnits b)).trans_lt infMag_lt
    have hnotnan : fIsNaN (fDiv a b) = false := by
      rw [fDiv_finite ha hf hz]; exact fIsNaN_fPack _ _ (roundMag_le_inf _ _)
    refine fLe_eq_true.mpr ⟨by decide, hnotnan, ?_⟩
    rw [show fOrd f0 = 0 by decide]
    rcases h0.eq_or_lt with h | h
    · have hzero : fMag (fDiv a b) = 0 := by
        simpa [fIsZero] using fDiv_zero ((fInt_eq_zero a).mp h.symm) hf hz
      simp [fOrd, hzero]
    · exact fOrd_nonneg_of_not_sign (by rw [fSign_fDiv ha hf hz, fSign_of_fInt_pos h, hs]; rfl)
  · have hinf : fDiv a b = fPack (fSign a != fSign b) 0 := by
      simp [fDiv, fIsNaN_of_finite ha, hn, fIsInf_of_finite ha, hi]
    rw [hinf]; cases fSign a != fSign b <;> decide
  · rw [hn] at hn'; cases hn'

/-- `time * SRf` of R160 for a positive time: positive, perhaps `+infinity`, and never rounded down to zero. -/
theorem timeSamples_pos {sampleRate : Nat} {time : S} (hlo : 8000 ≤ sampleRate) (hhi : sampleRate ≤ 16777215)
    (ht : fFinite time = true) (hpos : 0 < fInt time) :
    notNegativeNorNaN (fMul time (srf sampleRate)) = true ∧ fIsZero (fMul time (srf sampleRate)) = false := by
  obtain ⟨hrf, hrs, h8000, -⟩ := srf_bounds hlo hhi
  refine ⟨notNegativeNorNaN_fMul ht hpos (by simp [notNegativeNorNaN, hrs, fIsNaN_of_finite hrf]), ?_⟩
  have hone : 2 ^ 149 ≤ fUnits (srf sampleRate) := by omega
  have hmag : fMag time ≤ fMag (fMul time (srf sampleRate)) := by
    rw [fMag_fMul ht hrf]
    exact le_roundMag (Nat.two_pow_pos _) ((fFinite_iff _).mp ht) (Nat.mul_le_mul_left _ hone)
  have hnz : fMag time ≠ 0 := by
    have : fIsZero time ≠ true := by rw [Ne, ← fInt_eq_zero]; omega
    simpa [fIsZero] using this
  simp only [fIsZero, beq_eq_false_iff_ne]
  omega

/-- A rate of R160 with a numerator that is not negative is at least zero and never NaN (R30). -/
theorem envRate_nonneg {sampleRate : Nat} {num time : S} (hlo : 8000 ≤ sampleRate) (hhi : sampleRate ≤ 16777215)
    (hn : fFinite num = true) (h0 : 0 ≤ fInt num) (ht : fFinite time = true) :
    fLe f0 (envRate sampleRate num time) = true := by
  unfold envRate
  split
  · decide
  · rename_i hle
    have hpos : 0 < fInt time := by
      rw [fLe_iff ht fFinite_f0, fInt_f0] at hle; omega
    obtain ⟨hd, hz⟩ := timeSamples_pos hlo hhi ht hpos
    exact fLe_f0_fDiv hn h0 hd hz

/-- `1 - x` for `x` in `[0, 1]`. -/
theorem inUnit_oneMinus {x : S} (h : inUnit x = true) : inUnit (fSub f1 x) = true := by
  obtain ⟨hf, h0, h1⟩ := inUnit_iff.mp h
  rw [fSub_finite fFinite_f1 hf]
  refine inUnit_of_fLe (fLe_addFinite_right fFinite_f0 ?_) (fLe_addFinite_left fFinite_f1 ?_)
  · rw [fInt_f0, fInt_f1, fInt_fNeg]; omega
  · rw [fInt_fNeg]; omega

/-- The three rates of R160 are at least zero and never NaN (R30). -/
theorem envRates_nonneg {sampleRate : Nat} {atk dcy sus rel : S} (hlo : 8000 ≤ sampleRate)
    (hhi : sampleRate ≤ 16777215) (ha : fFinite atk = true) (hd : fFinite dcy = true) (hr : fFinite rel = true)
    (hs : inUnit sus = true) :
    fLe f0 (envRates sampleRate atk dcy sus rel).atk = true ∧ fLe f0 (envRates sampleRate atk dcy sus rel).dcy = true ∧
      fLe f0 (envRates sampleRate atk dcy sus rel).rel = true := by
  obtain ⟨hsf, hs0, -⟩ := inUnit_iff.mp hs
  obtain ⟨hdf, hd0, -⟩ := inUnit_iff.mp (inUnit_oneMinus hs)
  exact ⟨envRate_nonneg hlo hhi fFinite_f1 (by decide) ha, envRate_nonneg hlo hhi hdf hd0 hd,
    envRate_nonneg hlo hhi hsf hs0 hr⟩

/-- The rate registers of an envelope that meets the invariant. -/
theorem Envelope.Inv.rates_nonneg {sampleRate : Nat} {e : Envelope} (h : e.Inv sampleRate) (hlo : 8000 ≤ sampleRate)
    (hhi : sampleRate ≤ 16777215) : fLe f0 e.atkRate = true ∧ fLe f0 e.dcyRate = true ∧ fLe f0 e.relRate = true := by
  have hrates := envRates_nonneg hlo hhi h.atk h.dcy h.rel h.sus
  rw [← h.rates] at hrates
  exact hrates

/-- Only the level and the phase move: the invariant asks no more than a level in `[0, 1]`, and `+0.0` when Idle. -/
theorem Envelope.Inv.withLevelPhase {sampleRate : Nat} {e : Envelope} (h : e.Inv sampleRate) {level : S}
    {phase : EnvPhase} (hl : inUnit level = true) (hi : phase = .idle → level = f0) :
    ({ e with level := level, phase := phase } : Envelope).Inv sampleRate :=
  ⟨h.atk, h.dcy, h.rel, h.sus, hl, hi, h.rates⟩

theorem fLe_trans {a b c : S} (h1 : fLe a b = true) (h2 : fLe b c = true) : fLe a c = true := by
  obtain ⟨ha, -, hab⟩ := fLe_eq_true.mp h1
  obtain ⟨-, hc, hbc⟩ := fLe_eq_true.mp h2
  exact fLe_eq_true.mpr ⟨ha, hc, hab.trans hbc⟩

theorem fLe_of_inUnit {x : S} (h : inUnit x = true) : fLe f0 x = true ∧ fLe x f1 = true := by
  simp only [inUnit, between, Bool.and_eq_true] at h
  exact ⟨h.1.2, h.2⟩

/-- A level that falls by a rate, and is still above a bound in `[0, 1]`, is in `[0, 1]`. -/
theorem inUnit_fSub_of_above {level rate bound : S} (hl : inUnit level = true) (hr : fLe f0 rate = true)
    (hb : inUnit bound = true) (h : fLe (fSub level rate) bound = false) : inUnit (fSub level rate) = true := by
  have hfall := fLe_fSub_self (inUnit_iff.mp hl).1 hr
  have habove := fLe_of_not_fLe (fLe_eq_true.mp hfall).1 (fIsNaN_of_finite (inUnit_iff.mp hb).1) h
  exact inUnit_of_fLe (fLe_trans (fLe_of_inUnit hb).1 habove) (fLe_trans hfall (fLe_of_inUnit hl).2)

/-- A level that rises by a rate, and is still below 1, is in `[0, 1]`. -/
theorem inUnit_fAdd_of_below {level rate : S} (hl : inUnit level = true) (hr : fLe f0 rate = true)
    (h : fGe (fAdd level rate) f1 = false) : inUnit (fAdd level rate) = true := by
  obtain ⟨hf, h0, -⟩ := inUnit_iff.mp hl
  have hrise := fLe_f0_fAdd hf h0 hr
  exact inUnit_of_fLe hrise (fLe_of_not_fLe (by decide) (fLe_eq_true.mp hrise).2.1 h)

theorem envStep_inv {sampleRate : Nat} {e : Envelope} (hlo : 8000 ≤ sampleRate) (hhi : sampleRate ≤ 16777215)
    (h : e.Inv sampleRate) : (envStep e).Inv sampleRate := by
  obtain ⟨hatk, hdcy, hrel⟩ := h.rates_nonneg hlo hhi
  unfold envStep
  split
  · exact h
  · simp only
    split
    · exact h.withLevelPhase (by decide) (fun h => nomatch h)
    · rename_i hp hb
      exact h.withLevelPhase (inUnit_fAdd_of_below h.level hatk (Bool.not_eq_true _ ▸ hb)) (by simp [hp])
  · simp only
    split
    · exact h.withLevelPhase h.sus (fun h => nomatch h)
    · rename_i hp hb
      exact h.withLevelPhase (inUnit_fSub_of_above h.level hdcy h.sus (Bool.not_eq_true _ ▸ hb)) (by simp [hp])
  · rename_i hp
    exact h.withLevelPhase h.sus (by simp [hp])
  · simp only
    split
    · exact h.withLevelPhase (by decide) (fun _ => rfl)
    · rename_i hp hb
      exact h.withLevelPhase (inUnit_fSub_of_above h.level hrel (by decide) (Bool.not_eq_true _ ▸ hb)) (by simp [hp])

theorem envSet_inv {sampleRate : Nat} {e : Envelope} (h : e.Inv sampleRate) (which : EnvParam) {x : S}
    (hx : fFinite x = true) : (envSet sampleRate e which x).Inv sampleRate := by
  cases which with
  | atk => exact ⟨hx, h.dcy, h.rel, h.sus, h.level, h.idle, rfl⟩
  | dcy => exact ⟨h.atk, hx, h.rel, h.sus, h.level, h.idle, rfl⟩
  | sus => exact ⟨h.atk, h.dcy, h.rel, clamp_between hx fFinite_f0 fFinite_f1 (by decide), h.level, h.idle, rfl⟩
  | rel => exact ⟨h.atk, h.dcy, hx, h.sus, h.level, h.idle, rfl⟩

theorem envTrigger_inv {sampleRate : Nat} {e : Envelope} (h : e.Inv sampleRate) : (envTrigger e).Inv sampleRate :=
  h.withLevelPhase (by decide) (fun h => nomatch h)

theorem envRelease_inv {sampleRate : Nat} {e : Envelope} (h : e.Inv sampleRate) : (envRelease e).Inv sampleRate := by
  unfold envRelease
  split
  · exact h.withLevelPhase h.level (fun h => nomatch h)
  · exact h

/-! ### The filter: cutoff and Q stay in their ranges, and the cache right -/

/-- `CUT_MAX` of a legal rate is finite and at least 1000 Hz: half the rate is at least 2000 Hz (R16). -/
theorem f1000_le_cutMax {sampleRate : Nat} (hlo : 8000 ≤ sampleRate) (hhi : sampleRate ≤ 16777215) :
    fFinite (cutMax sampleRate) = true ∧ fInt f1000 ≤ fInt (cutMax sampleRate) := by
  obtain ⟨hrf, hrs, h8000, -⟩ := srf_bounds hlo hhi
  have hmaxf := (cutMax_bounds hlo hhi).1
  have h0p5 : fFinite f0p5 = true := by decide
  have h0p99 : fFinite f0p99 = true := by decide
  have h2000 : magUnits 0x44FA0000 = 2000 * 2 ^ 149 := by decide
  have hhalff : fFinite (fMul (srf sampleRate) f0p5) = true :=
    (fMul_bound hrf h0p5 ((fFinite_iff _).mp hrf) (Nat.mul_le_mul_left _ (by decide))).1
  have hhalf : 0x44FA0000 ≤ fMag (fMul (srf sampleRate) f0p5) := by
    rw [fMag_fMul hrf h0p5]
    refine le_roundMag (Nat.two_pow_pos _) (by decide) ?_
    rw [h2000, show fUnits f0p5 = 2 ^ 148 by decide]
    omega
  have hunits : fUnits 0x44FA0000#32 ≤ fUnits (fMul (srf sampleRate) f0p5) :=
    (magUnits_mono (by decide) ((fFinite_iff _).mp hhalff)).mpr hhalf
  have hmag : fMag f1000 ≤ fMag (cutMax sampleRate) :=
    le_trans (by decide) (fMag_fMul_mono h0p99 (by decide) hhalff hunits)
  have hsign : fSign (cutMax sampleRate) = false := by
    rw [cutMax, fSign_fMul h0p99 hhalff, fSign_fMul hrf h0p5, hrs]; decide
  exact ⟨hmaxf, (fLe_iff (by decide) hmaxf).mp (fLe_of_fMag_le (by decide) hmaxf (by decide) hsign hmag)⟩

/-- `CUT_MIN <= CUT_MAX` (R16). -/
theorem cutMin_le_cutMax {sampleRate : Nat} (hlo : 8000 ≤ sampleRate) (hhi : sampleRate ≤ 16777215) :
    fFinite (cutMax sampleRate) = true ∧ fInt cutMin ≤ fInt (cutMax sampleRate) :=
  (f1000_le_cutMax hlo hhi).imp_right (le_trans (by decide))

/-- What `flt_set_cutoff` stores is in the cutoff's range, for every operand, finite or not (R131). -/
theorem cutoffStored_between {sampleRate : Nat} (hlo : 8000 ≤ sampleRate) (hhi : sampleRate ≤ 16777215) (c : S) :
    between cutMin (cutMax sampleRate) (cutoffStored sampleRate c) = true := by
  obtain ⟨hmaxf, hle⟩ := cutMin_le_cutMax hlo hhi
  have hminf : fFinite cutMin = true := by decide
  unfold cutoffStored
  split
  · exact clamp_between ‹_› hminf hmaxf hle
  · split
    · exact (between_iff hminf hmaxf).mpr ⟨hmaxf, hle, le_rfl⟩
    · exact (between_iff hminf hmaxf).mpr ⟨hminf, le_rfl, hle⟩

section filter
variable {num : NumFns} {sampleRate : Nat} {f : Biquad}

theorem fltSetMode_inv (h : f.Inv num sampleRate) (m : FilterMode) : (fltSetMode f m).Inv num sampleRate := by
  refine ⟨?_, ?_, fltSetMode_cacheInv h.cache m⟩ <;> unfold fltSetMode <;> split
  · exact h.cutoff
  · exact h.cutoff
  · exact h.q
  · exact h.q

theorem fltSetCutoff_inv (hlo : 8000 ≤ sampleRate) (hhi : sampleRate ≤ 16777215) (h : f.Inv num sampleRate) (c : S) :
    (fltSetCutoff sampleRate f c).Inv num sampleRate := by
  refine ⟨?_, ?_, fltSetCutoff_cacheInv h.cache c⟩ <;> unfold fltSetCutoff <;> split
  · exact cutoffStored_between hlo hhi c
  · exact h.cutoff
  · exact h.q
  · exact h.q

theorem clampedQ_between {q : S} (hq : fFinite q = true) : between qMin qMax (clamp q qMin qMax) = true :=
  clamp_between hq (by decide) (by decide) (by decide)

theorem fltSetQ_inv (h : f.Inv num sampleRate) {q : S} (hq : fFinite q = true) : (fltSetQ f q).Inv num sampleRate := by
  refine ⟨?_, ?_, fltSetQ_cacheInv h.cache q⟩ <;> unfold fltSetQ <;> split
  · exact h.cutoff
  · exact h.cutoff
  · exact clampedQ_between hq
  · exact h.q

theorem fltReset_inv (h : f.Inv num sampleRate) : (fltReset f).Inv num sampleRate := ⟨h.cutoff, h.q, h.cache⟩

theorem fltProcess_inv (h : f.Inv num sampleRate) (x : S) : (fltProcess num sampleRate f x).1.Inv num sampleRate := by
  obtain ⟨-, hmode, hcut, hq, hk⟩ := fltProcess_spec h.cache x
  exact ⟨by rw [hcut]; exact h.cutoff, by rw [hq]; exact h.q, fun _ => by rw [hk, hmode, hcut, hq]⟩

end filter

end Sys2Proof.Machine

/-!
PROOFS. The oscillator (R110, R112, R113, R116): the waveforms are exact, the cross-fade stays in `[-1, 1]` although its
three operations round, and the wrapped phase stays in `[0, 1)`.
-/

namespace Sys2Proof.Machine

/-! ### Exact results -/

theorem fUnits_fPack (neg : Bool) {mag : Nat} (h : mag < 2 ^ 31) : fUnits (fPack neg mag) = magUnits mag := by
  rw [fUnits, fMag_fPack _ _ h]

theorem fMul_comm_of_finite {a b : S} (ha : fFinite a = true) (hb : fFinite b = true) : fMul a b = fMul b a := by
  rw [fMul_finite ha hb, fMul_finite hb ha, Nat.mul_comm, bne_comm]

/-- A whole number of at most 24 bits times a power of two is a binary32 magnitude. -/
theorem exists_mag_of_significand {k j : Nat} (hk : k ≤ 2 ^ 24) (hj : j ≤ 252) :
    ∃ mag, mag < infMag ∧ magUnits mag = k * 2 ^ j := by
  have hinf : infMag = 255 * 2 ^ 23 := rfl
  induction j generalizing k with
  | zero => exact ⟨k, by omega, by simpa using magUnits_compose (s := 0) hk (.inl rfl)⟩
  | succ j ih =>
    rcases Nat.lt_or_ge k (2 ^ 23) with hlt | hge
    · obtain ⟨mag, hmag, hunits⟩ := ih (k := 2 * k) (by omega) (by omega)
      exact ⟨mag, hmag, by rw [hunits, pow_succ]; ring⟩
    · exact ⟨(j + 1) * 2 ^ 23 + k, by omega, magUnits_compose hk (.inr hge)⟩

/-- A quotient with at most 24 significant bits is not rounded. -/
theorem magUnits_roundMag {n d k j : Nat} (hd : 0 < d) (hk : k ≤ 2 ^ 24) (hj : j ≤ 252) (h : n = k * 2 ^ j * d) :
    roundMag n d < infMag ∧ magUnits (roundMag n d) = k * 2 ^ j := by
  obtain ⟨mag, hmag, hunits⟩ := exists_mag_of_significand hk hj
  rw [roundMag_eq hd hmag (by rw [hunits, h])]
  exact ⟨hmag, hunits⟩

/-- A small whole number is converted exactly (R14). -/
theorem fOfInt_exact {k : Nat} (hk : k ≤ 2 ^ 24) :
    fFinite (fOfInt k) = true ∧ fSign (fOfInt k) = false ∧ fUnits (fOfInt k) = k * 2 ^ 149 := by
  obtain ⟨hmag, hunits⟩ := magUnits_roundMag (n := k * 2 ^ 149) (d := 1) one_pos hk (j := 149) (by decide) (by ring)
  have hdef : fOfInt k = fPack false (roundMag (k * 2 ^ 149) 1) := by
    unfold fOfInt; rw [Int.natAbs_natCast, decide_eq_false (by omega)]
  rw [hdef, fUnits_fPack _ (hmag.trans infMag_lt)]
  exact ⟨fFinite_fPack _ _ hmag, fSign_fPack _ _ (hmag.trans infMag_lt), hunits⟩

theorem fMul_exact {a b : S} {k j : Nat} (ha : fFinite a = true) (hb : fFinite b = true) (hk : k ≤ 2 ^ 24)
    (hj : j ≤ 252) (h : fUnits a * fUnits b = k * 2 ^ j * 2 ^ 149) :
    fFinite (fMul a b) = true ∧ fUnits (fMul a b) = k * 2 ^ j := by
  obtain ⟨hmag, hunits⟩ := magUnits_roundMag (Nat.two_pow_pos _) hk hj h
  rw [fFinite_iff, fUnits, fMag_fMul ha hb]
  exact ⟨hmag, hunits⟩

/-- A sum that is a binary32 value is not rounded. -/
theorem fInt_addFinite_eq {a b c : S} (hc : fFinite c = true) (h : fInt a + fInt b = fInt c) :
    fFinite (addFinite a b) = true ∧ fInt (addFinite a b) = fInt a + fInt b := by
  have hord : fOrd (addFinite a b) = fOrd c := by
    rw [fOrd_addFinite]
    exact le_antisymm (roundOrd_le hc h.le) (le_roundOrd hc h.ge)
  have hfin : fFinite (addFinite a b) = true := by
    have hmag : fMag (addFinite a b) = fMag c := by
      unfold fOrd at hord; split at hord <;> split at hord <;> omega
    rw [fFinite_iff, hmag]; exact (fFinite_iff c).mp hc
  have hle := (fOrd_le_iff hfin hc).mp hord.le
  have hge := (fOrd_le_iff hc hfin).mp hord.ge
  exact ⟨hfin, by omega⟩

theorem fInt_addFinite_exact {a b : S} {k j : Nat} (hk : k ≤ 2 ^ 24) (hj : j ≤ 252)
    (h : (fInt a + fInt b).natAbs = k * 2 ^ j) :
    fFinite (addFinite a b) = true ∧ fInt (addFinite a b) = fInt a + fInt b := by
  obtain ⟨mag, hmag, hunits⟩ := exists_mag_of_significand hk hj
  have hlt := hmag.trans infMag_lt
  refine fInt_addFinite_eq (c := fPack (decide (fInt a + fInt b < 0)) mag) (fFinite_fPack _ _ hmag) ?_
  rw [fInt_fPack _ _ hlt, hunits, ← h]
  rcases lt_or_ge (fInt a + fInt b) 0 with hz | hz
  · rw [decide_eq_true hz, if_pos rfl]; omega
  · rw [decide_eq_false hz.not_gt, if_neg Bool.false_ne_true]; omega

/-- A zero added to a finite value leaves its value. -/
theorem fInt_fAdd_zero {x z : S} (hx : fFinite x = true) (hz : fIsZero z = true) :
    fFinite (fAdd x z) = true ∧ fInt (fAdd x z) = fInt x := by
  have h0 := (fInt_eq_zero z).mpr hz
  rw [fAdd_finite hx (fFinite_of_fIsZero hz)]
  obtain ⟨hf, hi⟩ := fInt_addFinite_eq (a := x) (b := z) hx (by omega)
  exact ⟨hf, by omega⟩

/-! ### The waveforms (R110) -/

theorem wtTime_exact {i : Nat} (hi : i < 256) :
    fFinite (wtTime i) = true ∧ fSign (wtTime i) = false ∧ fUnits (wtTime i) = i * 2 ^ 141 := by
  obtain ⟨hf, hs, hu⟩ := fOfInt_exact (k := i) (by omega)
  have h256 : fFinite f256 = true := by decide
  have hu256 : fUnits f256 = 2 ^ 157 := by decide
  obtain ⟨hmag, hunits⟩ := magUnits_roundMag (n := fUnits (fOfInt i) * 2 ^ 149) (d := fUnits f256) (k := i) (j := 141)
    (by rw [hu256]; decide) (by omega) (by decide) (by rw [hu, hu256]; ring)
  have hlt := hmag.trans infMag_lt
  have hdiv : wtTime i = fPack false (roundMag (fUnits (fOfInt i) * 2 ^ 149) (fUnits f256)) := by
    rw [wtTime, fDiv_finite hf h256 (by decide), hs]; rfl
  rw [hdiv, fUnits_fPack _ hlt]
  exact ⟨fFinite_fPack _ _ hmag, fSign_fPack _ _ hlt, hunits⟩

theorem fInt_scaledTime {i : Nat} (hi : i < 256) {c : S} {e : Nat} (he : e ≤ 2) (hc : fFinite c = true)
    (hs : fSign c = false) (hu : fUnits c = 2 ^ (149 + e)) :
    fFinite (fMul c (wtTime i)) = true ∧ fInt (fMul c (wtTime i)) = i * 2 ^ (141 + e) := by
  obtain ⟨htf, hts, htu⟩ := wtTime_exact hi
  obtain ⟨hf, hunits⟩ := fMul_exact (k := i) (j := 141 + e) hc htf (by omega) (by omega) (by rw [hu, htu]; ring)
  refine ⟨hf, ?_⟩
  rw [fInt_of_not_sign (by rw [fSign_fMul hc htf, hs, hts]; rfl), hunits]
  push_cast; ring

/-- The sawtooth is `2*(i/256) - 1` exactly. -/
theorem wtSaw_exact {i : Nat} (hi : i < 256) :
    fFinite (wtSaw i) = true ∧ fInt (wtSaw i) = ((i : Int) - 128) * 2 ^ 142 := by
  obtain ⟨hf, ht⟩ := fInt_scaledTime hi (c := f2) (e := 1) (by decide) (by decide) (by decide) (by decide)
  have hsum : fInt (fMul f2 (wtTime i)) + fInt (fNeg f1) = ((i : Int) - 128) * 2 ^ 142 := by
    rw [ht, fInt_fNeg, fInt_f1]; ring
  rw [wtSaw, fSub_finite hf fFinite_f1, ← hsum]
  refine fInt_addFinite_exact (k := ((i : Int) - 128).natAbs) (j := 142) (by omega) (by decide) ?_
  rw [hsum, Int.natAbs_mul]; rfl

/-- The triangle rises from -1 to 1 in the first half of the period and falls in the second, exactly. -/
theorem wtTri_exact {i : Nat} (hi : i < 256) :
    fFinite (wtTri i) = true ∧ fInt (wtTri i) = (if i < 128 then (i : Int) - 64 else 192 - (i : Int)) * 2 ^ 143 := by
  obtain ⟨hf, ht⟩ := fInt_scaledTime hi (c := f4) (e := 2) (by decide) (by decide) (by decide) (by decide)
  have h3 : fFinite f3 = true := by decide
  have hi3 : fInt f3 = 3 * 2 ^ 149 := by decide
  unfold wtTri
  split
  · have hsum : fInt (fMul f4 (wtTime i)) + fInt (fNeg f1) = ((i : Int) - 64) * 2 ^ 143 := by
      rw [ht, fInt_fNeg, fInt_f1]; ring
    rw [fSub_finite hf fFinite_f1, ← hsum]
    refine fInt_addFinite_exact (k := ((i : Int) - 64).natAbs) (j := 143) (by omega) (by decide) ?_
    rw [hsum, Int.natAbs_mul]; rfl
  · have hsum : fInt f3 + fInt (fNeg (fMul f4 (wtTime i))) = (192 - (i : Int)) * 2 ^ 143 := by
      rw [fInt_fNeg, ht, hi3]; ring
    rw [fSub_finite h3 hf, ← hsum]
    refine fInt_addFinite_exact (k := (192 - (i : Int)).natAbs) (j := 143) (by omega) (by decide) ?_
    rw [hsum, Int.natAbs_mul]; rfl

/-! ### The cross-fade stays in `[-1, 1]` -/

theorem between_neg1_f1_iff {x : S} : between fNeg1 f1 x = true ↔ fFinite x = true ∧ fUnits x ≤ 2 ^ 149 := by
  refine ⟨fUnits_le_of_between_neg1_f1, fun ⟨hf, hu⟩ => (between_iff (by decide) fFinite_f1).mpr ⟨hf, ?_⟩⟩
  rw [fInt_fNeg1, fInt_f1]
  rw [← natAbs_fInt] at hu
  omega

theorem wtSaw_between {i : Nat} (hi : i < 256) : between fNeg1 f1 (wtSaw i) = true := by
  obtain ⟨hf, hint⟩ := wtSaw_exact hi
  rw [between_neg1_f1_iff, ← natAbs_fInt, hint]
  exact ⟨hf, by omega⟩

theorem wtTri_between {i : Nat} (hi : i < 256) : between fNeg1 f1 (wtTri i) = true := by
  obtain ⟨hf, hint⟩ := wtTri_exact hi
  rw [between_neg1_f1_iff, ← natAbs_fInt, hint]
  refine ⟨hf, ?_⟩
  split <;> omega

theorem wtSquare_between (i : Nat) : between fNeg1 f1 (wtSquare i) = true := by
  unfold wtSquare; split <;> decide

/-- A product with a factor of magnitude at most 1 is no larger than the other factor. -/
theorem fUnits_fMul_le {a b : S} (ha : fFinite a = true) (hb : between fNeg1 f1 b = true) :
    fFinite (fMul a b) = true ∧ fUnits (fMul a b) ≤ fUnits a := by
  obtain ⟨hbf, hb1⟩ := between_neg1_f1_iff.mp hb
  have hmag := (fFinite_iff a).mp ha
  obtain ⟨hf, hle⟩ := fMul_bound ha hbf hmag (Nat.mul_le_mul_left _ hb1)
  exact ⟨hf, (magUnits_mono ((fFinite_iff _).mp hf) hmag).mpr hle⟩

/-- `1 - m` rounds up by at most `2^-24`, half the distance from 1 to the next binary32 value. -/
theorem oneMinus_add_le {m : S} (hm : inUnit m = true) : fUnits (fSub f1 m) + fUnits m ≤ 2 ^ 149 + 2 ^ 125 := by
  obtain ⟨hf, h0, h1⟩ := inUnit_iff.mp hm
  have hunits : fUnits (fSub f1 m) = magUnits (roundMag (fInt f1 + fInt (fNeg m)).natAbs 1) := by
    rw [fSub_finite fFinite_f1 hf, addFinite_eq, fUnits_fPack _ ((roundMag_le_inf _ _).trans_lt infMag_lt)]
  have hup := roundMag_upper (fInt f1 + fInt (fNeg m)).natAbs 1 one_pos
  rw [← hunits, fInt_fNeg, fInt_f1] at hup
  rw [← natAbs_fInt m]
  omega

/-- The cross-fade of two values in `[-1, 1]` is in `[-1, 1]`: the exact sum of the rounded products exceeds 1 by at most
`2^-24`, which rounds to 1, ties going to even (R116 (a)). -/
theorem crossFade_between {m a b : S} (hm : inUnit m = true) (ha : between fNeg1 f1 a = true)
    (hb : between fNeg1 f1 b = true) : between fNeg1 f1 (crossFade m a b) = true := by
  obtain ⟨haf, hau⟩ := fUnits_fMul_le (inUnit_iff.mp (inUnit_oneMinus hm)).1 ha
  obtain ⟨hbf, hbu⟩ := fUnits_fMul_le (inUnit_iff.mp hm).1 hb
  have hsum : (fInt (fMul (fSub f1 m) a) + fInt (fMul m b)).natAbs ≤ 2 ^ 149 + 2 ^ 125 := by
    have htri := Int.natAbs_add_le (fInt (fMul (fSub f1 m) a)) (fInt (fMul m b))
    rw [natAbs_fInt, natAbs_fInt] at htri
    have := oneMinus_add_le hm
    omega
  have hround : roundMag (fInt (fMul (fSub f1 m) a) + fInt (fMul m b)).natAbs 1 ≤ fMag f1 :=
    (roundMag_mono (n2 := 2 ^ 149 + 2 ^ 125) one_pos one_pos (by omega)).trans (by decide)
  have hinf : fMag f1 < infMag := by decide
  rw [crossFade, fAdd_finite haf hbf, addFinite_eq, between_neg1_f1_iff,
    fUnits_fPack _ (hround.trans_lt (hinf.trans infMag_lt))]
  refine ⟨fFinite_fPack _ _ (hround.trans_lt hinf), ?_⟩
  exact ((magUnits_mono (hround.trans_lt hinf) hinf).mpr hround).trans (by decide)

/-- Twice a value in `[0, 0.5]` is in `[0, 1]`. -/
theorem inUnit_twice {x : S} (hf : fFinite x = true) (h0 : 0 ≤ fInt x) (h1 : fInt x ≤ 2 ^ 148) :
    inUnit (fMul x f2) = true := by
  have hu : fUnits x ≤ 2 ^ 148 := by rw [← natAbs_fInt]; omega
  obtain ⟨hpf, hmag⟩ := fMul_bound (mag := fMag f1) (b := f2) hf (by decide) (by decide) (by
    rw [show magUnits (fMag f1) = 2 ^ 149 by decide, show fUnits f2 = 2 ^ 150 by decide]; omega)
  have hpu : fUnits (fMul x f2) ≤ 2 ^ 149 :=
    ((magUnits_mono ((fFinite_iff _).mp hpf) (by decide)).mpr hmag).trans (by decide)
  refine inUnit_iff.mpr ⟨hpf, ?_, (fInt_le_fUnits _).trans (by exact_mod_cast hpu)⟩
  rcases h0.eq_or_lt with h | h
  · rw [(fInt_eq_zero _).mpr (fMul_zero hf (by decide) (.inl ((fInt_eq_zero x).mp h.symm)))]
  · rw [fInt_of_not_sign (by rw [fSign_fMul hf (by decide), fSign_of_fInt_pos h]; decide)]
    exact Int.natCast_nonneg _

/-- Every entry of the table of a shape in `[0, 1]` is finite and in `[-1, 1]` (R116 (a)). -/
theorem wtEntry_between {shape : S} (hs : inUnit shape = true) {i : Nat} (hi : i < 256) :
    between fNeg1 f1 (wtEntry shape i) = true := by
  obtain ⟨hf, h0, h1⟩ := inUnit_iff.mp hs
  have hhalf : fFinite f0p5 = true := by decide
  have hihalf : fInt f0p5 = 2 ^ 148 := by decide
  unfold wtEntry
  split
  · rename_i hlt
    rw [fLt_iff hf hhalf, hihalf] at hlt
    exact crossFade_between (inUnit_twice hf h0 hlt.le) (wtSaw_between hi) (wtTri_between hi)
  · rename_i hge
    rw [fLt_iff hf hhalf, hihalf] at hge
    have hsub := fSub_finite hf hhalf
    have hdf := fFinite_fSub_of_le_eight hf hhalf (by rw [← natAbs_fInt]; omega) (by decide)
    have hlo : fLe f0 (fSub shape f0p5) = true := by
      rw [hsub]; exact fLe_addFinite_right fFinite_f0 (by rw [fInt_fNeg, fInt_f0, hihalf]; omega)
    have hhi : fLe (fSub shape f0p5) f0p5 = true := by
      rw [hsub]; exact fLe_addFinite_left hhalf (by rw [fInt_fNeg, hihalf]; omega)
    rw [fLe_iff fFinite_f0 hdf, fInt_f0] at hlo
    rw [fLe_iff hdf hhalf, hihalf] at hhi
    exact crossFade_between (inUnit_twice hdf hlo hhi) (wtTri_between hi) (wtSquare_between i)

/-- The table of shape 0, the reset contents, is the sawtooth exactly. -/
theorem wtEntry_f0_exact {i : Nat} (hi : i < 256) :
    fInt (wtEntry f0 i) * 128 = ((i : Int) - 128) * 2 ^ 149 := by
  obtain ⟨hsf, hs⟩ := wtSaw_exact hi
  have hzero := fMul_zero (a := f0) fFinite_f0 (wtTri_exact hi).1 (.inl (by decide))
  have hone : fMul f1 (wtSaw i) = wtSaw i := by
    rw [fMul_comm_of_finite fFinite_f1 hsf, fMul_one hsf]
  have hentry : wtEntry f0 i = fAdd (wtSaw i) (fMul f0 (wtTri i)) := by
    rw [wtEntry, if_pos (by decide), crossFade, show fMul f0 f2 = f0 by decide, show fSub f1 f0 = f1 by decide, hone]
  rw [hentry, (fInt_fAdd_zero hsf hzero).2, hs]
  ring

/-! ### The phase stays in `[0, 1)` (R116 (b)) -/

/-- A finite value less an infinity or a NaN is not finite. -/
theorem not_finite_fSub {a b : S} (ha : fFinite a = true) (hb : fFinite b = false) : fFinite (fSub a b) = false := by
  unfold fSub
  rw [fIsNaN_of_finite ha, fIsInf_of_finite ha, Bool.false_or]
  rcases (not_finite_iff b).mp hb with hi | hn
  · split
    · exact not_finite_fNaN _ _ _
    · simp [hb]
  · rw [if_pos hn]; exact not_finite_fNaN _ _ _

/-- A sum is `-0` only when both operands are negative. -/
theorem signs_of_addFinite_eq_neg_zero {a b : S} (h : addFinite a b = fNeg f0) : fSign a = true ∧ fSign b = true := by
  have hlt := (roundMag_le_inf (fInt a + fInt b).natAbs 1).trans_lt infMag_lt
  have hmag : roundMag (fInt a + fInt b).natAbs 1 = 0 := by
    have := congrArg fMag h
    rwa [addFinite_eq, fMag_fPack _ _ hlt] at this
  have hz : fInt a + fInt b = 0 := by
    by_contra hne
    have : 1 ≤ roundMag (fInt a + fInt b).natAbs 1 :=
      le_roundMag one_pos (by decide) (by rw [show magUnits 1 = 1 by decide]; omega)
    omega
  by_contra hsigns
  rw [addFinite_ne_neg_zero hsigns hz] at h
  exact absurd h (by decide)

/-- The floor of a negative value, `-0` included, is negative. -/
theorem fSign_fFloor {p : S} (hp : fFinite p = true) (hs : fSign p = true) : fSign (fFloor p) = true := by
  cases hz : fIsZero p with
  | true => simpa [fFloor, hz] using hs
  | false =>
    have hneg : fInt p < 0 := by
      have hne : fInt p ≠ 0 := fun h => by simp [(fInt_eq_zero p).mp h] at hz
      have hle : fInt p ≤ 0 := by simp [fInt, hs]
      omega
    have hfloor : floorInt p < 0 := Int.ediv_neg_of_neg_of_pos hneg (by decide)
    simp only [fFloor, hz, hp, Bool.not_true, Bool.or_self, Bool.false_eq_true, if_false, fOfInt]
    rw [fSign_fPack _ _ ((roundMag_le_inf _ _).trans_lt infMag_lt)]
    exact decide_eq_true hfloor

/-- A value less its floor is never `-0`. -/
theorem fSub_fFloor_ne_neg_zero {p : S} (hp : fFinite p = true) : fSub p (fFloor p) ≠ fNeg f0 := by
  intro h
  cases hf : fFinite (fFloor p) with
  | false =>
    have hnot := not_finite_fSub hp hf
    rw [h] at hnot
    exact absurd hnot (by decide)
  | true =>
    rw [fSub_finite hp hf] at h
    obtain ⟨hs, hs'⟩ := signs_of_addFinite_eq_neg_zero h
    rw [fSign_fNeg, fSign_fFloor hp hs] at hs'
    cases hs'

theorem wrapPhase_inRange (p : S) : phaseInRange (wrapPhase p) = true := by
  rcases wrapPhase_cases p with h | ⟨hp, hsub, hge, hlt⟩
  · rw [h]; exact phaseInRange_f0
  · have hne : wrapPhase p ≠ fNeg f0 := by rw [hsub]; exact fSub_fFloor_ne_neg_zero hp
    simp only [phaseInRange, Bool.and_eq_true, bne_iff_ne]
    exact ⟨⟨hge, hlt⟩, hne⟩

theorem Oscillator.Inv.withPhase {o : Oscillator} (h : o.Inv) {phase : S} (hp : phaseInRange phase = true) :
    ({ o with phase := phase } : Oscillator).Inv := ⟨hp, h.canonical, h.entries⟩

theorem oscReset_inv {o : Oscillator} (h : o.Inv) : (oscReset o).Inv := h.withPhase phaseInRange_f0

theorem oscNext_inv {o : Oscillator} (h : o.Inv) (sampleRate : Nat) (f : S) : (oscNext sampleRate o f).1.Inv :=
  h.withPhase (wrapPhase_inRange _)

/-- Writing the whole table with that of a shape in `[0, 1]` keeps the invariant (R111, R116 (a)). -/
theorem writeTable_inv {o : Oscillator} (h : o.Inv) {shape : S} (hs : inUnit shape = true) :
    ({ o with wt := Memory.writeAll o.wt (wtEntry shape) } : Oscillator).Inv where
  phase := h.phase
  canonical := Memory.wf_writeAll _ _ h.canonical
  entries := by
    intro i hi
    rw [Memory.read_writeAll _ _ _ h.canonical, if_pos hi]
    exact wtEntry_between hs hi

end Sys2Proof.Machine

/-!
PROOFS. Every step keeps the invariant of the block (R40): each command by what its micro-operations keep, a move of the host
because it writes nothing of the block or resets it.
-/

namespace Sys2Proof.Machine

/-! ### The voice unit and the output unit -/

section units
variable {num : NumFns} {sampleRate : Nat}

theorem Voice.Inv.withOsc {u : Voice} (h : u.Inv num sampleRate) {o : Oscillator} (ho : o.Inv) :
    ({ u with osc := o } : Voice).Inv num sampleRate := { h with osc := ho }

theorem Voice.Inv.withFlt {u : Voice} (h : u.Inv num sampleRate) {f : Biquad} (hf : f.Inv num sampleRate) :
    ({ u with flt := f } : Voice).Inv num sampleRate := { h with flt := hf }

theorem Voice.Inv.setEnv {u : Voice} (h : u.Inv num sampleRate) (sel : EnvSel) {e : Envelope} (he : e.Inv sampleRate) :
    (u.setEnv sel e).Inv num sampleRate := by
  cases sel with
  | amp => exact { h with amp := he }
  | feg => exact { h with feg := he }

theorem Voice.Inv.env {u : Voice} (h : u.Inv num sampleRate) (sel : EnvSel) : (u.env sel).Inv sampleRate := by
  cases sel with
  | amp => exact h.amp
  | feg => exact h.feg

theorem clamp_inUnit {x : S} (hx : fFinite x = true) : inUnit (clamp x f0 f1) = true :=
  clamp_between hx fFinite_f0 fFinite_f1 (by decide)

theorem voiceTrigger_inv {u : Voice} (h : u.Inv num sampleRate) {frequency volume : S}
    (hf : fFinite frequency = true) (hv : fFinite volume = true) (hpos : fGt frequency f0 = true) :
    (voiceTrigger u frequency volume).Inv num sampleRate :=
  { h with
    osc := oscReset_inv h.osc
    flt := fltReset_inv h.flt
    amp := envTrigger_inv h.amp
    feg := envTrigger_inv h.feg
    baseFreq := (Bool.and_eq_true _ _).mpr ⟨hf, hpos⟩
    volume := clamp_inUnit hv }

theorem voiceRelease_inv {u : Voice} (h : u.Inv num sampleRate) : (voiceRelease u).Inv num sampleRate :=
  { h with amp := envRelease_inv h.amp, feg := envRelease_inv h.feg }

theorem voiceNext_inv {u : Voice} (hlo : 8000 ≤ sampleRate) (hhi : sampleRate ≤ 16777215) (h : u.Inv num sampleRate) :
    (voiceNext num sampleRate u).1.Inv num sampleRate := by
  unfold voiceNext
  split
  · exact h
  · exact { h with
      osc := oscNext_inv h.osc sampleRate _
      flt := fltProcess_inv (fltSetCutoff_inv hlo hhi h.flt _) _
      amp := envStep_inv hlo hhi h.amp
      feg := envStep_inv hlo hhi h.feg }

theorem renderVoices_inv (hlo : 8000 ≤ sampleRate) (hhi : sampleRate ≤ 16777215) (us : List Voice) (acc : S)
    (h : ∀ u ∈ us, u.Inv num sampleRate) : ∀ u ∈ (renderVoices num sampleRate us acc).1, u.Inv num sampleRate := by
  induction us generalizing acc with
  | nil => exact h
  | cons u us ih =>
    obtain ⟨hu, hus⟩ := List.forall_mem_cons.mp h
    exact List.forall_mem_cons.mpr ⟨voiceNext_inv hlo hhi hu, ih _ hus⟩

theorem OutputUnit.Inv.selectAlgo {o : OutputUnit} (h : o.Inv num sampleRate) (a : Algo) :
    ({ o with algo := a, pf := fltReset o.pf } : OutputUnit).Inv num sampleRate :=
  ⟨h.drive, h.fixed, fltReset_inv h.pf⟩

theorem OutputUnit.Inv.withDrive {o : OutputUnit} (h : o.Inv num sampleRate) {drive : S} (hd : inUnit drive = true) :
    ({ o with drive := drive } : OutputUnit).Inv num sampleRate := ⟨hd, h.fixed, h.pf⟩

theorem opProcess_inv {o : OutputUnit} (h : o.Inv num sampleRate) (x : S) :
    (opProcess num sampleRate o x).1.Inv num sampleRate := by
  obtain ⟨-, hmode, hcut, hq, -⟩ := fltProcess_spec h.pf.cache (shapeSample num o.algo o.drive x)
  obtain ⟨fmode, fcut, fq⟩ := h.fixed
  exact ⟨h.drive, ⟨hmode.trans fmode, hcut.trans fcut, hq.trans fq⟩, fltProcess_inv h.pf _⟩

end units

/-! ### The commands -/

theorem statusReservedZero_setIll {status : BitVec 32} (h : statusReservedZero status) :
    statusReservedZero (setIll status) := fun k hk => by rw [getLsbD_setIll _ _ hk, h k hk]

namespace State.BlockInv

theorem raiseIllegal {s : State} (h : s.BlockInv) : s.raiseIllegal.BlockInv :=
  ⟨h.legal, h.voices, h.op, statusReservedZero_setIll h.status⟩

theorem respond {s : State} (h : s.BlockInv) (r0 r1 : BitVec 32) : (s.respond r0 r1).BlockInv :=
  ⟨h.legal, h.voices, h.op, h.status⟩

theorem withVoices {s : State} (h : s.BlockInv) {us : List Voice} (hlen : us.length = s.nVoices)
    (hus : ∀ u ∈ us, u.Inv NumFns.machine s.params.sampleRate) : ({ s with voices := us } : State).BlockInv where
  legal := by rw [State.nVoices, hlen]; exact h.legal
  voices := hus
  op := h.op
  status := h.status

theorem setVoice {s : State} (h : s.BlockInv) (v : BitVec 8) {u : Voice}
    (hu : u.Inv NumFns.machine s.params.sampleRate) : (s.setVoice v u).BlockInv :=
  h.withVoices List.length_set fun _ hw =>
    (List.mem_or_eq_of_mem_set hw).elim (h.voices _) (fun heq => heq ▸ hu)

theorem withOp {s : State} (h : s.BlockInv) {o : OutputUnit} (ho : o.Inv NumFns.machine s.params.sampleRate) :
    ({ s with op := o } : State).BlockInv := { h with op := ho }

variable {s t : State} (h : s.BlockInv)
include h

/-- A command on a voice unit keeps the invariant when its effect on the unit does. -/
theorem of_onVoice {v : BitVec 8} {legal : Bool} {f : Voice → Voice × BitVec 32 × BitVec 32}
    (ht : s.onVoice v legal f = .next t)
    (hf : legal = true → ∀ u, u.Inv NumFns.machine s.params.sampleRate →
      (f u).1.Inv NumFns.machine s.params.sampleRate) : t.BlockInv := by
  rcases State.onVoice_cases ht with ⟨rfl, -⟩ | ⟨u, hu, hl, rfl⟩
  · exact h.raiseIllegal
  · exact (h.setVoice v (hf hl u (h.voices u (List.mem_of_getElem? hu)))).respond _ _

/-- The same for a command on an envelope. -/
theorem of_onEnv {v e : BitVec 8} {legal : Bool} {f : Envelope → Envelope × BitVec 32 × BitVec 32}
    (ht : s.onEnv v e legal f = .next t)
    (hf : legal = true → ∀ x, x.Inv s.params.sampleRate → (f x).1.Inv s.params.sampleRate) : t.BlockInv := by
  rcases State.onEnv_cases ht with ⟨rfl, -⟩ | ⟨sel, u, -, hu, hl, rfl⟩
  · exact h.raiseIllegal
  · have hinv := h.voices u (List.mem_of_getElem? hu)
    exact (h.setVoice v (hinv.setEnv sel (hf hl _ (hinv.env sel)))).respond _ _

theorem of_execFltMode {v mode : BitVec 8} (ht : execFltMode v mode s = .next t) : t.BlockInv := by
  unfold execFltMode at ht
  split at ht
  · cases ht; exact h.raiseIllegal
  · exact h.of_onVoice ht (fun _ u hu => hu.withFlt (fltSetMode_inv hu.flt _))

theorem of_execOpAlgo {index : BitVec 8} (ht : execOpAlgo index s = .next t) : t.BlockInv := by
  unfold execOpAlgo at ht
  split at ht
  · cases ht; exact h.raiseIllegal
  · cases ht; exact (h.withOp (h.op.selectAlgo _)).respond 0 0

theorem of_execOpDrive {drive : S} (ht : execOpDrive drive s = .next t) : t.BlockInv := by
  unfold execOpDrive at ht
  split at ht
  · cases ht; exact (h.withOp (h.op.withDrive (clamp_inUnit ‹_›))).respond 0 0
  · cases ht; exact h.raiseIllegal

theorem of_execOpProc {x : S} (ht : execOpProc x s = .next t) : t.BlockInv := by
  unfold execOpProc execOpProcWith at ht
  split at ht
  · cases ht; exact (h.withOp (opProcess_inv h.op x)).respond _ 0
  · cases ht; exact h.raiseIllegal

theorem of_execRender (ht : execRender s = .next t) : t.BlockInv := by
  cases ht
  have hvoices := renderVoices_inv h.legal.rateLow h.legal.rateHigh s.voices f0 h.voices
  exact ((h.withVoices (renderVoices_length _ _ _ _) hvoices).withOp (opProcess_inv h.op _)).respond _ _

/-- Every command keeps the invariant of the block. -/
theorem of_exec {i : Instr} (ht : exec i s = .next t) : t.BlockInv := by
  have hlo := h.legal.rateLow
  have hhi := h.legal.rateHigh
  obtain ⟨hmaxf, hmax⟩ := cutMin_le_cutMax hlo hhi
  cases i with
  | nop => cases ht; exact h.respond _ _
  | statusRd => cases ht; exact h.respond _ _
  | oscWt => exact h.of_onVoice ht (fun hx u hu => hu.withOsc (writeTable_inv hu.osc (clamp_inUnit hx)))
  | oscRst => exact h.of_onVoice ht (fun _ u hu => hu.withOsc (oscReset_inv hu.osc))
  | oscNext => exact h.of_onVoice ht (fun _ u hu => hu.withOsc (oscNext_inv hu.osc _ _))
  | oscRdt => exact h.of_onVoice ht (fun _ _ hu => hu)
  | fltMode => exact h.of_execFltMode ht
  | fltCut => exact h.of_onVoice ht (fun _ u hu => hu.withFlt (fltSetCutoff_inv hlo hhi hu.flt _))
  | fltQ => exact h.of_onVoice ht (fun hx u hu => hu.withFlt (fltSetQ_inv hu.flt hx))
  | fltRst => exact h.of_onVoice ht (fun _ u hu => hu.withFlt (fltReset_inv hu.flt))
  | fltProc => exact h.of_onVoice ht (fun _ u hu => hu.withFlt (fltProcess_inv hu.flt _))
  | envSetA | envSetD | envSetS | envSetR =>
    simp only [exec, execEnvSetA, execEnvSetD, execEnvSetS, execEnvSetR] at ht
    exact h.of_onEnv ht (fun hx e he => envSet_inv he _ hx)
  | envTrig =>
    simp only [exec, execEnvTrig] at ht
    exact h.of_onEnv ht (fun _ e he => envTrigger_inv he)
  | envRls =>
    simp only [exec, execEnvRls] at ht
    exact h.of_onEnv ht (fun _ e he => envRelease_inv he)
  | envNext =>
    simp only [exec, execEnvNext] at ht
    exact h.of_onEnv ht (fun _ e he => envStep_inv hlo hhi he)
  | envRdp =>
    simp only [exec, execEnvRdp] at ht
    exact h.of_onEnv ht (fun _ _ he => he)
  | vTrig =>
    refine h.of_onVoice ht (fun hx u hu => ?_)
    obtain ⟨⟨hf, hv⟩, hpos⟩ := by simpa only [Bool.and_eq_true] using hx
    exact voiceTrigger_inv hu hf hv hpos
  | vRls => exact h.of_onVoice ht (fun _ u hu => voiceRelease_inv hu)
  | vNext => exact h.of_onVoice ht (fun _ u hu => voiceNext_inv hlo hhi hu)
  | vBend =>
    exact h.of_onVoice ht (fun hx u hu => { hu with bend := clamp_between hx (by decide) fFinite_f1 (by decide) })
  | vBrng => exact h.of_onVoice ht (fun hx u hu => { hu with bendRange := hx })
  | vCut => exact h.of_onVoice ht (fun hx u hu => { hu with baseCutoff := clamp_between hx (by decide) hmaxf hmax })
  | vDepth => exact h.of_onVoice ht (fun hx u hu => { hu with fegDepth := clamp_inUnit hx })
  | vActive => exact h.of_onVoice ht (fun _ _ hu => hu)
  | opAlgo => exact h.of_execOpAlgo ht
  | opDrive => exact h.of_execOpDrive ht
  | opProc => exact h.of_execOpProc ht
  | render => exact h.of_execRender ht

theorem of_execCommand {c : Command} (ht : execCommand c s = .next t) : t.BlockInv := by
  cases hd : decode c with
  | command i => exact h.of_exec (execCommand_of_command hd s ▸ ht)
  | illegal why => rw [execCommand_of_illegal hd] at ht; cases ht; exact h.raiseIllegal

end State.BlockInv

/-! ### Reset -/

theorem envelope_reset_inv (sampleRate : Nat) : Envelope.reset.Inv sampleRate where
  atk := by decide
  dcy := by decide
  rel := by decide
  sus := by decide
  level := by decide
  idle := fun _ => rfl
  rates := by
    have hz : fLe f0 f0 = true := by decide
    simp [Envelope.RatesInv, Envelope.rates, Envelope.reset, envRates, envRate, hz]

theorem oscillator_reset_inv : Voice.reset.osc.Inv where
  phase := phaseInRange_f0
  canonical := Memory.wf_nil
  entries := by
    intro i hi
    change between fNeg1 f1 (wtEntry f0 i) = true
    exact wtEntry_between (by decide) hi

theorem filter_reset_cutoff (cutoff : S) : (Biquad.reset cutoff).cutoff = cutoff := rfl

theorem output_reset_pf (sampleRate : Nat) :
    (OutputUnit.reset sampleRate).pf = Biquad.reset (clamp f10000 cutMin (cutMax sampleRate)) := rfl

/-- The post filter's control registers after reset (R230). -/
theorem output_reset_postFilterFixed (sampleRate : Nat) : (OutputUnit.reset sampleRate).PostFilterFixed sampleRate := by
  rw [OutputUnit.PostFilterFixed, output_reset_pf]
  exact ⟨rfl, filter_reset_cutoff _, rfl⟩

/-- A filter is reset dirty, so nothing is asked of its coefficient registers. -/
theorem filter_reset_inv {num : NumFns} {sampleRate : Nat} {cutoff : S}
    (hc : between cutMin (cutMax sampleRate) cutoff = true) : (Biquad.reset cutoff).Inv num sampleRate :=
  ⟨hc, show between qMin qMax f0p707 = true by decide, fun h => nomatch h⟩

section reset
variable {num : NumFns} {sampleRate : Nat} (hlo : 8000 ≤ sampleRate) (hhi : sampleRate ≤ 16777215)
include hlo hhi

/-- 1000 Hz, the reset cutoff of every voice filter, is in the range of every legal rate. -/
theorem f1000_between : between cutMin (cutMax sampleRate) f1000 = true := by
  obtain ⟨hf, hle⟩ := f1000_le_cutMax hlo hhi
  exact (between_iff (by decide) hf).mpr ⟨by decide, by decide, hle⟩

theorem voice_reset_inv : Voice.reset.Inv num sampleRate where
  osc := oscillator_reset_inv
  flt := filter_reset_inv (f1000_between hlo hhi)
  amp := envelope_reset_inv sampleRate
  feg := envelope_reset_inv sampleRate
  baseFreq := by decide
  volume := by decide
  bend := by decide
  bendRange := by decide
  baseCutoff := f1000_between hlo hhi
  fegDepth := by decide

theorem output_reset_inv : (OutputUnit.reset sampleRate).Inv num sampleRate where
  drive := show inUnit f0p5 = true by decide
  fixed := output_reset_postFilterFixed sampleRate
  pf := by
    obtain ⟨hmaxf, hmax⟩ := cutMin_le_cutMax hlo hhi
    rw [output_reset_pf]
    exact filter_reset_inv (clamp_between (by decide) (by decide) hmaxf hmax)

end reset

/-- The reset state meets the invariant of the block, for every legal choice of the parameters (R41). -/
theorem resetAt_blockInv {p : Params} {n : Nat} (hp : p.Legal n) : (State.resetAt p n).BlockInv where
  legal := by
    rw [show (State.resetAt p n).nVoices = n from List.length_replicate]; exact hp
  voices := fun _ hu => List.eq_of_mem_replicate hu ▸ voice_reset_inv hp.rateLow hp.rateHigh
  op := output_reset_inv hp.rateLow hp.rateHigh
  status := fun _ _ => BitVec.getLsbD_zero

/-- The invariant of the block speaks of the parameters, the voices, the output unit and the status register alone. -/
theorem State.BlockInv.of_hostOnly {s t : State} (h : s.BlockInv) (ht : HostOnly s t) : t.BlockInv where
  legal := by rw [ht.params, State.nVoices, ht.voices]; exact h.legal
  voices := by rw [ht.params, ht.voices]; exact h.voices
  op := by rw [ht.params, ht.op]; exact h.op
  status := by rw [ht.status]; exact h.status

/-- A move of the host keeps the invariant of the block, be it a reset from outside (R330). -/
theorem State.BlockInv.hostMove {s : State} (h : s.BlockInv) : s.hostMove.BlockInv := by
  rcases s.hostMove_cases with ht | ⟨rest, -, -, ht⟩
  · exact h.of_hostOnly ht
  · have hreset := resetAt_blockInv h.legal
    rw [ht]
    exact ⟨hreset.legal, hreset.voices, hreset.op, hreset.status⟩

theorem State.BlockInv.step {s t : State} (h : s.BlockInv) (ht : step s = .next t) : t.BlockInv := by
  cases hp : s.pending with
  | nil => rw [step_of_no_pending hp] at ht; cases ht; exact h.hostMove
  | cons c rest =>
    rw [step_of_pending hp] at ht
    exact State.BlockInv.of_execCommand (s := { s with pending := rest }) ⟨h.legal, h.voices, h.op, h.status⟩ ht

end Sys2Proof.Machine

namespace Sys2Proof.Proofs

open Sys2Proof.Machine

/-- Settles O49: a pending command by `State.BlockInv.of_exec`, a move of the host by `State.hostMove_cases`. -/
theorem blockInvariantKept : Obligations.BlockInvariantKept := fun _ _ h ht => h.step ht

end Sys2Proof.Proofs

/-!
PROOFS. The table of causes of Illegal over the raw words (R312) says what the checks of R84 say, and the status register
(R37): only a refused command and a reset write it.
-/

namespace Sys2Proof.Machine

/-! ### The table of R312 and the checks of R84 -/

/-- The exponent field, bits 30:23, read from the word and from the magnitude. -/
theorem exponentAllOnes_eq (w : BitVec 32) : exponentAllOnes w = !fFinite w := by
  have hfield : (w.extractLsb' 23 8).toNat = fMag w / 2 ^ 23 := by
    rw [BitVec.extractLsb'_toNat, Nat.shiftRight_eq_div_pow, fMag]
    omega
  unfold exponentAllOnes fFinite
  rw [← hfield, Bool.eq_iff_iff]
  simp [← BitVec.toNat_inj]

/-- The rows of R312 that look at values: checks 4 to 7 of R84, by opcode. -/
def refusedByValue (nVoices : Nat) (op v u : BitVec 8) (a b : S) : Bool :=
  (!opcodesNoVoice.contains op && nVoices ≤ v.toNat)
    || (opcodesEnvelope.contains op && 1 < u.toNat)
    || (op == 0x20 && 4 < u.toNat)
    || (op == 0x50 && 2 < u.toNat)
    || (opcodesOperandA.contains op && exponentAllOnes a)
    || (op == 0x40 && exponentAllOnes b)
    || (op == 0x40 && !fGt a f0)

theorem illegalByTable_eq_fields (nVoices : Nat) (c : Command) : illegalByTable nVoices c =
    (!opcodes.contains c.opField || c.rsvField != 0 || (opcodesNoVoice.contains c.opField && c.vField != 0)
      || (!opcodesUnit.contains c.opField && c.uField != 0)
      || refusedByValue nVoices c.opField c.vField c.uField c.w1 c.w2) := by
  simp only [illegalByTable, refusedByValue, Command.opField, Command.rsvField, Command.vField, Command.uField,
    Bool.or_assoc]
  rfl

/-- A row of the opcode map uses the fields that R312 says its opcode uses, and the command it makes is legal exactly when no
row of R312 that looks at values refuses it. -/
theorem opcodeRow_refusedByValue {op : BitVec 8} {row : OpcodeRow} (h : opcodeRow op = some row) :
    opcodes.contains op = true ∧ row.usesV = !opcodesNoVoice.contains op ∧ row.usesU = opcodesUnit.contains op ∧
      ∀ nVoices v u a b, legalFor nVoices (row.make v u a b) = !refusedByValue nVoices op v u a b := by
  have hnot_le : ∀ m n : Nat, (!decide (m ≤ n)) = decide (n < m) := fun m n => by simp only [← decide_not, Nat.not_le]
  have hnot_lt : ∀ m n : Nat, (!decide (m < n)) = decide (n ≤ m) := fun m n => by simp only [← decide_not, Nat.not_lt]
  unfold opcodeRow at h
  split at h <;> cases h <;>
    refine ⟨by decide, by decide, by decide, fun nVoices v u a b => ?_⟩ <;>
    simp [hnot_le, hnot_lt, Bool.and_assoc, legalFor, refusedByValue, Instr.voiceBelow, Instr.voiceField,
      Instr.wellFormed, Instr.unitInRange, Instr.operandsFinite, Instr.frequencyPositive, opcodesNoVoice, opcodesEnvelope,
      opcodesOperandA, exponentAllOnes_eq]

theorem opcodeRow_eq_none {op : BitVec 8} (h : opcodeRow op = none) : opcodes.contains op = false := by
  unfold opcodeRow at h
  split at h
  case h_32 => simp_all [opcodes]
  all_goals cases h

/-- The table of R312 lists exactly the failures of the checks of R84. -/
theorem illegalByTable_eq_commandIllegal (nVoices : Nat) (c : Command) :
    illegalByTable nVoices c = commandIllegal nVoices c := by
  rw [illegalByTable_eq_fields]
  cases hrow : opcodeRow c.opField with
  | none =>
    rw [commandIllegal_of_illegal (decode_of_no_row hrow), opcodeRow_eq_none hrow]
    rfl
  | some row =>
    obtain ⟨hop, hv, hu, hlegal⟩ := opcodeRow_refusedByValue hrow
    have hne : ∀ x : BitVec 8, decide (x ≠ 0) = (x != 0) := fun x => by rw [Bool.eq_iff_iff]; simp
    have hdec := decode_of_row hrow
    rw [hop, ← hu, show opcodesNoVoice.contains c.opField = !row.usesV by rw [hv, Bool.not_not]]
    split_ifs at hdec with h0 h1 h2
    · rw [commandIllegal_of_illegal hdec, bne_iff_ne.mpr h0]; simp
    · rw [hne] at h1; rw [commandIllegal_of_illegal hdec, h1]; simp
    · rw [hne] at h2; rw [commandIllegal_of_illegal hdec, h2]; simp
    · rw [hne, Bool.not_eq_true] at h1 h2
      rw [commandIllegal_of_command hdec, hlegal, bne_eq_false_iff_eq.mpr (not_not.mp h0), h1, h2]; simp

/-! ### The status register (R37) -/

theorem getLsbD_setIll_zero (w : BitVec 32) : (setIll w).getLsbD 0 = true := illFlag_setIll w

/-- What a command does to the status register: `ILL` is set when the command is refused, and no other bit is written. -/
theorem execCommand_status {c : Command} {s t : State} (ht : execCommand c s = .next t) :
    t.status = if commandIllegal s.nVoices c then setIll s.status else s.status := by
  cases hc : commandIllegal s.nVoices c with
  | true =>
    rw [execCommand_refuses hc] at ht
    cases ht; rfl
  | false =>
    obtain ⟨t', r0, r1, hx, -, hstatus, -⟩ := execCommand_completes hc
    rw [hx] at ht
    cases ht; exact hstatus

/-- A move of the host leaves the status register, unless it is a reset, which zeroes it. -/
theorem hostMove_status (s : State) : s.hostMove.status = s.status ∨
    (s.hostMove.status = 0 ∧ s.host.task = .ready ∧ ∃ rest, s.host.events = .blockReset :: rest) := by
  rcases s.hostMove_cases with h | ⟨rest, htask, hev, h⟩
  · exact .inl h.status
  · exact .inr ⟨by rw [h]; rfl, htask, rest, hev⟩

/-- R40 (h) is kept by every step. -/
theorem step_statusReservedZero {s t : State} (hs : statusReservedZero s.status) (ht : step s = .next t) :
    statusReservedZero t.status := by
  cases hp : s.pending with
  | nil =>
    rw [step_of_no_pending hp] at ht
    cases ht
    rcases hostMove_status s with h | ⟨h, -⟩ <;> rw [h]
    · exact hs
    · exact fun _ _ => BitVec.getLsbD_zero
  | cons c rest =>
    rw [step_of_pending hp] at ht
    rw [execCommand_status ht]
    split
    · exact statusReservedZero_setIll hs
    · exact hs

end Sys2Proof.Machine

namespace Sys2Proof.Proofs

open Sys2Proof.Machine

/-- Settles O8: a command by `execCommand_status` and the agreement of R312 with R84, a move of the host by
`hostMove_status`. -/
theorem statusRegister : Obligations.StatusRegister := by
  refine ⟨fun s t c rest hp ht => ?_, fun s t hp ht => ?_, fun _ => rfl, fun _ _ => step_statusReservedZero,
    fun _ _ => rfl⟩
  · rw [step_of_pending hp] at ht
    rw [execCommand_status ht, illegalByTable_eq_commandIllegal,
      show ({ s with pending := rest } : State).nVoices = s.nVoices from rfl]
    cases commandIllegal s.nVoices c with
    | true => simp only [getLsbD_setIll_zero, Bool.or_true, if_true, true_and]; exact getLsbD_setIll _
    | false => simp
  · rw [step_of_no_pending hp] at ht
    cases ht
    exact hostMove_status s

end Sys2Proof.Proofs

/-!
PROOFS. What a command depends on and what it leaves unchanged: a command on a voice unit reads that unit and the parameters
alone (R43, R202), no command reads the host (R42), only `OSC.WT` writes a wavetable (R61), and none writes the post filter's
control registers (R36).
-/

namespace Sys2Proof.Machine

/-! ### The meaning of a voice command is one function of the voice unit -/

/-- Two states of the same parameters run a voice command by the same function on the voice unit. -/
theorem exec_onVoice_alike {i : Instr} {v : BitVec 8} (hv : i.voiceField = some v) {s t : State}
    (hp : t.params = s.params) : ∃ legal f, exec i s = s.onVoice v legal f ∧ exec i t = t.onVoice v legal f := by
  have refused : ∃ legal f, .next s.raiseIllegal = s.onVoice v legal f ∧ .next t.raiseIllegal = t.onVoice v legal f :=
    ⟨false, fun u => (u, 0, 0), (State.onVoice_illegal (.inr rfl) _).symm, (State.onVoice_illegal (.inr rfl) _).symm⟩
  have onEnv : ∀ (e : BitVec 8) (legal : Bool) (f : Envelope → Envelope × BitVec 32 × BitVec 32),
      ∃ legal' f', s.onEnv v e legal f = s.onVoice v legal' f' ∧ t.onEnv v e legal f = t.onVoice v legal' f' := by
    intro e legal f
    unfold State.onEnv
    cases EnvSel.ofCode? e with
    | none => exact refused
    | some sel => exact ⟨_, _, rfl, rfl⟩
  cases i with
  | nop | statusRd | opAlgo | opDrive | opProc | render => cases hv
  | fltMode _ mode =>
    cases hv
    simp only [exec, execFltMode]
    cases FilterMode.ofCode? mode with
    | none => exact refused
    | some m => exact ⟨_, _, rfl, rfl⟩
  | envSetA | envSetD | envSetS | envSetR =>
    cases hv
    simp only [exec, execEnvSetA, execEnvSetD, execEnvSetS, execEnvSetR, hp]
    exact onEnv _ _ _
  | envTrig | envRls | envNext | envRdp =>
    cases hv
    simp only [exec, execEnvTrig, execEnvRls, execEnvNext, execEnvRdp]
    exact onEnv _ _ _
  | oscNext | fltCut | fltProc | vNext | vCut =>
    cases hv
    simp only [exec, execOscNext, execFltCut, execFltProc, execFltProcWith, execVNext, execVNextWith, execVCut, hp]
    exact ⟨_, _, rfl, rfl⟩
  | oscWt | oscRst | oscRdt | fltQ | fltRst | vTrig | vRls | vBend | vBrng | vDepth | vActive =>
    cases hv
    exact ⟨_, _, rfl, rfl⟩

theorem getElem?_setVoice_same {s : State} {v : BitVec 8} {u : Voice} (hu : s.voice? v = some u) (u' : Voice) :
    (s.setVoice v u').voices[v.toNat]? = some u' :=
  List.getElem?_set_self (List.getElem?_eq_some_iff.mp hu).1

/-! ### No command reads the host (R42) -/

/-- Both outcomes are next states with the same block and the same response. -/
def AnswerAlike (s t : State) (o o' : Host.Outcome State Fault Refusal) : Prop :=
  ∃ s' t' r, o = .next s' ∧ o' = .next t' ∧ SameBlock s' t' ∧ s'.responses = r :: s.responses ∧
    t'.responses = r :: t.responses

/-- A command whose two results are computed from the block alone, and which leaves the same block. -/
theorem AnswerAlike.respond {s t s1 t1 : State} (h1 : SameBlock s1 t1) (hs : s1.responses = s.responses)
    (ht : t1.responses = t.responses) {a b a' b' : BitVec 32} (ha : a' = a) (hb : b' = b) :
    AnswerAlike s t (.next (s1.respond a b)) (.next (t1.respond a' b')) :=
  ⟨_, _, ⟨0, a, b⟩, rfl, rfl, ⟨h1.params, h1.voices, h1.op, h1.status⟩, congrArg _ hs,
    by rw [ha, hb, ← ht]; rfl⟩

namespace SameBlock

variable {s t : State} (h : SameBlock s t)
include h

theorem raiseIllegal : AnswerAlike s t (.next s.raiseIllegal) (.next t.raiseIllegal) :=
  ⟨_, _, ⟨1, 0, 0⟩, rfl, rfl, ⟨h.params, h.voices, h.op, congrArg setIll h.status⟩, rfl, rfl⟩

theorem onVoice (v : BitVec 8) (legal : Bool) (f : Voice → Voice × BitVec 32 × BitVec 32) :
    AnswerAlike s t (s.onVoice v legal f) (t.onVoice v legal f) := by
  have hvoice : t.voice? v = s.voice? v := by rw [State.voice?, State.voice?, h.voices]
  by_cases hlegal : s.voice? v = none ∨ legal = false
  · rw [State.onVoice_illegal hlegal, State.onVoice_illegal (hvoice ▸ hlegal)]
    exact h.raiseIllegal
  · obtain ⟨hu, rfl⟩ : s.voice? v ≠ none ∧ legal = true := by simpa using hlegal
    obtain ⟨u, hu⟩ := Option.ne_none_iff_exists'.mp hu
    rw [State.onVoice_legal hu, State.onVoice_legal (hvoice.trans hu)]
    refine .respond ?_ rfl rfl rfl rfl
    exact ⟨h.params, by simp only [setVoice_voices, h.voices], h.op, h.status⟩

theorem execOpAlgo (index : BitVec 8) :
    AnswerAlike s t (Machine.execOpAlgo index s) (Machine.execOpAlgo index t) := by
  unfold Machine.execOpAlgo
  rw [h.op]
  cases Algo.ofCode? index with
  | none => exact h.raiseIllegal
  | some a =>
    refine .respond ?_ rfl rfl rfl rfl
    exact ⟨h.params, h.voices, rfl, h.status⟩

theorem execOpDrive (drive : S) : AnswerAlike s t (Machine.execOpDrive drive s) (Machine.execOpDrive drive t) := by
  unfold Machine.execOpDrive
  rw [h.op]
  split
  · refine .respond ?_ rfl rfl rfl rfl
    exact ⟨h.params, h.voices, rfl, h.status⟩
  · exact h.raiseIllegal

theorem execOpProc (x : S) : AnswerAlike s t (Machine.execOpProc x s) (Machine.execOpProc x t) := by
  unfold Machine.execOpProc execOpProcWith
  rw [h.op, h.params]
  split
  · refine .respond ?_ rfl rfl rfl rfl
    exact ⟨rfl, h.voices, rfl, h.status⟩
  · exact h.raiseIllegal

theorem execRender : AnswerAlike s t (Machine.execRender s) (Machine.execRender t) := by
  unfold Machine.execRender execRenderWith
  rw [h.op, h.params, h.voices]
  refine .respond ?_ rfl rfl rfl rfl
  exact ⟨rfl, rfl, rfl, h.status⟩

/-- A command does the same to the same block, and answers the same. -/
theorem exec (i : Instr) : AnswerAlike s t (Machine.exec i s) (Machine.exec i t) := by
  cases hv : i.voiceField with
  | some v =>
    obtain ⟨legal, f, hs, ht⟩ := exec_onVoice_alike hv h.params
    rw [hs, ht]
    exact h.onVoice v legal f
  | none =>
    cases i with
    | nop => exact .respond h rfl rfl rfl rfl
    | statusRd => exact .respond h rfl rfl h.status rfl
    | opAlgo index => exact h.execOpAlgo index
    | opDrive drive => exact h.execOpDrive drive
    | opProc x => exact h.execOpProc x
    | render => exact h.execRender
    | _ => cases hv

end SameBlock

/-! ### Only `OSC.WT` writes a wavetable (R61) -/

section memory
variable {s t : State}

/-- `memRead` reads the voices alone. -/
theorem memRead_congr (h : t.voices = s.voices) (w k : Nat) : t.memRead w k = s.memRead w k := by
  rw [State.memRead, h]; rfl

theorem memRead_setVoice {v : BitVec 8} {u u' : Voice} (hu : s.voice? v = some u) (h : u'.osc.wt = u.osc.wt) (w k : Nat) :
    (s.setVoice v u').memRead w k = s.memRead w k := by
  unfold State.memRead
  rw [setVoice_voices, List.getElem?_set]
  split
  · rename_i hw
    obtain ⟨hlt, -⟩ := List.getElem?_eq_some_iff.mp hu
    rw [if_pos hlt, ← hw, show s.voices[v.toNat]? = some u from hu, Option.map_some, Option.map_some, h]
  · rfl

theorem memRead_of_onVoice {v : BitVec 8} {legal : Bool} {f : Voice → Voice × BitVec 32 × BitVec 32}
    (ht : s.onVoice v legal f = .next t) (hf : ∀ u, (f u).1.osc.wt = u.osc.wt) (w k : Nat) :
    t.memRead w k = s.memRead w k := by
  rcases State.onVoice_cases ht with ⟨rfl, -⟩ | ⟨u, hu, -, rfl⟩
  · rfl
  · exact memRead_setVoice hu (hf u) w k

theorem memRead_of_onEnv {v e : BitVec 8} {legal : Bool} {f : Envelope → Envelope × BitVec 32 × BitVec 32}
    (ht : s.onEnv v e legal f = .next t) (w k : Nat) : t.memRead w k = s.memRead w k := by
  rcases State.onEnv_cases ht with ⟨rfl, -⟩ | ⟨sel, u, -, hu, -, rfl⟩
  · rfl
  · exact memRead_setVoice hu (by rw [setEnv_osc]) w k

theorem voiceNext_wt (num : NumFns) (sampleRate : Nat) (u : Voice) :
    (voiceNext num sampleRate u).1.osc.wt = u.osc.wt := by
  unfold voiceNext; split <;> rfl

theorem renderVoices_wt (num : NumFns) (sampleRate : Nat) (us : List Voice) (acc : S) :
    (renderVoices num sampleRate us acc).1.map (fun u => u.osc.wt) = us.map (fun u => u.osc.wt) := by
  induction us generalizing acc with
  | nil => rfl
  | cons u us ih => simp only [renderVoices, List.map_cons, voiceNext_wt, ih]

theorem memRead_execRender (ht : execRender s = .next t) (w k : Nat) : t.memRead w k = s.memRead w k := by
  cases ht
  have hread : ∀ x : State, x.memRead w k = ((x.voices.map fun u => u.osc.wt)[w]?).map fun wt => Memory.read wt k := by
    intro x; rw [State.memRead, List.getElem?_map, Option.map_map]; rfl
  rw [hread, hread s]
  exact congrArg (fun wts : List Memory => wts[w]?.map _) (renderVoices_wt NumFns.machine s.params.sampleRate s.voices f0)

/-- A command without a voice operand, but for `RENDER`, writes no voice. -/
theorem exec_voices {i : Instr} (ht : exec i s = .next t) (hv : i.voiceField = none) (hr : i ≠ .render) :
    t.voices = s.voices := by
  cases i with
  | nop | statusRd => cases ht; rfl
  | opAlgo =>
    simp only [exec, execOpAlgo] at ht
    split at ht <;> cases ht <;> rfl
  | opDrive | opProc =>
    simp only [exec, execOpDrive, execOpProc, execOpProcWith] at ht
    split at ht <;> cases ht <;> rfl
  | render => exact absurd rfl hr
  | _ => cases hv

/-- Every command but `OSC.WT` leaves every entry of every wavetable. -/
theorem memRead_exec {i : Instr} (hi : ∀ v shape, i ≠ .oscWt v shape) (ht : exec i s = .next t) (w k : Nat) :
    t.memRead w k = s.memRead w k := by
  cases i with
  | nop | statusRd | opAlgo | opDrive | opProc => exact memRead_congr (exec_voices ht rfl (fun h => nomatch h)) w k
  | render => exact memRead_execRender ht w k
  | oscWt v shape => exact absurd rfl (hi v shape)
  | fltMode =>
    simp only [exec, execFltMode] at ht
    split at ht
    · cases ht; rfl
    · exact memRead_of_onVoice ht (fun _ => rfl) w k
  | envSetA | envSetD | envSetS | envSetR | envTrig | envRls | envNext | envRdp =>
    simp only [exec, execEnvSetA, execEnvSetD, execEnvSetS, execEnvSetR, execEnvTrig, execEnvRls, execEnvNext,
      execEnvRdp] at ht
    exact memRead_of_onEnv ht w k
  | vNext => exact memRead_of_onVoice ht (fun _ => voiceNext_wt _ _ _) w k
  | oscRst | oscNext | oscRdt | fltCut | fltQ | fltRst | fltProc | vTrig | vRls | vBend | vBrng | vCut | vDepth
  | vActive => exact memRead_of_onVoice ht (fun _ => rfl) w k

end memory

/-! ### The post filter's control registers (R36, R230) -/

/-- The control registers are as before, and clean coefficients stay clean and as they were. -/
structure Biquad.Kept (f g : Biquad) : Prop where
  mode : g.mode = f.mode
  cutoff : g.cutoff = f.cutoff
  q : g.q = f.q
  clean : f.dirty = false → g.dirty = false ∧ g.coeffs = f.coeffs

theorem Biquad.Kept.refl (f : Biquad) : f.Kept f := ⟨rfl, rfl, rfl, fun h => ⟨h, rfl⟩⟩

theorem fltReset_kept (f : Biquad) : f.Kept (fltReset f) := ⟨rfl, rfl, rfl, fun h => ⟨h, rfl⟩⟩

theorem fltProcess_kept (num : NumFns) (sampleRate : Nat) (f : Biquad) (x : S) :
    f.Kept (fltProcess num sampleRate f x).1 := by
  unfold fltProcess
  split
  · rename_i hd
    exact ⟨rfl, rfl, rfl, fun h => by rw [h] at hd; cases hd⟩
  · exact ⟨rfl, rfl, rfl, fun h => ⟨h, rfl⟩⟩

/-- A voice command leaves the output unit. -/
theorem onVoice_op {s t : State} {v : BitVec 8} {legal : Bool} {f : Voice → Voice × BitVec 32 × BitVec 32}
    (ht : s.onVoice v legal f = .next t) : t.op = s.op := by
  rcases State.onVoice_cases ht with ⟨rfl, -⟩ | ⟨u, -, -, rfl⟩ <;> rfl

theorem exec_keeps_postFilter {i : Instr} {s t : State} (ht : exec i s = .next t) : s.op.pf.Kept t.op.pf := by
  cases hv : i.voiceField with
  | some v =>
    obtain ⟨f, hx⟩ := exec_eq_onVoice hv s
    rw [hx] at ht
    rw [onVoice_op ht]
    exact .refl _
  | none =>
    cases i with
    | nop | statusRd => cases ht; exact .refl _
    | opAlgo =>
      simp only [exec, execOpAlgo] at ht
      split at ht <;> cases ht
      · exact .refl _
      · exact fltReset_kept _
    | opDrive =>
      simp only [exec, execOpDrive] at ht
      split at ht <;> cases ht <;> exact .refl _
    | opProc =>
      simp only [exec, execOpProc, execOpProcWith] at ht
      split at ht <;> cases ht
      · exact fltProcess_kept _ _ _ _
      · exact .refl _
    | render => cases ht; exact fltProcess_kept _ _ _ _
    | _ => cases hv

theorem execCommand_keeps_postFilter {c : Command} {s t : State} (ht : execCommand c s = .next t) :
    s.op.pf.Kept t.op.pf := by
  cases hd : decode c with
  | command i => exact exec_keeps_postFilter (execCommand_of_command hd s ▸ ht)
  | illegal why => rw [execCommand_of_illegal hd] at ht; cases ht; exact .refl _

/-! ### The read-back commands -/

/-- A voice command that leaves its voice unit only responds. -/
theorem onVoice_readBack {s : State} {v : BitVec 8} {u : Voice} (hu : s.voices[v.toNat]? = some u)
    {f : Voice → Voice × BitVec 32 × BitVec 32} (hf : (f u).1 = u) :
    s.onVoice v true f = .next (s.respond (f u).2.1 (f u).2.2) := by
  obtain ⟨hlt, hget⟩ := List.getElem?_eq_some_iff.mp hu
  have hset : s.setVoice v u = s := by
    rw [State.setVoice, ← hget, List.set_getElem_self]
  rw [State.onVoice_legal hu, hf, hset]

/-- The number of a phase names the phase (R33). -/
theorem EnvPhase.code_spec (p : EnvPhase) : (p = .idle ↔ p.code = 0) ∧ (p = .attack ↔ p.code = 1) ∧
    (p = .decay ↔ p.code = 2) ∧ (p = .sustain ↔ p.code = 3) ∧ (p = .release ↔ p.code = 4) := by
  cases p <;> decide

theorem execEnvRdp_readBack {s : State} {v e : BitVec 8} {u : Voice} {sel : EnvSel} (hu : s.voices[v.toNat]? = some u)
    (he : EnvSel.ofCode? e = some sel) :
    exec (.envRdp v e) s = .next (s.respond (u.env sel).phase.code (u.env sel).level) := by
  have hself : u.setEnv sel (u.env sel) = u := by cases sel <;> rfl
  simp only [exec, execEnvRdp, State.onEnv, he]
  exact onVoice_readBack hu hself

end Sys2Proof.Machine

namespace Sys2Proof.Proofs

open Sys2Proof.Machine

/-- Settles O36: a voice command is one function of its voice unit and the parameters, and either both states refuse it or it
writes that unit in both. -/
theorem voiceUnitsShareNothing : Obligations.VoiceUnitsShareNothing := by
  intro i v hv s t hp hvoice
  obtain ⟨legal, f, hs, ht⟩ := exec_onVoice_alike hv hp
  have hvoice? : t.voice? v = s.voice? v := hvoice
  rw [hs, ht]
  by_cases hlegal : s.voice? v = none ∨ legal = false
  · exact ⟨_, _, ⟨1, 0, 0⟩, State.onVoice_illegal hlegal f, State.onVoice_illegal (hvoice? ▸ hlegal) f, rfl, rfl,
      hvoice, (if_neg (by decide)).symm, rfl, ⟨rfl, rfl, rfl⟩, rfl, fun _ _ => rfl⟩
  · obtain ⟨hu, rfl⟩ : s.voice? v ≠ none ∧ legal = true := by simpa using hlegal
    obtain ⟨u, hu⟩ := Option.ne_none_iff_exists'.mp hu
    have hut := hvoice?.trans hu
    have hsame := sameBut_setVoice_respond s v (f u).1 (f u).2.1 (f u).2.2
    refine ⟨_, _, ⟨0, _, _⟩, State.onVoice_legal hu f, State.onVoice_legal hut f, rfl, rfl, ?_, (if_pos rfl).symm,
      hsame.op, hsame.outside, hsame.count, hsame.others⟩
    rw [respond_voices, respond_voices, getElem?_setVoice_same hu, getElem?_setVoice_same hut]

/-- Settles O50: every command does the same to the same block. -/
theorem blockIgnoresHost : Obligations.BlockIgnoresHost := fun i _ _ h => h.exec i

/-- Settles O13: an `OSC.WT` that fails a check is refused, and every other command leaves the tables. -/
theorem onlyOscWtWritesTables : Obligations.OnlyOscWtWritesTables := by
  intro i s t ht
  by_cases hi : ∃ v shape, i = .oscWt v shape
  · obtain ⟨v, shape, rfl⟩ := hi
    cases hl : legalFor s.nVoices (.oscWt v shape) with
    | true => exact .inr ⟨v, shape, rfl, rfl⟩
    | false => rw [exec_refuses hl] at ht; cases ht; exact .inl fun _ _ => rfl
  · exact .inl (memRead_exec (fun v shape h => hi ⟨v, shape, h⟩) ht)

/-- Settles O44: a command by `execCommand_keeps_postFilter`; a move of the host writes nothing of the block but by a
reset. -/
theorem postFilterNeverChanges : Obligations.PostFilterNeverChanges := by
  intro s t ht
  cases hp : s.pending with
  | nil =>
    rw [step_of_no_pending hp] at ht
    cases ht
    rcases s.hostMove_cases with h | ⟨rest, htask, hev, -⟩
    · rw [h.op]
      exact .inr ⟨rfl, rfl, rfl, fun hd => ⟨hd, rfl⟩⟩
    · exact .inl ⟨rest, rfl, htask, hev⟩
  | cons c rest =>
    rw [step_of_pending hp] at ht
    obtain ⟨hmode, hcut, hq, hclean⟩ := execCommand_keeps_postFilter ht
    exact .inr ⟨hmode, hcut, hq, hclean⟩

/-- Settles O10: the three commands write their voice unit as it is. -/
theorem readBacksWriteNothing : Obligations.ReadBacksWriteNothing := by
  intro s v u hu
  refine ⟨fun i => onVoice_readBack hu rfl, ?_, ?_⟩
  · rintro e env (⟨rfl, rfl⟩ | ⟨rfl, rfl⟩)
    · exact ⟨_, execEnvRdp_readBack (sel := .amp) hu rfl, u.amp.phase.code_spec⟩
    · exact ⟨_, execEnvRdp_readBack (sel := .feg) hu rfl, u.feg.phase.code_spec⟩
  · have hactive : (if voiceIsActive u then (1 : BitVec 32) else 0) = if u.amp.phase = .idle then 0 else 1 := by
      unfold voiceIsActive; split <;> simp_all
    rw [← hactive]
    exact onVoice_readBack hu rfl

end Sys2Proof.Proofs

/-!
PROOFS. The units by command: the oscillator's reset (R112), the filter's setters, samples and recomputation (R130 to R141),
and the envelope's parameters (R160 to R168).
-/

namespace Sys2Proof.Machine

/-! ### The oscillator after a reset -/

/-- At phase `+0.0` the position is entry 0 and the fraction is zero, so the interpolation adds a zero to that entry. -/
theorem interpolate_phase_zero {wt : Memory} (h : ∀ i, i < 256 → between fNeg1 f1 (Memory.read wt i) = true) :
    fEq (interpolate wt (fMul f0 f256)) (Memory.read wt 0) = true := by
  have hpos : fMul f0 f256 = f0 := by decide
  have hfrac : fSub f0 (fFloor f0) = f0 := by decide
  have hindex : tableIndex f0 = 0 := by decide
  obtain ⟨haf, hau⟩ := between_neg1_f1_iff.mp (h 0 (by decide))
  obtain ⟨hbf, hbu⟩ := between_neg1_f1_iff.mp (h 1 (by decide))
  have hdiff := fFinite_fSub_of_le_eight hbf haf (hbu.trans (by decide)) (hau.trans (by decide))
  obtain ⟨hsf, hs⟩ := fInt_fAdd_zero haf (fMul_zero fFinite_f0 hdiff (.inl (by decide)))
  rw [hpos, interpolate, hindex, hfrac]
  exact (fEq_iff hsf haf).mpr hs

/-! ### The filter's setters: the comparison by value is that of the bits -/

/-- Two finite values of one value that is not a zero are the same word. -/
theorem eq_of_fEq {a b : S} (ha : fFinite a = true) (hb : fFinite b = true) (hpos : 0 < fInt a) (h : fEq a b = true) :
    a = b := by
  have hi := (fEq_iff ha hb).mp h
  have sa := fSign_of_fInt_pos hpos
  have sb := fSign_of_fInt_pos (hi ▸ hpos)
  have hle := (fLe_iff ha hb).mpr hi.le
  have hge := (fLe_iff hb ha).mpr hi.ge
  have h1 := (fLe_eq_true.mp hle).2.2
  have h2 := (fLe_eq_true.mp hge).2.2
  simp only [fOrd, sa, sb, Bool.false_eq_true, if_false] at h1 h2
  exact eq_of_sign_mag (sa.trans sb.symm) (by omega)

/-- The setters' test `!=` (R131, R132) between values of a positive range. -/
theorem fNe_eq_decide {lo hi a b : S} (hlo : fFinite lo = true) (hhi : fFinite hi = true) (hpos : 0 < fInt lo)
    (ha : between lo hi a = true) (hb : between lo hi b = true) : fNe a b = decide (a ≠ b) := by
  obtain ⟨haf, ha0, -⟩ := (between_iff hlo hhi).mp ha
  obtain ⟨hbf, -, -⟩ := (between_iff hlo hhi).mp hb
  unfold fNe
  rw [Bool.eq_iff_iff, Bool.not_eq_true', decide_eq_true_eq, ← Bool.not_eq_true, not_iff_not]
  refine ⟨eq_of_fEq haf hbf (by omega), ?_⟩
  rintro rfl
  exact (fEq_iff haf haf).mpr rfl

theorem fltSetMode_eq (f : Biquad) (m : FilterMode) :
    fltSetMode f m = { f with mode := m, dirty := f.dirty || decide (m ≠ f.mode) } := by
  unfold fltSetMode
  split
  · rename_i h; simp [Biquad.markDirty, h]
  · rename_i h; rw [not_not.mp h]; simp

theorem fltSetCutoff_eq {sampleRate : Nat} (hlo : 8000 ≤ sampleRate) (hhi : sampleRate ≤ 16777215) {f : Biquad}
    (hf : between cutMin (cutMax sampleRate) f.cutoff = true) (c : S) :
    fltSetCutoff sampleRate f c =
      { f with
        cutoff := cutoffStored sampleRate c
        dirty := f.dirty || decide (cutoffStored sampleRate c ≠ f.cutoff) } := by
  have hne := fNe_eq_decide (by decide) (cutMin_le_cutMax hlo hhi).1 (by decide) (cutoffStored_between hlo hhi c) hf
  unfold fltSetCutoff
  rw [hne]
  split
  · rename_i h; simp [Biquad.markDirty, of_decide_eq_true h]
  · rename_i h; rw [decide_eq_true_eq, not_not] at h; rw [h]; simp

theorem fltSetQ_eq {f : Biquad} (hf : between qMin qMax f.q = true) {q : S} (hq : fFinite q = true) :
    fltSetQ f q = { f with q := clamp q qMin qMax, dirty := f.dirty || decide (clamp q qMin qMax ≠ f.q) } := by
  have hne := fNe_eq_decide (by decide) (by decide) (by decide) (clampedQ_between hq) hf
  unfold fltSetQ
  rw [hne]
  split
  · rename_i h; simp [Biquad.markDirty, of_decide_eq_true h]
  · rename_i h; rw [decide_eq_true_eq, not_not] at h; rw [h]; simp

/-! ### Recomputation -/

/-- Clean coefficients that meet the cache invariant are those a recompute would write. -/
theorem fltRecompute_of_clean {num : NumFns} {sampleRate : Nat} {f : Biquad} (h : f.CacheInv num sampleRate)
    (hd : f.dirty = false) : fltRecompute num sampleRate f = f := by
  have hk := h hd
  obtain ⟨mode, cutoff, q, dirty, b0, b1, b2, a1, a2, z1, z2⟩ := f
  subst hd
  rw [fltRecompute, ← hk]
  rfl

/-- A sample under the cache invariant is a recompute and then the difference equations, whatever the dirty flag says. -/
theorem fltProcess_of_cacheInv {num : NumFns} {sampleRate : Nat} {f : Biquad} (h : f.CacheInv num sampleRate) (x : S) :
    fltProcess num sampleRate f x = fltRun (fltRecompute num sampleRate f) x := by
  unfold fltProcess
  split
  · rfl
  · rename_i hd
    rw [fltRecompute_of_clean h (Bool.not_eq_true _ ▸ hd)]

/-- A recompute before a sample does not show (R141). -/
theorem fltProcess_fltRecompute {num : NumFns} {sampleRate : Nat} {f : Biquad} (h : f.CacheInv num sampleRate) (x : S) :
    fltProcess num sampleRate (fltRecompute num sampleRate f) x = fltProcess num sampleRate f x := by
  rw [fltProcess_of_cacheInv h]; rfl

theorem fltProcess_cacheInv {num : NumFns} {sampleRate : Nat} {f : Biquad} (h : f.CacheInv num sampleRate) (x : S) :
    (fltProcess num sampleRate f x).1.CacheInv num sampleRate := by
  obtain ⟨-, hmode, hcut, hq, hk⟩ := fltProcess_spec h x
  exact fun _ => by rw [hk, hmode, hcut, hq]

theorem filterUses_sample (num : NumFns) (sampleRate : Nat) (eager : Bool) (f : Biquad) (x : S) (us : List FilterUse) :
    filterUses num sampleRate eager f (.sample x :: us) =
      ((filterUses num sampleRate eager
          (fltProcess num sampleRate (if eager then fltRecompute num sampleRate f else f) x).1 us).1,
        (fltProcess num sampleRate (if eager then fltRecompute num sampleRate f else f) x).2 ::
          (filterUses num sampleRate eager
            (fltProcess num sampleRate (if eager then fltRecompute num sampleRate f else f) x).1 us).2) := rfl

/-- Lazy and eager uses of a filter give the same filter and the same outputs (R141), and keep the cache right (R39). -/
theorem filterUses_lazy_eager {num : NumFns} {sampleRate : Nat} {f : Biquad} (us : List FilterUse)
    (h : f.CacheInv num sampleRate) :
    filterUses num sampleRate true f us = filterUses num sampleRate false f us ∧
      (filterUses num sampleRate false f us).1.CacheInv num sampleRate := by
  induction us generalizing f with
  | nil => exact ⟨rfl, h⟩
  | cons use us ih =>
    cases use with
    | setMode m => exact ih (fltSetMode_cacheInv h m)
    | setCutoff c => exact ih (fltSetCutoff_cacheInv h c)
    | setQ q => exact ih (fltSetQ_cacheInv h q)
    | reset => exact ih (fltReset_cacheInv h)
    | sample x =>
      obtain ⟨heq, hinv⟩ := ih (fltProcess_cacheInv h x)
      refine ⟨?_, hinv⟩
      rw [filterUses_sample, filterUses_sample, if_pos rfl, if_neg Bool.false_ne_true, fltProcess_fltRecompute h, heq]

/-! ### The coefficient registers of a dirty filter -/

/-- The filter with these words in its coefficient registers. -/
def Biquad.withCoeffs (f : Biquad) (k : Coeffs) : Biquad :=
  { f with b0 := k.b0, b1 := k.b1, b2 := k.b2, a1 := k.a1, a2 := k.a2 }

section withCoeffs
variable (f : Biquad) (k : Coeffs)

theorem fltSetMode_withCoeffs (m : FilterMode) : fltSetMode (f.withCoeffs k) m = (fltSetMode f m).withCoeffs k := by
  unfold fltSetMode
  rw [show (f.withCoeffs k).mode = f.mode from rfl]
  split <;> rfl

theorem fltSetCutoff_withCoeffs (sampleRate : Nat) (c : S) :
    fltSetCutoff sampleRate (f.withCoeffs k) c = (fltSetCutoff sampleRate f c).withCoeffs k := by
  unfold fltSetCutoff
  rw [show (f.withCoeffs k).cutoff = f.cutoff from rfl]
  split <;> rfl

theorem fltSetQ_withCoeffs (q : S) : fltSetQ (f.withCoeffs k) q = (fltSetQ f q).withCoeffs k := by
  unfold fltSetQ
  rw [show (f.withCoeffs k).q = f.q from rfl]
  split <;> rfl

end withCoeffs

/-- The setters leave a dirty filter dirty. -/
theorem fltSetMode_dirty {f : Biquad} (h : f.dirty = true) (m : FilterMode) : (fltSetMode f m).dirty = true := by
  unfold fltSetMode; split
  · rfl
  · exact h

theorem fltSetCutoff_dirty {f : Biquad} (h : f.dirty = true) (sampleRate : Nat) (c : S) :
    (fltSetCutoff sampleRate f c).dirty = true := by
  unfold fltSetCutoff; split
  · rfl
  · exact h

theorem fltSetQ_dirty {f : Biquad} (h : f.dirty = true) (q : S) : (fltSetQ f q).dirty = true := by
  unfold fltSetQ; split
  · rfl
  · exact h

/-- The first sample of a dirty filter writes the coefficient registers, so what they held shows in nothing (R27). -/
theorem fltProcess_withCoeffs (num : NumFns) (sampleRate : Nat) {f : Biquad} (h : f.dirty = true) (k : Coeffs) (x : S) :
    fltProcess num sampleRate (f.withCoeffs k) x = fltProcess num sampleRate f x := by
  unfold fltProcess
  rw [if_pos h, if_pos (show (f.withCoeffs k).dirty = true from h)]
  rfl

theorem filterUses_withCoeffs (num : NumFns) (sampleRate : Nat) {f : Biquad} (h : f.dirty = true) (k : Coeffs)
    (us : List FilterUse) :
    (filterUses num sampleRate false (f.withCoeffs k) us).2 = (filterUses num sampleRate false f us).2 := by
  induction us generalizing f with
  | nil => rfl
  | cons use us ih =>
    cases use with
    | setMode m =>
      change (filterUses num sampleRate false (fltSetMode (f.withCoeffs k) m) us).2 = _
      rw [fltSetMode_withCoeffs]
      exact ih (fltSetMode_dirty h m)
    | setCutoff c =>
      change (filterUses num sampleRate false (fltSetCutoff sampleRate (f.withCoeffs k) c) us).2 = _
      rw [fltSetCutoff_withCoeffs]
      exact ih (fltSetCutoff_dirty h sampleRate c)
    | setQ q =>
      change (filterUses num sampleRate false (fltSetQ (f.withCoeffs k) q) us).2 = _
      rw [fltSetQ_withCoeffs]
      exact ih (fltSetQ_dirty h q)
    | reset => exact ih (f := fltReset f) h
    | sample x =>
      rw [filterUses_sample, filterUses_sample, if_neg Bool.false_ne_true, if_neg Bool.false_ne_true,
        fltProcess_withCoeffs num sampleRate h]

/-! ### RENDER in the reset state -/

/-- Idle voices advance to themselves and add `+0.0` each. -/
theorem renderVoices_idle (num : NumFns) (sampleRate : Nat) (us : List Voice) (h : ∀ u ∈ us, u.amp.phase = .idle) :
    renderVoices num sampleRate us f0 = (us, f0) := by
  induction us with
  | nil => rfl
  | cons u us ih =>
    obtain ⟨hu, hus⟩ := List.forall_mem_cons.mp h
    have hvoice : voiceNext num sampleRate u = (u, f0) := by unfold voiceNext; rw [if_pos hu]
    rw [renderVoices, hvoice, show fAdd f0 f0 = f0 by decide, ih hus]

/-- A zero sample is shaped to a zero (R229 (a)). -/
theorem shapeSample_zero {num : NumFns} (hnum : num.Admitted) (algo : Algo) {drive x : S} (hd : inUnit drive = true)
    (hx : fIsZero x = true) : fIsZero (shapeSample num algo drive x) = true := by
  have hgain : fFinite (opGain num drive) = true :=
    ((between_iff (by decide) (by decide)).mp (opGain_between hnum hd)).1
  have hu := fMul_zero hgain (fFinite_of_fIsZero hx) (.inr hx)
  unfold shapeSample
  simp only [fFinite_of_fIsZero hu, if_true]
  exact shaper_zero hnum algo hu

/-- The first zero sample of a reset filter gives `+0.0` (R142): `b0` is finite, and the delay register is `+0.0`. -/
theorem fltProcess_reset_zero {num : NumFns} (hnum : num.Admitted) {sampleRate : Nat} {cutoff x : S}
    (hlo : 8000 ≤ sampleRate) (hhi : sampleRate ≤ 16777215)
    (hc : between cutMin (cutMax sampleRate) cutoff = true) (hx : fIsZero x = true) :
    (fltProcess num sampleRate (Biquad.reset cutoff) x).2 = f0 := by
  have hb0 := (coeffs_finite hnum .lowpass (angularFrequency_inP4Range hlo hhi hc)
    (show between qMin qMax f0p707 = true by decide)).1
  exact (fAdd_zeros (fMul_zero hb0 (fFinite_of_fIsZero hx) (.inr hx)) (show fIsZero f0 = true by decide)).2 (.inr rfl)

/-- `RENDER` is silent in the reset state (R331). -/
theorem execRender_resetAt {p : Params} {n : Nat} (hp : p.Legal n) :
    ∃ t, exec .render (State.resetAt p n) = .next t ∧ t.responses = [⟨0, 0, 0⟩] ∧
      t.voices = (State.resetAt p n).voices := by
  have hidle : ∀ u ∈ (State.resetAt p n).voices, u.amp.phase = .idle := fun u hu =>
    List.eq_of_mem_replicate hu ▸ rfl
  have hmix := renderVoices_idle NumFns.machine p.sampleRate (State.resetAt p n).voices hidle
  have hop := output_reset_inv (num := NumFns.machine) hp.rateLow hp.rateHigh
  have hshaped := shapeSample_zero NumFns.machine_admitted .tanhClip hop.drive (show fIsZero f0 = true by decide)
  have hout : (opProcess NumFns.machine p.sampleRate (OutputUnit.reset p.sampleRate) f0).2 = f0 := by
    have hcut := hop.pf.cutoff
    rw [output_reset_pf, filter_reset_cutoff] at hcut
    rw [opProcess, output_reset_pf]
    exact fltProcess_reset_zero NumFns.machine_admitted hp.rateLow hp.rateHigh hcut hshaped
  have hexec : exec .render (State.resetAt p n) =
      .next (({ State.resetAt p n with
        op := (opProcess NumFns.machine p.sampleRate (OutputUnit.reset p.sampleRate) f0).1 } : State).respond f0 f0) := by
    simp only [exec, execRender, execRenderWith]
    rw [show (State.resetAt p n).params = p from rfl, hmix,
      show (State.resetAt p n).op = OutputUnit.reset p.sampleRate from rfl, hout]
  exact ⟨_, hexec, respond_responses _ _ _, respond_voices _ _ _⟩

/-- The reset state meets the host's invariant (R260, R290): no slot is taken and the decoder waits for nothing. -/
theorem resetAt_hostInv {p : Params} {n : Nat} (hn : 1 ≤ n) : (State.resetAt p n).HostInv where
  alloc := by
    have hfree : ∀ (k : Nat) (note : Byte), (List.replicate n (none : Option Byte))[k]? ≠ some (some note) := by
      intro k note h
      cases List.eq_of_mem_replicate (List.mem_of_getElem? h)
    have hcount : (State.resetAt p n).nVoices = n := List.length_replicate
    rw [hcount]
    exact ⟨List.length_replicate, Nat.sub_lt hn one_pos, fun j k note hj _ => absurd hj (hfree j note),
      fun k note hk => absurd hk (hfree k note)⟩
  decoder := ⟨fun h => absurd rfl h, show (0 : Byte).toNat < 128 by decide⟩
  scanning := fun _ _ _ h => nomatch h
  running := fun _ h => nomatch h

end Sys2Proof.Machine

namespace Sys2Proof.Proofs

open Sys2Proof.Machine

/-- Settles O15: the cross-fade of two values in `[-1, 1]` stays there. -/
theorem tableEntriesBounded : Obligations.TableEntriesBounded :=
  fun _ _ hs hi => wtEntry_between (clamp_inUnit hs) hi

/-- Settles O16: the next sample is interpolated at position 0. -/
theorem oscRstZeroesPhase : Obligations.OscRstZeroesPhase := by
  intro s v u hu
  have hcomp := completesWith_of_onVoice (i := .oscRst v) rfl hu
  refine ⟨hcomp, fun t f hinv hf ht => ?_⟩
  obtain ⟨t1, hx, -, hut, -⟩ := hcomp
  obtain rfl : t = t1 := Host.Outcome.next.inj (ht.symm.trans hx)
  have hnext := completesWith_of_onVoice (i := .oscNext v f) (by rw [← hf]; rfl) hut
  obtain ⟨t', hx', -, -, hresp⟩ := hnext
  exact ⟨t', _, hx', hresp, interpolate_phase_zero hinv.entries⟩

/-- Settles O18: each setter stores its value and compares it by value, which in a positive range is comparing the words. -/
theorem filterCommandsStoreAndMark : Obligations.FilterCommandsStoreAndMark := by
  refine ⟨⟨rfl, rfl, rfl, rfl, rfl, fun m hm => (FilterMode.ofCode?_eq_none m).mpr (by omega)⟩, fun s v u hp hu =>
    ⟨fun m mode hmode => ?_, fun c hc hcut => ?_, fun q hq hqr => ?_, ?_⟩⟩
  · rw [← fltSetMode_eq]
    refine completesWith_of_onVoice (f := fun u => ({ u with flt := fltSetMode u.flt mode }, 0, 0)) ?_ hu
    simp only [exec, execFltMode, hmode]
  · have hstored : cutoffStored s.params.sampleRate c = clamp c cutMin (cutMax s.params.sampleRate) := if_pos hc
    have heq := fltSetCutoff_eq hp.rateLow hp.rateHigh hcut c
    have hrange := cutoffStored_between hp.rateLow hp.rateHigh c
    rw [hstored] at heq hrange
    rw [← heq]
    exact ⟨hrange, completesWith_of_onVoice (i := .fltCut v c) (by rw [← hc]; rfl) hu⟩
  · rw [← fltSetQ_eq hqr hq]
    exact ⟨clampedQ_between hq, completesWith_of_onVoice (i := .fltQ v q) (by rw [← hq]; rfl) hu⟩
  · exact completesWith_of_onVoice (i := .fltRst v) rfl hu

/-- Settles O19: under the cache invariant a sample is a recompute and then the difference equations. -/
theorem fltProcRunsCurrentCoefficients : Obligations.FltProcRunsCurrentCoefficients := by
  refine ⟨fun num sampleRate cutoff q => ⟨rfl, rfl, rfl, rfl, rfl⟩, fun s v u x hu hcache hx => ?_⟩
  have hcomp := completesWith_of_onVoice (i := .fltProc v x) (by rw [← hx]; rfl) hu
  rw [fltProcess_of_cacheInv hcache] at hcomp
  exact hcomp

/-- Settles O20: under the cache invariant a recompute before a sample does not show. -/
theorem lazyEqualsEager : Obligations.LazyEqualsEager := by
  intro num sampleRate f us h
  obtain ⟨heq, hinv⟩ := filterUses_lazy_eager us h
  exact ⟨by rw [heq], hinv⟩

/-- Settles O21: a sample writes the registers before it reads them, and nothing else reads them. -/
theorem coefficientsUnobservable : Obligations.CoefficientsUnobservable :=
  fun num sampleRate _ k us h => filterUses_withCoeffs num sampleRate h k us

/-- Settles O24: each command is `env_set` with its parameter. -/
theorem envelopeParametersSetRates : Obligations.EnvelopeParametersSetRates := by
  intro s v e sel u x he hu hx
  have completes : ∀ (i : Instr) (which : EnvParam),
      exec i s = s.onEnv v e (fFinite x) (fun y => (envSet s.params.sampleRate y which x, 0, 0)) →
      CompletesWith i s v (u.setEnv sel (envSet s.params.sampleRate (u.env sel) which x)) 0 0 := by
    intro i which hi
    rw [hx] at hi
    exact completesWith_of_onEnv hi he hu
  exact ⟨completes (.envSetA v e x) .atk rfl, completes (.envSetD v e x) .dcy rfl,
    completes (.envSetS v e x) .sus rfl, completes (.envSetR v e x) .rel rfl⟩

/-- Settles O25: each rate is 1 or a quotient of a value that is not negative by a positive one. -/
theorem ratesNotNegative : Obligations.RatesNotNegative :=
  fun _ _ _ _ _ hlo hhi ha hd hr hs => envRates_nonneg hlo hhi ha hd hr hs

/-- Settles O48: the invariants of the reset state, and all its voices are idle. -/
theorem resetStateIsUsable : Obligations.ResetStateIsUsable :=
  fun _ _ hp => ⟨resetAt_blockInv hp, resetAt_hostInv hp.voicesLow, execRender_resetAt hp⟩

/-- Settles O47: the parameters of Config are legal. -/
theorem resetMeetsInvariants : Obligations.ResetMeetsInvariants :=
  ⟨resetAt_blockInv ⟨by decide, by decide, by decide, by decide, by decide⟩, resetAt_hostInv (by decide)⟩

/-- Settles O45: every register by the definition of the reset state, the table by `wtEntry_f0_exact`. -/
theorem resetValues : Obligations.ResetValues := by
  intro p n
  have hcutoff := (output_reset_postFilterFixed p.sampleRate).2.1
  refine ⟨List.length_replicate, fun u hu => ?_, rfl, rfl, rfl, hcutoff, rfl, rfl, rfl, rfl, rfl⟩
  obtain rfl : u = Voice.reset := List.eq_of_mem_replicate hu
  have hread : ∀ i, Memory.read Voice.reset.osc.wt i = wtEntry f0 i := Memory.read_nil
  refine ⟨rfl, fun i hi => ⟨hread i, hread i ▸ wtEntry_f0_exact hi⟩, ?_⟩
  refine ⟨rfl, rfl, rfl, rfl, rfl, rfl, fun sel => ?_, rfl, rfl, rfl, rfl, rfl, rfl⟩
  cases sel <;> exact ⟨rfl, rfl, rfl, rfl, rfl, rfl, rfl, rfl, rfl⟩

end Sys2Proof.Proofs

/-!
PROOFS. Memory and the mono buffer: `OSC.WT` as every reader of a table sees it (R61, R111), and `RENDER` commands against
a buffer of frames (R72, R228, R229).
-/

namespace Sys2Proof.Machine

/-! ### `OSC.WT` through `memRead` (R61, R111) -/

theorem memRead_of_voice {s : State} {w : Nat} {u : Voice} (hu : s.voices[w]? = some u) (i : Nat) :
    s.memRead w i = some (Memory.read u.osc.wt i) := by
  rw [State.memRead, hu, Option.map_some]

/-- What `memRead` answers after a command that writes voice unit `v` alone: the new table there, the old tables elsewhere. -/
theorem SameBut.memRead {v : BitVec 8} {s t : State} {u : Voice} (h : SameBut v s t)
    (hu : t.voices[v.toNat]? = some u) (w i : Nat) :
    t.memRead w i = if w = v.toNat then some (Memory.read u.osc.wt i) else s.memRead w i := by
  by_cases hw : w = v.toNat
  · rw [if_pos hw, hw, memRead_of_voice hu]
  · rw [if_neg hw, State.memRead, h.others w hw]; rfl

/-! ### `RENDER` and the mono buffer (R72, R228, R229) -/

/-- The loop of `RENDER` advances every voice by one sample and adds the samples up in order (R228). -/
theorem renderVoices_eq (num : NumFns) (sampleRate : Nat) (us : List Voice) (acc : S) :
    renderVoices num sampleRate us acc =
      ((us.map (voiceNext num sampleRate)).map Prod.fst, ((us.map (voiceNext num sampleRate)).map Prod.snd).foldl fAdd acc) := by
  induction us generalizing acc with
  | nil => rfl
  | cons u us ih => rw [renderVoices, ih]; rfl

/-- The frame of one `RENDER` as the first frame of a mono buffer (R72, R228). -/
theorem monoBuffer_succ (num : NumFns) (sampleRate : Nat) (us : List Voice) (n : Nat) :
    monoBuffer num sampleRate us (n + 1) =
      ((monoBuffer num sampleRate (renderVoices num sampleRate us f0).1 n).1,
        (renderVoices num sampleRate us f0).2 :: (monoBuffer num sampleRate (renderVoices num sampleRate us f0).1 n).2) := by
  rw [renderVoices_eq]; rfl

theorem fltProcessAll_cons (num : NumFns) (sampleRate : Nat) (f : Biquad) (x : S) (xs : List S) :
    fltProcessAll num sampleRate f (x :: xs) =
      ((fltProcessAll num sampleRate (fltProcess num sampleRate f x).1 xs).1,
        (fltProcess num sampleRate f x).2 :: (fltProcessAll num sampleRate (fltProcess num sampleRate f x).1 xs).2) := rfl

/-- The state after one `RENDER` (R228): the voices advanced, the post filter fed the shaped sum, one response. -/
def State.rendered (s : State) : State :=
  let mix := renderVoices NumFns.machine s.params.sampleRate s.voices f0
  let r := fltProcess NumFns.machine s.params.sampleRate s.op.pf (shapeSample NumFns.machine s.op.algo s.op.drive mix.2)
  { s with voices := mix.1, op := { s.op with pf := r.1 }, responses := ⟨0, r.2, r.2⟩ :: s.responses }

theorem execRender_eq (s : State) : exec .render s = .next s.rendered := rfl

theorem decode_encode_render : decode (encode .render) = .command .render := by decide

theorem step_render {s : State} {rest : List Command} (h : s.pending = encode .render :: rest) :
    step s = .next { s with pending := rest }.rendered := by
  rw [step_of_pending h, execCommand_of_command decode_encode_render, execRender_eq]

theorem runSteps_succ {s t : State} (h : step s = .next t) (k : Nat) : runSteps (k + 1) s = runSteps k t := by
  rw [runSteps, h]

end Sys2Proof.Machine

namespace Sys2Proof.Proofs

open Sys2Proof.Machine

/-- Settles O12: the command writes the whole table of its voice unit, and `memRead` sees that table and no other. -/
theorem oscWtWritesTable : Obligations.OscWtWritesTable := by
  intro s v u shape hu hwf hshape
  obtain ⟨t, hx, hsame, hut, hresp⟩ := completesWith_of_onVoice (i := .oscWt v shape) (by rw [← hshape]; rfl) hu
  refine ⟨t, _, hx, hsame, hut, hresp, Memory.wf_writeAll _ _ hwf, fun w i => ?_⟩
  rw [hsame.memRead hut, Memory.read_writeAll _ _ _ hwf]
  by_cases hw : w = v.toNat
  · subst hw
    by_cases hi : i < 256
    · simp only [hi, if_true, and_self]
    · simp only [memRead_of_voice hu, hi, if_true, if_false, and_false]
  · simp only [hw, if_false, false_and]

/-- Settles O42, by induction on the number of frames: the first `RENDER` does the first frame, which is the head of the
buffer at each of the three passes, and the rest start from the voices and the post filter it leaves. -/
theorem renderEqualsBuffer : Obligations.RenderEqualsBuffer := by
  intro s n
  induction n generalizing s with
  | zero => intro hp; rw [List.replicate_zero] at hp; rw [← hp]; rfl
  | succ n ih =>
    intro hp
    have hfirst := step_render (rest := List.replicate n (encode .render)) hp
    have hrest := ih { s with pending := List.replicate n (encode .render) }.rendered rfl
    rw [runSteps_succ hfirst, hrest]
    simp only [monoBuffer_succ, List.map_cons, fltProcessAll_cons, List.reverse_cons, List.append_assoc]
    rfl

end Sys2Proof.Proofs

/-!
PROOFS. The encoding (R80 to R90): a header word is its four fields, decoding says which fields and operand words make a
command, and the rows of R85 are the opcode map.
-/

namespace Sys2Proof

/-! ### A header word is its four fields (R81) -/

/-- The word with these four fields. -/
def headerWord (op v u rsv : BitVec 8) : BitVec 32 := op ++ v ++ u ++ rsv

theorem header_eq_headerWord (op v u : BitVec 8) : header op v u = headerWord op v u 0 := rfl

theorem bitVec_append_inj {m n : Nat} {x x' : BitVec m} {y y' : BitVec n} : x ++ y = x' ++ y' ↔ x = x' ∧ y = y' := by
  refine ⟨fun h => ⟨?_, ?_⟩, fun ⟨hx, hy⟩ => by rw [hx, hy]⟩
  · rw [← BitVec.extractLsb'_append_eq_left (a := x) (b := y), h, BitVec.extractLsb'_append_eq_left]
  · rw [← BitVec.extractLsb'_append_eq_right (a := x) (b := y), h, BitVec.extractLsb'_append_eq_right]

theorem headerWord_inj {op v u rsv op' v' u' rsv' : BitVec 8} :
    headerWord op v u rsv = headerWord op' v' u' rsv' ↔ op = op' ∧ v = v' ∧ u = u' ∧ rsv = rsv' := by
  unfold headerWord
  rw [bitVec_append_inj, bitVec_append_inj, bitVec_append_inj, and_assoc, and_assoc]

theorem headerWord_and (op v u rsv op' v' u' rsv' : BitVec 8) : headerWord op v u rsv &&& headerWord op' v' u' rsv' =
    headerWord (op &&& op') (v &&& v') (u &&& u') (rsv &&& rsv') := by
  unfold headerWord
  rw [BitVec.and_append, BitVec.and_append, BitVec.and_append]

theorem headerWord_fields (c : Command) : headerWord c.opField c.vField c.uField c.rsvField = c.w0 := by
  simp only [headerWord, Command.opField, Command.vField, Command.uField, Command.rsvField]
  rw [BitVec.extractLsb'_append_extractLsb'_eq_extractLsb' (show 24 = 16 + 8 from rfl),
    BitVec.extractLsb'_append_extractLsb'_eq_extractLsb' (show 16 = 8 + 8 from rfl),
    BitVec.extractLsb'_append_extractLsb'_eq_extractLsb' (show 8 = 0 + 8 from rfl)]
  exact BitVec.extractLsb'_eq_self

theorem w0_eq_header_iff {c : Command} {op v u : BitVec 8} :
    c.w0 = header op v u ↔ c.opField = op ∧ c.vField = v ∧ c.uField = u ∧ c.rsvField = 0 := by
  rw [← headerWord_fields c, header_eq_headerWord, headerWord_inj]

/-! ### Decoding -/

/-- The fields that checks 2 and 3 of R84 want zero are zero. -/
def Command.FieldsFit (c : Command) (row : OpcodeRow) : Prop :=
  c.rsvField = 0 ∧ (row.usesV = false → c.vField = 0) ∧ (row.usesU = false → c.uField = 0)

/-- What decodes to a command: the opcode has a row, the fields fit it, and the row makes the command. -/
theorem decode_eq_command_iff {c : Command} {i : Instr} : decode c = .command i ↔
    ∃ row, opcodeRow c.opField = some row ∧ c.FieldsFit row ∧ row.make c.vField c.uField c.w1 c.w2 = i := by
  cases hrow : opcodeRow c.opField with
  | none => simp [decode_of_no_row hrow]
  | some row =>
    rw [decode_of_row hrow]
    unfold Command.FieldsFit
    split_ifs with h0 h1 h2 <;> simp_all

/-- The encoding of the command a row makes: the header of its fields, and the operand words it uses. -/
theorem encode_make {op : BitVec 8} {row : OpcodeRow} (h : opcodeRow op = some row) {v u : BitVec 8}
    (hv : row.usesV = false → v = 0) (hu : row.usesU = false → u = 0) (a b : S) :
    (encode (row.make v u a b)).w0 = header op v u ∧
    ((row.make v u a b).usesA = true → (encode (row.make v u a b)).w1 = a) ∧
    ((row.make v u a b).usesB = true → (encode (row.make v u a b)).w2 = b) := by
  unfold opcodeRow at h
  split at h <;> cases h <;> simp_all [encode, Instr.usesA, Instr.usesB]

/-- A row reads no operand word but those its command uses (R82). -/
theorem make_congr {op : BitVec 8} {row : OpcodeRow} (h : opcodeRow op = some row) {v u : BitVec 8} {a b a' b' : S}
    (ha : (row.make v u a b).usesA = true → a' = a) (hb : (row.make v u a b).usesB = true → b' = b) :
    row.make v u a' b' = row.make v u a b := by
  unfold opcodeRow at h
  split at h <;> cases h <;> simp_all [Instr.usesA, Instr.usesB]

/-- An encoded command decodes to itself when its opcode's row makes it from its fields and operand words. -/
theorem decode_encode_of_row {i : Instr} {op v u : BitVec 8} {a b : S} {row : OpcodeRow}
    (he : encode i = ⟨header op v u, a, b⟩) (hrow : opcodeRow op = some row) (hv : (row.usesV || v == 0) = true)
    (hu : (row.usesU || u == 0) = true) (hi : row.make v u a b = i) : decode (encode i) = .command i := by
  refine decode_eq_command_iff.mpr ⟨row, ?_, ⟨?_, fun h => ?_, fun h => ?_⟩, ?_⟩ <;> rw [he]
  · rw [opField_header, hrow]
  · rw [rsvField_header]; rfl
  · rw [vField_header]; simpa [h] using hv
  · rw [uField_header]; simpa [h] using hu
  · rw [vField_header, uField_header, hi]

theorem decode_encode (i : Instr) : decode (encode i) = .command i := by
  cases i <;> exact decode_encode_of_row rfl rfl rfl rfl rfl

/-- Decoding looks at the header and at the operand words its command uses, and at nothing else (R82). -/
theorem decode_congr {c d : Command} {i : Instr} (hd : decode d = .command i) (h0 : c.w0 = d.w0)
    (h1 : i.usesA = true → c.w1 = d.w1) (h2 : i.usesB = true → c.w2 = d.w2) : decode c = .command i := by
  obtain ⟨row, hrow, hfit, rfl⟩ := decode_eq_command_iff.mp hd
  cases c
  cases d
  cases h0
  exact decode_eq_command_iff.mpr ⟨row, hrow, hfit, make_congr hrow h1 h2⟩

/-- A command that decodes to `i` has the header of `i` and the operand words `i` uses. -/
theorem words_of_decode {c : Command} {i : Instr} (h : decode c = .command i) :
    c.w0 = (encode i).w0 ∧ (i.usesA = true → c.w1 = (encode i).w1) ∧ (i.usesB = true → c.w2 = (encode i).w2) := by
  obtain ⟨row, hrow, ⟨hrsv, hv, hu⟩, rfl⟩ := decode_eq_command_iff.mp h
  obtain ⟨hw0, hw1, hw2⟩ := encode_make hrow hv hu c.w1 c.w2
  refine ⟨?_, fun ha => (hw1 ha).symm, fun hb => (hw2 hb).symm⟩
  rw [hw0]
  exact w0_eq_header_iff.mpr ⟨rfl, rfl, rfl, hrsv⟩

end Sys2Proof

namespace Sys2Proof.Machine

/-! ### The rows of R85 -/

/-- The mask of a header field: a field the command uses is free, any other must be zero. -/
def fieldMask (uses : Bool) : BitVec 8 := if uses then 0 else 0xFF

theorem and_ones (x : BitVec 8) : x &&& 0xFF = x := BitVec.and_allOnes

theorem and_fieldMask_eq_zero {uses : Bool} {x : BitVec 8} : x &&& fieldMask uses = 0 ↔ (uses = false → x = 0) := by
  cases uses with
  | true => simp [fieldMask]
  | false => rw [fieldMask, if_neg Bool.false_ne_true, and_ones, eq_self_iff_true, true_imp_iff]

/-- The columns `match` and `mask` of R85 for an opcode of the map. -/
def matchMask (op : BitVec 8) (row : OpcodeRow) : BitVec 32 × BitVec 32 :=
  (header op 0 0, headerWord 0xFF (fieldMask row.usesV) (fieldMask row.usesU) 0xFF)

/-- R85 lists the opcode map, in its order. -/
theorem headerRows_eq : headerRows = opcodes.filterMap fun op => (opcodeRow op).map (matchMask op) := by
  decide

theorem mem_headerRows {r : BitVec 32 × BitVec 32} :
    r ∈ headerRows ↔ ∃ op row, opcodeRow op = some row ∧ matchMask op row = r := by
  simp only [headerRows_eq, List.mem_filterMap, Option.map_eq_some_iff]
  constructor
  · rintro ⟨op, -, row, hrow, hr⟩
    exact ⟨op, row, hrow, hr⟩
  · rintro ⟨op, row, hrow, hr⟩
    exact ⟨op, List.elem_iff.mp (opcodeRow_refusedByValue hrow).1, row, hrow, hr⟩

/-- `(W0 & mask) == match` says that the opcode is the row's and the fields fit it. -/
theorem headerMatches_matchMask {c : Command} {op : BitVec 8} {row : OpcodeRow} :
    headerMatches c.w0 (matchMask op row) = true ↔ c.opField = op ∧ c.FieldsFit row := by
  rw [headerMatches, beq_iff_eq, matchMask, ← headerWord_fields c, headerWord_and, header_eq_headerWord,
    headerWord_inj, and_ones, and_ones, and_fieldMask_eq_zero, and_fieldMask_eq_zero, Command.FieldsFit]
  tauto

theorem exists_decode_iff_headerMatches {c : Command} :
    (∃ i, decode c = .command i) ↔ ∃ r ∈ headerRows, headerMatches c.w0 r = true := by
  simp only [decode_eq_command_iff, mem_headerRows]
  constructor
  · rintro ⟨i, row, hrow, hfit, -⟩
    exact ⟨_, ⟨_, row, hrow, rfl⟩, headerMatches_matchMask.mpr ⟨rfl, hfit⟩⟩
  · rintro ⟨r, ⟨op, row, hrow, rfl⟩, hm⟩
    obtain ⟨rfl, hfit⟩ := headerMatches_matchMask.mp hm
    exact ⟨_, row, hrow, hfit, rfl⟩

/-- No header matches two rows: a match fixes the opcode, and no two rows share one. -/
theorem headerRows_pairwise (w0 : BitVec 32) :
    headerRows.Pairwise fun r1 r2 => ¬ (headerMatches w0 r1 = true ∧ headerMatches w0 r2 = true) := by
  have hdistinct : opcodes.Pairwise (· ≠ ·) := by decide
  rw [headerRows_eq, List.pairwise_filterMap]
  refine hdistinct.imp fun {op1 op2} hne r1 h1 r2 h2 ⟨hm1, hm2⟩ => hne ?_
  obtain ⟨row1, -, rfl⟩ := Option.map_eq_some_iff.mp h1
  obtain ⟨row2, -, rfl⟩ := Option.map_eq_some_iff.mp h2
  have hop1 := (headerMatches_matchMask (c := ⟨w0, 0, 0⟩).mp hm1).1
  have hop2 := (headerMatches_matchMask (c := ⟨w0, 0, 0⟩).mp hm2).1
  exact hop1.symm.trans hop2

end Sys2Proof.Machine

namespace Sys2Proof.Proofs

open Sys2Proof.Machine

/-- Settles O1: one way by the words of a decoded command, the other because decoding looks at those words alone. -/
theorem decodeEncodeAgree : Obligations.DecodeEncodeAgree :=
  ⟨decode_encode, fun _ i => ⟨words_of_decode, fun ⟨h0, h1, h2⟩ => decode_congr (decode_encode i) h0 h1 h2⟩⟩

/-- Settles O2: the rows of R85 are the opcode map. -/
theorem headerMatchesOneRow : Obligations.HeaderMatchesOneRow :=
  ⟨fun _ => exists_decode_iff_headerMatches, rfl, headerRows_pairwise⟩

/-- Settles O7: the two outcomes of `exec`, by the checks of R84. -/
theorem legalCompletes : Obligations.LegalCompletes := fun _ _ => ⟨exec_completes, exec_refuses⟩

/-- Settles O3: each word is evaluated. -/
theorem decodeWords : Obligations.DecodeWords := by
  unfold Obligations.DecodeWords
  decide

end Sys2Proof.Proofs

/-!
PROOFS. The oscillator's sample and the voice's (R110, R113, R192): the position of a phase in `[0, 1)` lies in the table,
and a cross-fade with weight 0 or 1 is one of its two waveforms.
-/

namespace Sys2Proof.Machine

/-! ### The position in the table (R113) -/

/-- A phase in `[0, 1)` is finite, has no sign and a magnitude below that of 1. -/
theorem phaseInRange_bounds {x : S} (h : phaseInRange x = true) :
    fFinite x = true ∧ fSign x = false ∧ fMag x < fMag f1 := by
  simp only [phaseInRange, fLt, Bool.and_eq_true, decide_eq_true_eq, bne_iff_ne] at h
  obtain ⟨⟨hle, -, hlt⟩, hne⟩ := h
  obtain ⟨-, -, hge⟩ := fLe_eq_true.mp hle
  rw [show fOrd f0 = 0 by decide] at hge
  rw [show fOrd f1 = fMag f1 by decide] at hlt
  have hs : fSign x = false := by
    by_contra hs
    rw [Bool.not_eq_false] at hs
    have hord : fOrd x = -fMag x := if_pos hs
    exact hne (eq_of_sign_mag (hs.trans (by decide)) (show fMag x = 0 by omega))
  have hord : fOrd x = fMag x := if_neg (by simp [hs])
  have hmag : fMag x < fMag f1 := by omega
  exact ⟨(fFinite_iff x).mpr (hmag.trans (by decide)), hs, hmag⟩

/-- The position `phase * 256` is rounded to no more than `256 * (1 - 2^-24)`, a binary32 value, so its floor is a table
index without the reduction mod 256 (R116 (c)). -/
theorem floorInt_position {x : S} (h : phaseInRange x = true) :
    floorInt (fMul x f256) = tableIndex (fMul x f256) ∧ tableIndex (fMul x f256) < 256 := by
  obtain ⟨hf, hs, hmag⟩ := phaseInRange_bounds h
  have h256 : fFinite f256 = true := by decide
  have hx : fUnits x ≤ (2 ^ 24 - 1) * 2 ^ 125 :=
    ((magUnits_mono ((fFinite_iff x).mp hf) (by decide)).mpr (Nat.le_pred_of_lt hmag)).trans (by decide)
  have hprod : fUnits x * fUnits f256 ≤ magUnits 0x437FFFFF * 2 ^ 149 := by
    rw [show fUnits f256 = 2 ^ 157 by decide, show magUnits 0x437FFFFF = (2 ^ 24 - 1) * 2 ^ 133 by decide]
    omega
  obtain ⟨hpf, hpmag⟩ := fMul_bound hf h256 (by decide) hprod
  have hpu : fUnits (fMul x f256) < 256 * 2 ^ 149 :=
    ((magUnits_mono ((fFinite_iff _).mp hpf) (by decide)).mpr hpmag).trans_lt (by decide)
  have hps : fSign (fMul x f256) = false := by rw [fSign_fMul hf h256, hs]; decide
  have hint := fInt_of_not_sign hps
  have hlo : 0 ≤ floorInt (fMul x f256) := by rw [floorInt, hint]; omega
  have hhi : floorInt (fMul x f256) < 256 := by rw [floorInt, hint]; omega
  rw [tableIndex, Int.emod_eq_of_lt hlo hhi]
  omega

/-- The two guards of R113 as one test. -/
theorem wrapPhase_eq (p : S) : wrapPhase p =
    if fFinite p && (fGe (fSub p (fFloor p)) f0 && fLt (fSub p (fFloor p)) f1) then fSub p (fFloor p) else f0 := by
  unfold wrapPhase
  cases fFinite p with
  | true => rw [Bool.true_and]; rfl
  | false => rfl

/-! ### The voice (R192) -/

theorem voiceNext_of_idle (num : NumFns) (sampleRate : Nat) {u : Voice} (h : u.amp.phase = .idle) :
    voiceNext num sampleRate u = (u, f0) := if_pos h

theorem voiceNext_of_active (num : NumFns) (sampleRate : Nat) {u : Voice} (h : u.amp.phase ≠ .idle) :
    voiceNext num sampleRate u =
      let osc := oscNext sampleRate u.osc (bentFrequency num u)
      let a := envNext u.amp
      let e := envNext u.feg
      let flt := fltProcess num sampleRate (fltSetCutoff sampleRate u.flt (modulatedCutoff u e.2)) osc.2
      ({ u with osc := osc.1, amp := a.1, feg := e.1, flt := flt.1 }, fMul flt.2 (fMul a.2 u.volume)) := if_neg h

/-! ### The waveforms by themselves (R110) -/

theorem f1_fMul {x : S} (hx : fFinite x = true) : fMul f1 x = x := by
  rw [fMul_comm_of_finite fFinite_f1 hx, fMul_one hx]

/-- At weight 0 a cross-fade has the value of its first waveform. -/
theorem fInt_crossFade_f0 {a b : S} (ha : fFinite a = true) (hb : fFinite b = true) :
    fInt (crossFade f0 a b) = fInt a := by
  rw [crossFade, show fSub f1 f0 = f1 by decide, f1_fMul ha]
  exact (fInt_fAdd_zero ha (fMul_zero fFinite_f0 hb (.inl (by decide)))).2

/-- At weight 1 a cross-fade is its second waveform, where that is not a zero. -/
theorem crossFade_f1 {a b : S} (ha : fFinite a = true) (hb : fFinite b = true) (hnz : fIsZero b = false) :
    crossFade f1 a b = b := by
  have hzero : fIsZero (fMul f0 a) = true := fMul_zero fFinite_f0 ha (.inl (by decide))
  rw [crossFade, show fSub f1 f1 = f0 by decide, f1_fMul hb, fAdd_finite (fFinite_of_fIsZero hzero) hb]
  exact addFinite_exact hb hnz (by rw [(fInt_eq_zero _).mpr hzero, zero_add])

theorem wtSquare_ne_zero (i : Nat) : fIsZero (wtSquare i) = false := by
  unfold wtSquare; split <;> decide

/-- The table of shape 0.5 is the triangle exactly. -/
theorem fInt_wtEntry_f0p5 {i : Nat} (hi : i < 256) : fInt (wtEntry f0p5 i) = fInt (wtTri i) := by
  have hsquare := (between_neg1_f1_iff.mp (wtSquare_between i)).1
  rw [wtEntry, if_neg (by decide), show fMul (fSub f0p5 f0p5) f2 = f0 by decide]
  exact fInt_crossFade_f0 (wtTri_exact hi).1 hsquare

/-- The table of shape 1 is the square. -/
theorem wtEntry_f1 {i : Nat} (hi : i < 256) : wtEntry f1 i = wtSquare i := by
  have hsquare := (between_neg1_f1_iff.mp (wtSquare_between i)).1
  rw [wtEntry, if_neg (by decide), show fMul (fSub f1 f0p5) f2 = f1 by decide]
  exact crossFade_f1 (wtTri_exact hi).1 hsquare (wtSquare_ne_zero i)

/-- A difference is `-0` only when its first operand is negative. -/
theorem fSub_ne_neg_zero {a b : S} (ha : fFinite a = true) (hb : fFinite b = true) (hs : fSign a = false) :
    fSub a b ≠ fNeg f0 := by
  intro h
  rw [fSub_finite ha hb] at h
  rw [(signs_of_addFinite_eq_neg_zero h).1] at hs
  cases hs

theorem fSign_scaledTime {i : Nat} (hi : i < 256) {c : S} (hc : fFinite c = true) (hs : fSign c = false) :
    fSign (fMul c (wtTime i)) = false := by
  obtain ⟨htf, hts, -⟩ := wtTime_exact hi
  rw [fSign_fMul hc htf, hs, hts]; rfl

theorem wtSaw_ne_neg_zero {i : Nat} (hi : i < 256) : wtSaw i ≠ fNeg f0 :=
  have hf := (fInt_scaledTime hi (c := f2) (e := 1) (by decide) (by decide) (by decide) (by decide)).1
  fSub_ne_neg_zero hf fFinite_f1 (fSign_scaledTime hi (by decide) (by decide))

theorem wtTri_ne_neg_zero {i : Nat} (hi : i < 256) : wtTri i ≠ fNeg f0 := by
  have hf := (fInt_scaledTime hi (c := f4) (e := 2) (by decide) (by decide) (by decide) (by decide)).1
  unfold wtTri
  split
  · exact fSub_ne_neg_zero hf fFinite_f1 (fSign_scaledTime hi (by decide) (by decide))
  · exact fSub_ne_neg_zero (by decide) hf (by decide)

end Sys2Proof.Machine

namespace Sys2Proof.Proofs

open Sys2Proof.Machine

/-- Settles O17: the index is that of the position, the new phase is the wrapped one. -/
theorem oscNextResult : Obligations.OscNextResult := by
  intro s v u f hu hphase
  obtain ⟨hfloor, hindex⟩ := floorInt_position hphase
  refine ⟨tableIndex (fMul u.osc.phase f256), wrapPhase (fAdd u.osc.phase (fDiv f (srf s.params.sampleRate))), hindex,
    hfloor, wrapPhase_inRange _, ⟨rfl, fun hf => ?_⟩, fun hf => ?_, wrapPhase_eq _⟩
  · exact completesWith_of_onVoice (i := .oscNext v f) (by rw [← hf]; rfl) hu
  · exact congrArg Oscillator.phase (oscNext_of_not_finite s.params.sampleRate u.osc hf)

/-- Settles O32: `V.NEXT` is `voice_next`, with its early-out and its chain. -/
theorem voiceNextResult : Obligations.VoiceNextResult := by
  intro s v u hu
  have hcomp := completesWith_of_onVoice (i := .vNext v) rfl hu
  refine ⟨fun hidle => ?_, fun hactive => ⟨?_, oscNext_of_not_finite s.params.sampleRate u.osc⟩⟩
  · rw [voiceNext_of_idle _ _ hidle] at hcomp
    exact hcomp
  · rw [voiceNext_of_active _ _ hactive] at hcomp
    exact hcomp

/-- Settles O11: the waveforms are those of the model, exact by `wtSaw_exact` and `wtTri_exact`. -/
theorem tableShapesExact : Obligations.TableShapesExact := by
  intro i hi
  obtain ⟨hsawf, hsaw⟩ := wtSaw_exact hi
  obtain ⟨htrif, htri⟩ := wtTri_exact hi
  have htriangle : fInt (wtTri i) * 64 = (if i < 128 then (i : Int) - 64 else 192 - (i : Int)) * 2 ^ 149 := by
    rw [htri]; ring
  refine ⟨wtEntry_f0_exact hi, fInt_wtEntry_f0p5 hi ▸ htriangle, wtEntry_f1 hi, wtSaw i, wtTri i, wtSquare i,
    ⟨hsawf, wtSaw_ne_neg_zero hi, ?_⟩, ⟨htrif, wtTri_ne_neg_zero hi, htriangle⟩, rfl, fun shape => rfl⟩
  rw [hsaw]; ring

end Sys2Proof.Proofs

/-!
PROOFS. Silence: zeros in the delay registers and zeros at the input stay zeros, because every coefficient is finite (R134,
R142); so idle voices and a cleared post filter give a silent output (R229 (a)).
-/

namespace Sys2Proof.Machine

/-! ### A filter with zeros in its delay registers (R142) -/

/-- Both delay registers hold a zero, of either sign. -/
structure Biquad.Silent (f : Biquad) : Prop where
  z1 : fIsZero f.z1 = true
  z2 : fIsZero f.z2 = true

theorem silent_of_eq_f0 {f : Biquad} (h1 : f.z1 = f0) (h2 : f.z2 = f0) : f.Silent :=
  ⟨by rw [h1]; decide, by rw [h2]; decide⟩

/-- The difference equations of R135 with finite coefficients keep the registers silent and answer a zero with a zero, which
is `+0.0` when `z1` is. -/
theorem fltRun_silent {f : Biquad} {x : S} (hb0 : fFinite f.b0 = true) (hb1 : fFinite f.b1 = true)
    (hb2 : fFinite f.b2 = true) (ha1 : fFinite f.a1 = true) (ha2 : fFinite f.a2 = true) (hf : f.Silent)
    (hx : fIsZero x = true) :
    (fltRun f x).1.Silent ∧ fIsZero (fltRun f x).2 = true ∧ (f.z1 = f0 → (fltRun f x).2 = f0) := by
  have times : ∀ {c z : S}, fFinite c = true → fIsZero z = true → fIsZero (fMul c z) = true := fun hc hz =>
    fMul_zero hc (fFinite_of_fIsZero hz) (.inr hz)
  obtain ⟨hy, hyPlus⟩ := fAdd_zeros (times hb0 hx) hf.z1
  have hz1 := (fAdd_zeros (fSub_zeros (times hb1 hx) (times ha1 hy)) hf.z2).1
  have hz2 := fSub_zeros (times hb2 hx) (times ha2 hy)
  exact ⟨⟨hz1, hz2⟩, hy, fun h => hyPlus (.inr h)⟩

section silence
variable {num : NumFns} {sampleRate : Nat} {f : Biquad}

/-- One zero sample through a silent filter with its registers in range: the coefficients it uses are those of R134, which are
finite. -/
theorem fltProcess_silent {x : S} (hnum : num.Admitted) (hlo : 8000 ≤ sampleRate) (hhi : sampleRate ≤ 16777215)
    (hinv : f.Inv num sampleRate) (hf : f.Silent) (hx : fIsZero x = true) :
    (fltProcess num sampleRate f x).1.Silent ∧ fIsZero (fltProcess num sampleRate f x).2 = true ∧
      (f.z1 = f0 → (fltProcess num sampleRate f x).2 = f0) := by
  obtain ⟨hb0, hb1, hb2, ha1, ha2⟩ :=
    coeffs_finite hnum f.mode (angularFrequency_inP4Range hlo hhi hinv.cutoff) hinv.q
  rw [fltProcess_of_cacheInv hinv.cache]
  exact fltRun_silent (f := fltRecompute num sampleRate f) hb0 hb1 hb2 ha1 ha2 ⟨hf.z1, hf.z2⟩ hx

theorem fltProcessAll_length (num : NumFns) (sampleRate : Nat) (f : Biquad) (xs : List S) :
    (fltProcessAll num sampleRate f xs).2.length = xs.length := by
  induction xs generalizing f with
  | nil => rfl
  | cons x xs ih => rw [fltProcessAll_cons, List.length_cons, List.length_cons, ih]

/-- A silent filter answers zeros with zeros for ever (R142). -/
theorem fltProcessAll_silent {xs : List S} (hnum : num.Admitted) (hlo : 8000 ≤ sampleRate) (hhi : sampleRate ≤ 16777215)
    (hinv : f.Inv num sampleRate) (hf : f.Silent) (hxs : ∀ x ∈ xs, fIsZero x = true) :
    ∀ y ∈ (fltProcessAll num sampleRate f xs).2, fIsZero y = true := by
  induction xs generalizing f with
  | nil => exact fun _ hy => nomatch hy
  | cons x xs ih =>
    obtain ⟨hx, hrest⟩ := List.forall_mem_cons.mp hxs
    obtain ⟨hnext, hy, -⟩ := fltProcess_silent hnum hlo hhi hinv hf hx
    exact List.forall_mem_cons.mpr ⟨hy, ih (fltProcess_inv hinv x) hnext hrest⟩

end silence

/-! ### The mono buffer of idle voices (R229 (a)) -/

/-- Idle voices fill the buffer with `+0.0` and stay as they are. -/
theorem monoBuffer_idle (num : NumFns) (sampleRate : Nat) {us : List Voice} (h : ∀ u ∈ us, u.amp.phase = .idle) (n : Nat) :
    monoBuffer num sampleRate us n = (us, List.replicate n f0) := by
  induction n with
  | zero => rfl
  | succ n ih => rw [monoBuffer_succ, renderVoices_idle num sampleRate us h, ih, List.replicate_succ]

end Sys2Proof.Machine

namespace Sys2Proof.Proofs

open Sys2Proof.Machine

/-- Settles O23: the registers are silent after the reset and stay so, and `z1` is `+0.0` at the first sample. -/
theorem silentStability : Obligations.SilentStability := by
  intro num sampleRate f xs hnum hlo hhi hf hxs
  have hinv := fltReset_inv hf
  have hsilent : (fltReset f).Silent := silent_of_eq_f0 rfl rfl
  refine ⟨fltProcessAll_length _ _ _ _, fltProcessAll_silent hnum hlo hhi hinv hsilent hxs, fun y hy => ?_⟩
  cases xs with
  | nil => exact nomatch hy
  | cons x xs =>
    obtain ⟨-, -, hfirst⟩ := fltProcess_silent hnum hlo hhi hinv hsilent (hxs x List.mem_cons_self)
    exact (Option.mem_some.mp hy).symm.trans (hfirst rfl)

/-- Settles O43: by O42 the responses are the post filter's outputs for the shaped mono buffer, which for idle voices is all
zeros before and after shaping, and the cleared post filter is silent. -/
theorem silenceInSilenceOut : Obligations.SilenceInSilenceOut := by
  intro s n hinv hidle hz1 hz2 hpending
  have hrun := renderEqualsBuffer s n hpending
  simp only [monoBuffer_idle _ _ hidle] at hrun
  have hshaped : ∀ x ∈ (List.replicate n f0).map (shapeSample NumFns.machine s.op.algo s.op.drive), fIsZero x = true := by
    rw [List.map_replicate]
    intro x hx
    rw [List.eq_of_mem_replicate hx]
    exact shapeSample_zero NumFns.machine_admitted _ hinv.op.drive (by decide)
  have hout := fltProcessAll_silent NumFns.machine_admitted hinv.legal.rateLow hinv.legal.rateHigh hinv.op.pf
    (silent_of_eq_f0 hz1 hz2) hshaped
  refine ⟨_, _, hrun, rfl, rfl, ?_, fun r hr => ?_⟩
  · rw [List.length_reverse, List.length_map, fltProcessAll_length, List.length_map, List.length_replicate]
  · obtain ⟨y, hy, rfl⟩ := List.mem_map.mp (List.mem_reverse.mp hr)
    exact ⟨rfl, rfl, hout y hy⟩

end Sys2Proof.Proofs

/-!
PROOFS. The envelope (R160 to R173): its sample phase by phase, what leaves an Idle envelope Idle over all commands, and the
release that cannot fall because its rate is a zero.
-/

namespace Sys2Proof.Machine

/-! ### The sample of an envelope, by phase (R164) -/

section envStep
variable {e : Envelope}

theorem envStep_attack (h : e.phase = .attack) : envStep e =
    if fGe (fAdd e.level e.atkRate) f1 then { e with level := f1, phase := .decay }
    else { e with level := fAdd e.level e.atkRate, phase := .attack } := by
  unfold envStep; rw [h]

theorem envStep_decay (h : e.phase = .decay) : envStep e =
    if fLe (fSub e.level e.dcyRate) e.sus then { e with level := e.sus, phase := .sustain }
    else { e with level := fSub e.level e.dcyRate, phase := .decay } := by
  unfold envStep; rw [h]

theorem envStep_sustain (h : e.phase = .sustain) : envStep e = { e with level := e.sus, phase := .sustain } := by
  unfold envStep; rw [h]

theorem envStep_release (h : e.phase = .release) : envStep e =
    if fLe (fSub e.level e.relRate) f0 then { e with level := f0, phase := .idle }
    else { e with level := fSub e.level e.relRate, phase := .release } := by
  unfold envStep; rw [h]

end envStep

/-! ### The commands with no operand word (R169 to R172) -/

section commands
variable (v e : BitVec 8) (s : State)

theorem exec_envTrig : exec (.envTrig v e) s = s.onEnv v e true fun x => (envTrigger x, 0, 0) := rfl

theorem exec_envRls : exec (.envRls v e) s = s.onEnv v e true fun x => (envRelease x, 0, 0) := rfl

theorem exec_envNext : exec (.envNext v e) s = s.onEnv v e true fun x => (envStep x, (envStep x).level, 0) := rfl

theorem exec_envRdp : exec (.envRdp v e) s = s.onEnv v e true fun x => (x, x.phase.code, x.level) := rfl

end commands

/-! ### What one command does to one envelope -/

section frame
variable {s t : State} {w : Nat} {u u' : Voice}

/-- After a voice command, a voice unit is as it was, or it is the unit named and is what the command makes of it. -/
theorem voice_of_onVoice {v : BitVec 8} {legal : Bool} {f : Voice → Voice × BitVec 32 × BitVec 32}
    (ht : s.onVoice v legal f = .next t) (hu : s.voices[w]? = some u) (hu' : t.voices[w]? = some u') :
    u' = u ∨ (v.toNat = w ∧ u' = (f u).1) := by
  rcases State.onVoice_cases ht with ⟨rfl, -⟩ | ⟨x, hx, -, rfl⟩
  · exact .inl (Option.some.inj (hu'.symm.trans hu))
  · by_cases hw : w = v.toNat
    · subst hw
      obtain rfl : x = u := Option.some.inj (hx.symm.trans hu)
      exact .inr ⟨rfl, Option.some.inj (hu'.symm.trans (getElem?_setVoice_same hx _))⟩
    · have hother := (sameBut_setVoice_respond s v (f x).1 (f x).2.1 (f x).2.2).others w hw
      exact .inl (Option.some.inj (hu'.symm.trans (hother.trans hu)))

/-- After an envelope command, an envelope is as it was, or it is the one named and is what the command makes of it. -/
theorem env_of_onEnv {v e : BitVec 8} {legal : Bool} {f : Envelope → Envelope × BitVec 32 × BitVec 32}
    (ht : s.onEnv v e legal f = .next t) (hu : s.voices[w]? = some u) (hu' : t.voices[w]? = some u') (sel : EnvSel) :
    u'.env sel = u.env sel ∨
      (v.toNat = w ∧ EnvSel.ofCode? e = some sel ∧ u'.env sel = (f (u.env sel)).1) := by
  unfold State.onEnv at ht
  split at ht
  · cases ht
    exact .inl (congrArg (·.env sel) (Option.some.inj (hu'.symm.trans hu)))
  · rename_i named he
    rcases voice_of_onVoice ht hu hu' with rfl | ⟨hv, rfl⟩
    · exact .inl rfl
    · by_cases hsel : sel = named
      · subst hsel
        exact .inr ⟨hv, he, env_setEnv_same _ _ _⟩
      · exact .inl (env_setEnv_other _ _ _ _ hsel)

/-- `RENDER` advances each voice by one sample (R228). -/
theorem voice_of_execRender (ht : execRender s = .next t) (hu : s.voices[w]? = some u) (hu' : t.voices[w]? = some u') :
    u' = (voiceNext NumFns.machine s.params.sampleRate u).1 := by
  cases ht
  change (renderVoices NumFns.machine s.params.sampleRate s.voices f0).1[w]? = some u' at hu'
  rw [renderVoices_eq, List.map_map, List.getElem?_map, hu] at hu'
  exact (Option.some.inj hu').symm

end frame

/-! ### What leaves an Idle envelope Idle (R162, R163, R164, R190) -/

theorem envRelease_of_idle {e : Envelope} (h : e.phase = .idle) : envRelease e = e := if_neg (not_not.mpr h)

theorem envRelease_of_active {e : Envelope} (h : e.phase ≠ .idle) : envRelease e = { e with phase := .release } := if_pos h

theorem envSet_phase (sampleRate : Nat) (e : Envelope) (which : EnvParam) (x : S) :
    (envSet sampleRate e which x).phase = e.phase := by
  cases which <;> rfl

theorem voiceRelease_env (u : Voice) (sel : EnvSel) : (voiceRelease u).env sel = envRelease (u.env sel) := by
  cases sel <;> rfl

theorem voiceTrigger_env (u : Voice) (frequency volume : S) (sel : EnvSel) :
    (voiceTrigger u frequency volume).env sel = envTrigger (u.env sel) := by
  cases sel <;> rfl

/-- A sample of the voice leaves an Idle envelope as it is, whether the voice is active or not. -/
theorem voiceNext_env_of_idle (num : NumFns) (sampleRate : Nat) {u : Voice} {sel : EnvSel}
    (h : (u.env sel).phase = .idle) : (voiceNext num sampleRate u).1.env sel = u.env sel := by
  by_cases hamp : u.amp.phase = .idle
  · rw [voiceNext_of_idle num sampleRate hamp]
  · rw [voiceNext_of_active num sampleRate hamp]
    cases sel with
    | amp => exact absurd h hamp
    | feg => exact envStep_idle h

section idle
variable {s t : State} {w : Nat} {sel : EnvSel} {u u' : Voice} (hu : s.voices[w]? = some u)
  (hu' : t.voices[w]? = some u') (hidle : (u.env sel).phase = .idle)
include hu hu' hidle

theorem idle_of_onVoice {v : BitVec 8} {legal : Bool} {f : Voice → Voice × BitVec 32 × BitVec 32}
    (ht : s.onVoice v legal f = .next t) (hf : ((f u).1.env sel).phase = .idle) : (u'.env sel).phase = .idle := by
  rcases voice_of_onVoice ht hu hu' with rfl | ⟨-, rfl⟩
  · exact hidle
  · exact hf

theorem idle_of_onEnv {v e : BitVec 8} {legal : Bool} {f : Envelope → Envelope × BitVec 32 × BitVec 32}
    (ht : s.onEnv v e legal f = .next t) (hf : (f (u.env sel)).1.phase = .idle) : (u'.env sel).phase = .idle := by
  rcases env_of_onEnv ht hu hu' sel with heq | ⟨-, -, heq⟩
  · rw [heq]; exact hidle
  · rw [heq]; exact hf

/-- Every command but the two triggers leaves an Idle envelope Idle. -/
theorem idle_of_exec {i : Instr} (htrig : ∀ v e, i ≠ .envTrig v e) (hvtrig : ∀ v f vol, i ≠ .vTrig v f vol)
    (ht : exec i s = .next t) : (u'.env sel).phase = .idle := by
  have untouched : t.voices = s.voices → (u'.env sel).phase = .idle := fun h => by
    rw [h, hu] at hu'
    exact Option.some.inj hu' ▸ hidle
  cases i with
  | envTrig v e => exact absurd rfl (htrig v e)
  | vTrig v f vol => exact absurd rfl (hvtrig v f vol)
  | nop | statusRd | opAlgo | opDrive | opProc => exact untouched (exec_voices ht rfl (fun h => nomatch h))
  | render =>
    rw [voice_of_execRender ht hu hu', voiceNext_env_of_idle _ _ hidle]
    exact hidle
  | envSetA | envSetD | envSetS | envSetR =>
    simp only [exec, execEnvSetA, execEnvSetD, execEnvSetS, execEnvSetR] at ht
    exact idle_of_onEnv hu hu' hidle ht ((envSet_phase _ _ _ _).trans hidle)
  | envRls =>
    rw [exec_envRls] at ht
    exact idle_of_onEnv hu hu' hidle ht (by rw [envRelease_of_idle hidle]; exact hidle)
  | envNext =>
    rw [exec_envNext] at ht
    exact idle_of_onEnv hu hu' hidle ht (by rw [envStep_idle hidle]; exact hidle)
  | envRdp =>
    rw [exec_envRdp] at ht
    exact idle_of_onEnv hu hu' hidle ht hidle
  | vRls =>
    exact idle_of_onVoice hu hu' hidle ht (by rw [voiceRelease_env, envRelease_of_idle hidle]; exact hidle)
  | vNext => exact idle_of_onVoice hu hu' hidle ht (by rw [voiceNext_env_of_idle _ _ hidle]; exact hidle)
  | fltMode =>
    simp only [exec, execFltMode] at ht
    split at ht
    · cases ht; exact untouched rfl
    · exact idle_of_onVoice hu hu' hidle ht (by cases sel <;> exact hidle)
  | oscWt | oscRst | oscNext | oscRdt | fltCut | fltQ | fltRst | fltProc | vBend | vBrng | vCut | vDepth | vActive =>
    exact idle_of_onVoice hu hu' hidle ht (by cases sel <;> exact hidle)

end idle

/-! ### A release rate of zero (R160, R173 (d)) -/

/-- A zero divided by a positive value or `+infinity` is a zero. -/
theorem fDiv_zero_of_positive {a b : S} (ha : fIsZero a = true) (hb : notNegativeNorNaN b = true)
    (hz : fIsZero b = false) : fIsZero (fDiv a b) = true := by
  obtain ⟨-, hn⟩ : fSign b = false ∧ fIsNaN b = false := by simpa [notNegativeNorNaN] using hb
  rcases finite_inf_or_nan b with hf | hi | hn'
  · exact fDiv_zero ha hf hz
  · have haf := fFinite_of_fIsZero ha
    have hinf : fDiv a b = fPack (fSign a != fSign b) 0 := by
      simp [fDiv, fIsNaN_of_finite haf, hn, fIsInf_of_finite haf, hi]
    rw [hinf]; cases fSign a != fSign b <;> decide
  · rw [hn] at hn'; cases hn'

/-- A rate of R160 with a zero numerator and a positive time is a zero. -/
theorem envRate_zero {sampleRate : Nat} {num time : S} (hlo : 8000 ≤ sampleRate) (hhi : sampleRate ≤ 16777215)
    (hn : fIsZero num = true) (ht : fFinite time = true) (hpos : fGt time f0 = true) :
    fIsZero (envRate sampleRate num time) = true := by
  have htime : 0 < fInt time := fInt_f0 ▸ (fGt_iff ht fFinite_f0).mp hpos
  have hle : ¬ fLe time f0 = true := by rw [fLe_iff ht fFinite_f0, fInt_f0]; omega
  obtain ⟨hd, hz⟩ := timeSamples_pos hlo hhi ht htime
  rw [envRate, if_neg hle]
  exact fDiv_zero_of_positive hn hd hz

/-- In Release above level 0 and with a zero release rate, a sample changes nothing. -/
theorem envStep_release_of_zero_rate {e : Envelope} (hphase : e.phase = .release) (hlevel : fFinite e.level = true)
    (hpos : fGt e.level f0 = true) (hrate : fIsZero e.relRate = true) : envStep e = e := by
  have habove : 0 < fInt e.level := fInt_f0 ▸ (fGt_iff hlevel fFinite_f0).mp hpos
  have hnz : fIsZero e.level = false := by rw [← Bool.not_eq_true, ← fInt_eq_zero]; omega
  have hle : ¬ fLe e.level f0 = true := by rw [fLe_iff hlevel fFinite_f0, fInt_f0]; omega
  have hsame : fSub e.level e.relRate = e.level := by
    rw [fSub_finite hlevel (fFinite_of_fIsZero hrate)]
    exact addFinite_zero hlevel hnz (by rw [fIsZero_fNeg]; exact hrate)
  rw [envStep_release hphase, hsame, if_neg hle, ← hphase]

end Sys2Proof.Machine

namespace Sys2Proof.Proofs

open Sys2Proof.Machine

/-- Settles O27: `ENV.NEXT` is `env_next`, which is a case split on the phase and, in three of the phases, on the boundary. -/
theorem envelopeNextByPhase : Obligations.EnvelopeNextByPhase := by
  intro s v e sel u he hu env gives
  have of_step : ∀ {level phase}, envStep env = { env with level := level, phase := phase } → gives level phase := by
    intro level phase hstep
    have hcomp := completesWith_of_onEnv (exec_envNext v e s) he hu
    rw [hstep] at hcomp
    exact hcomp
  refine ⟨fun hp => of_step ?_, fun hp hb => of_step ?_, fun hp hb => of_step ?_, fun hp hb => of_step ?_,
    fun hp hb => of_step ?_, fun hp => of_step (envStep_sustain hp), fun hp hb => of_step ?_, fun hp hb => of_step ?_⟩
  · rw [envStep_idle hp, ← hp]
  · rw [envStep_attack hp, if_pos hb]
  · rw [envStep_attack hp, if_neg (Bool.not_eq_true _ ▸ hb)]
  · rw [envStep_decay hp, if_pos hb]
  · rw [envStep_decay hp, if_neg (Bool.not_eq_true _ ▸ hb)]
  · rw [envStep_release hp, if_pos hb]
  · rw [envStep_release hp, if_neg (Bool.not_eq_true _ ▸ hb)]

/-- Settles O28: the triggers are inspected, and every other command leaves an Idle envelope Idle. -/
theorem onlyTriggersLeaveIdle : Obligations.OnlyTriggersLeaveIdle := by
  intro i s t w sel u u' ht hu hu' hidle hleft
  by_cases htrig : ∃ v e, i = .envTrig v e
  · obtain ⟨v, e, rfl⟩ := htrig
    rw [exec_envTrig] at ht
    rcases env_of_onEnv ht hu hu' sel with hsame | ⟨hv, he, henv⟩
    · exact absurd (hsame ▸ hidle) hleft
    · rw [henv]
      exact ⟨rfl, rfl, v, hv, .inl ⟨e, rfl, he⟩⟩
  · by_cases hvtrig : ∃ v f vol, i = .vTrig v f vol
    · obtain ⟨v, f, vol, rfl⟩ := hvtrig
      rcases voice_of_onVoice ht hu hu' with rfl | ⟨hv, rfl⟩
      · exact absurd hidle hleft
      · rw [voiceTrigger_env]
        exact ⟨rfl, rfl, v, hv, .inr ⟨f, vol, rfl⟩⟩
    · exact absurd (idle_of_exec hu hu' hidle (fun v e h => htrig ⟨v, e, h⟩)
        (fun v f vol h => hvtrig ⟨v, f, vol, h⟩) ht) hleft

/-- Settles O29: the release rate is a zero, so one sample, and hence any number, changes nothing. -/
theorem stuckRelease : Obligations.StuckRelease := by
  intro sampleRate e n hlo hhi hinv hsus hrel hphase hlevel
  have hrate : e.relRate = envRate sampleRate e.sus e.rel := congrArg Rates.rel hinv.rates
  have hzero : fIsZero e.relRate = true := hrate ▸ envRate_zero hlo hhi hsus hinv.rel hrel
  have hlevelf := (inUnit_iff.mp hinv.level).1
  exact Function.iterate_fixed (envStep_release_of_zero_rate hphase hlevelf hlevel hzero) n

/-- Settles O26: the two commands are `env_trigger` and `env_release`. -/
theorem envelopeTriggerRelease : Obligations.EnvelopeTriggerRelease := by
  intro s v e sel u he hu
  have hrls := completesWith_of_onEnv (exec_envRls v e s) he hu
  refine ⟨completesWith_of_onEnv (exec_envTrig v e s) he hu, fun hactive => ?_, fun hidle => ?_⟩
  · rw [envRelease_of_active hactive] at hrls
    exact hrls
  · have hself : u.setEnv sel (u.env sel) = u := by cases sel <;> rfl
    rw [envRelease_of_idle hidle, hself] at hrls
    exact hrls

end Sys2Proof.Proofs

/-!
PROOFS. The voice (R190 to R202) and `RENDER` (R228): the commands on one voice unit are its micro-operations, and the
modulated cutoff is the base cutoff times a factor in `[1, 10]`.
-/

namespace Sys2Proof.Machine

/-! ### The release (R191) -/

theorem envRelease_frame (e : Envelope) : envRelease e = { e with phase := (envRelease e).phase } := by
  unfold envRelease
  split <;> rfl

theorem envRelease_idle_iff (e : Envelope) : (envRelease e).phase = .idle ↔ e.phase = .idle := by
  by_cases h : e.phase = .idle
  · rw [envRelease_of_idle h]
  · rw [envRelease_of_active h]
    exact ⟨(fun hr => nomatch hr), fun hi => absurd hi h⟩

theorem voiceIsActive_voiceRelease (u : Voice) : voiceIsActive (voiceRelease u) = voiceIsActive u :=
  decide_eq_decide.mpr (not_congr (envRelease_idle_iff u.amp))

/-! ### Commands with one operand word -/

/-- A voice command whose only check is that its operand word is finite (check 6 of R84) completes for a finite one. -/
theorem completesWith_of_finite {i : Instr} {s : State} {v : BitVec 8} {u : Voice} {x : S}
    {f : Voice → Voice × BitVec 32 × BitVec 32} (hi : exec i s = s.onVoice v (fFinite x) f) (hx : fFinite x = true)
    (hu : s.voice? v = some u) : CompletesWith i s v (f u).1 (f u).2.1 (f u).2.2 :=
  completesWith_of_onVoice (hx ▸ hi) hu

/-! ### The modulated cutoff (R192, R202) -/

/-- A product of two values that are not negative is not negative. -/
theorem fInt_fMul_nonneg {a b : S} (ha : fFinite a = true) (hb : fFinite b = true) (ha0 : 0 ≤ fInt a)
    (hb0 : 0 ≤ fInt b) : 0 ≤ fInt (fMul a b) := by
  by_cases hz : fIsZero a = true ∨ fIsZero b = true
  · rw [(fInt_eq_zero _).mpr (fMul_zero ha hb hz)]
  · rw [← fInt_eq_zero, ← fInt_eq_zero] at hz
    have hsign : fSign (fMul a b) = false := by
      rw [fSign_fMul ha hb, fSign_of_fInt_pos (by omega), fSign_of_fInt_pos (by omega)]; rfl
    rw [fInt_of_not_sign hsign]
    exact Int.natCast_nonneg _

/-- A product of two values in `[0, 1]` is in `[0, 1]`. -/
theorem inUnit_fMul {a b : S} (ha : inUnit a = true) (hb : inUnit b = true) : inUnit (fMul a b) = true := by
  obtain ⟨haf, ha0, ha1⟩ := inUnit_iff.mp ha
  obtain ⟨hbf, hb0, hb1⟩ := inUnit_iff.mp hb
  have hbound : between fNeg1 f1 b = true := between_neg1_f1_iff.mpr ⟨hbf, by rw [← natAbs_fInt]; omega⟩
  obtain ⟨hf, hle⟩ := fUnits_fMul_le haf hbound
  refine inUnit_iff.mpr ⟨hf, fInt_fMul_nonneg haf hbf ha0 hb0, ?_⟩
  rw [← natAbs_fInt, ← natAbs_fInt a] at hle
  omega

/-- The factor of R192 for a modulation `m` in `[0, 1]` is finite and in `[1, 10]` (R202). -/
theorem modulationFactor_bounds {m : S} (hm : inUnit m = true) :
    fFinite (fAdd f1 (fMul m f9)) = true ∧ fInt f1 ≤ fInt (fAdd f1 (fMul m f9)) ∧
      fUnits (fAdd f1 (fMul m f9)) ≤ 10 * 2 ^ 149 := by
  obtain ⟨hmf, hm0, hm1⟩ := inUnit_iff.mp hm
  have h9 : fFinite f9 = true := by decide
  have hprod0 := fInt_fMul_nonneg hmf h9 hm0 (by decide)
  obtain ⟨hprodf, hprod⟩ := fUnits_fMul_le h9 (between_neg1_f1_iff.mpr ⟨hmf, by rw [← natAbs_fInt]; omega⟩)
  rw [← fMul_comm_of_finite hmf h9] at hprodf hprod
  rw [show fUnits f9 = 9 * 2 ^ 149 by decide, ← natAbs_fInt] at hprod
  obtain ⟨hsumf, hsum⟩ := addFinite_bound (a := f1) (b := fMul m f9) (mag := 0x41200000) (by decide) (by
    rw [show magUnits 0x41200000 = 10 * 2 ^ 149 by decide, fInt_f1]; omega)
  rw [← fAdd_finite fFinite_f1 hprodf] at hsumf hsum
  refine ⟨hsumf, le_fInt_fAdd fFinite_f1 hprodf fFinite_f1 hsumf (by decide) (by omega), ?_⟩
  exact ((magUnits_mono ((fFinite_iff _).mp hsumf) (by decide)).mpr hsum).trans (by decide)

/-- A positive value times a factor at least 1, where the product is finite, is not below it: multiplication is monotone
and `x * 1 = x`. -/
theorem le_fMul_of_one_le {x y : S} (hx : fFinite x = true) (hs : fSign x = false) (hy : fFinite y = true)
    (hy1 : fInt f1 ≤ fInt y) (hprod : fFinite (fMul x y) = true) : fLe x (fMul x y) = true := by
  have hys : fSign y = false := fSign_of_fInt_pos (lt_of_lt_of_le (by decide) hy1)
  have hsign : fSign (fMul x y) = false := by rw [fSign_fMul hx hy, hs, hys]; rfl
  have hmag : fMag x ≤ fMag (fMul x y) := by
    have hunits : fUnits f1 ≤ fUnits y := by
      rw [fInt_of_not_sign hys, fInt_of_not_sign (by decide)] at hy1
      exact_mod_cast hy1
    have hmono := fMag_fMul_mono hx fFinite_f1 hy hunits
    rwa [fMul_one hx] at hmono
  exact fLe_of_fMag_le hx hprod hs hsign hmag

/-- A cutoff in its range times the factor of R192 is finite: the one is at most `2^24`, the other at most 10. -/
theorem fFinite_cutoff_fMul {sampleRate : Nat} {cutoff y : S} (hlo : 8000 ≤ sampleRate)
    (hhi : sampleRate ≤ 16777215) (hc : between cutMin (cutMax sampleRate) cutoff = true) (hy : fFinite y = true)
    (hy10 : fUnits y ≤ 10 * 2 ^ 149) :
    fFinite (fMul cutoff y) = true := by
  obtain ⟨-, -, -, hsrf⟩ := srf_bounds hlo hhi
  obtain ⟨hmaxf, hmax⟩ := cutMax_bounds hlo hhi
  obtain ⟨hcf, -, hcmax⟩ := cutoff_bounds hmaxf hc
  have hc24 : fUnits cutoff ≤ 2 ^ 173 := by omega
  refine (fMul_bound (mag := 0x4D800000) hcf hy (by decide) ?_).1
  rw [show magUnits 0x4D800000 * 2 ^ 149 = 2 ^ 173 * 2 ^ 153 by decide]
  exact Nat.mul_le_mul hc24 (hy10.trans (by decide))

end Sys2Proof.Machine

namespace Sys2Proof.Proofs

open Sys2Proof.Machine

/-- Settles O30: the command is `voice_trigger`, and its check on the frequency is check 7 of R84. -/
theorem voiceTriggerResult : Obligations.VoiceTriggerResult := by
  intro s v u f vol hu hf hvol
  have hcheck : (fFinite f && fFinite vol && fGt f f0) = fGt f f0 := by rw [hf, hvol]; rfl
  refine ⟨fun hpos => ⟨?_, clamp_inUnit hvol⟩, fun hneg => ?_⟩
  · exact completesWith_of_onVoice (i := .vTrig v f vol) (f := fun u => (voiceTrigger u f vol, 0, 0))
      (by rw [← hcheck.trans hpos]; rfl) hu
  · exact State.onVoice_illegal (.inr (hcheck.trans hneg)) _

/-- Settles O31: the command is `voice_release`, which is `env_release` on each envelope. -/
theorem voiceReleaseResult : Obligations.VoiceReleaseResult := by
  intro s v u hu
  refine ⟨voiceRelease u, completesWith_of_onVoice (i := .vRls v) rfl hu, ?_, (envRelease_idle_iff u.amp).mpr,
    fun h => congrArg Envelope.phase (envRelease_of_active h), (envRelease_idle_iff u.feg).mpr,
    fun h => congrArg Envelope.phase (envRelease_of_active h), voiceIsActive_voiceRelease u⟩
  exact congrArg₂ (fun amp feg => { u with amp := amp, feg := feg }) (envRelease_frame u.amp) (envRelease_frame u.feg)

/-- Settles O33: each command has one check, that its operand is finite, and each range has its ends in order. -/
theorem voiceParametersClamped : Obligations.VoiceParametersClamped := by
  intro s v u x hlegal hu hx
  obtain ⟨hmaxf, hmax⟩ := cutMin_le_cutMax hlegal.rateLow hlegal.rateHigh
  exact ⟨completesWith_of_finite (i := .vBend v x) rfl hx hu, completesWith_of_finite (i := .vBrng v x) rfl hx hu,
    completesWith_of_finite (i := .vCut v x) rfl hx hu, completesWith_of_finite (i := .vDepth v x) rfl hx hu,
    clamp_between hx (by decide) fFinite_f1 (by decide), clamp_between hx (by decide) hmaxf hmax, clamp_inUnit hx⟩

/-- Settles O35: the factor on the base cutoff is at least 1, roundings included, and the product does not overflow. -/
theorem modulationUpwardOnly : Obligations.ModulationUpwardOnly := by
  intro num sampleRate u e hlo hhi hu he
  obtain ⟨hcf, hcs, -⟩ := cutoff_bounds (cutMax_bounds hlo hhi).1 hu.baseCutoff
  obtain ⟨hff, hf1, hf10⟩ := modulationFactor_bounds (inUnit_fMul he hu.fegDepth)
  have hfin := fFinite_cutoff_fMul hlo hhi hu.baseCutoff hff hf10
  exact ⟨hfin, le_fMul_of_one_le hcf hcs hff hf1 hfin⟩

/-- Settles O41: the loop of `RENDER` is the map of the sample over the voices and the sum of the samples in order. -/
theorem renderSumsVoices : Obligations.RenderSumsVoices := by
  intro s num sampleRate frame r
  rw [execRender_eq, State.rendered, renderVoices_eq]
  rfl

end Sys2Proof.Proofs

/-!
PROOFS. The output unit (R220 to R227): its commands, and the bound on WaveFold. In the fold the quarter, the floor and the
multiple of 4 are exact, so only differences are rounded, and rounding takes none of them past an end of its range.
-/

namespace Sys2Proof.Machine

/-! ### Commands -/

theorem execOpAlgo_of_ofCode? {index : BitVec 8} {a : Algo} (h : Algo.ofCode? index = some a) (s : State) :
    execOpAlgo index s =
      .next ({ s with op := { s.op with algo := a, pf := fltReset s.op.pf } }.respond 0 0) := by
  unfold execOpAlgo; rw [h]

theorem execOpDrive_of_finite {drive : S} (h : fFinite drive = true) (s : State) :
    execOpDrive drive s = .next ({ s with op := { s.op with drive := clamp drive f0 f1 } }.respond 0 0) := if_pos h

theorem execOpProc_of_finite {x : S} (h : fFinite x = true) (s : State) :
    execOpProc x s =
      .next ({ s with op := (opProcess NumFns.machine s.params.sampleRate s.op x).1 }.respond
        (opProcess NumFns.machine s.params.sampleRate s.op x).2 0) := if_pos h

/-- The mute and the choice of the transfer function (R224) as one chain of tests. -/
theorem shapeSample_eq (num : NumFns) (algo : Algo) (drive x : S) :
    shapeSample num algo drive x =
      if fFinite (fMul (opGain num drive) x) = false then f0
      else if algo = .tanhClip then num.tanh (fMul (opGain num drive) x)
      else if algo = .waveFold then waveFold (fMul (opGain num drive) x)
      else num.sin (fMul fHalfPi (fMul (opGain num drive) x)) := by
  unfold shapeSample
  dsimp only
  generalize fMul (opGain num drive) x = u
  cases fFinite u with
  | false => rfl
  | true => cases algo <;> rfl

/-! ### Values that need no rounding -/

/-- A number of units of 2^-149 that is the value of a finite magnitude. -/
def IsMagnitude (n : Nat) : Prop := ∃ mag, mag < infMag ∧ magUnits mag = n

theorem isMagnitude_fUnits {x : S} (hx : fFinite x = true) : IsMagnitude (fUnits x) :=
  ⟨fMag x, (fFinite_iff x).mp hx, rfl⟩

theorem IsMagnitude.roundMag_exact {m n d : Nat} (hm : IsMagnitude m) (hd : 0 < d) (h : n = m * d) :
    roundMag n d < infMag ∧ magUnits (roundMag n d) = m := by
  obtain ⟨mag, hmag, rfl⟩ := hm
  rw [roundMag_eq hd hmag h]
  exact ⟨hmag, rfl⟩

/-- A finite value is a significand of at most 24 bits times a power of two. -/
theorem fUnits_eq_significand {x : S} (hx : fFinite x = true) :
    ∃ k j, k < 2 ^ 24 ∧ j ≤ 253 ∧ fUnits x = k * 2 ^ j := by
  have hmag : fMag x < 255 * 2 ^ 23 := (fFinite_iff x).mp hx
  unfold fUnits magUnits
  split
  · exact ⟨fMag x, 0, by omega, by omega, by omega⟩
  · exact ⟨_, _, by omega, by omega, rfl⟩

theorem fInt_fMul_exact {a b : S} {m : Nat} (ha : fFinite a = true) (hb : fFinite b = true) (hs : fSign a = false)
    (hm : IsMagnitude m) (h : fUnits a * fUnits b = m * 2 ^ 149) :
    fFinite (fMul a b) = true ∧ fInt (fMul a b) = if fSign b then -(m : Int) else (m : Int) := by
  obtain ⟨hmag, hunits⟩ := hm.roundMag_exact (Nat.two_pow_pos 149) h
  rw [fMul_finite ha hb, fInt_fPack _ _ (hmag.trans infMag_lt), hunits, hs, Bool.false_bne]
  exact ⟨fFinite_fPack _ _ hmag, rfl⟩

theorem fInt_fDiv_exact {a b : S} {m : Nat} (ha : fFinite a = true) (hb : fFinite b = true) (hs : fSign b = false)
    (hpos : 0 < fUnits b) (hm : IsMagnitude m) (h : fUnits a * 2 ^ 149 = m * fUnits b) :
    fFinite (fDiv a b) = true ∧ fInt (fDiv a b) = if fSign a then -(m : Int) else (m : Int) := by
  obtain ⟨hmag, hunits⟩ := hm.roundMag_exact hpos h
  rw [fDiv_finite ha hb (fIsZero_eq_false_of_fUnits_pos hpos), fInt_fPack _ _ (hmag.trans infMag_lt), hunits, hs,
    Bool.bne_false]
  exact ⟨fFinite_fPack _ _ hmag, rfl⟩

theorem fInt_fOfInt_exact {z : Int} (h : IsMagnitude (z.natAbs * 2 ^ 149)) :
    fFinite (fOfInt z) = true ∧ fInt (fOfInt z) = z * 2 ^ 149 := by
  obtain ⟨hmag, hunits⟩ := h.roundMag_exact one_pos (Nat.mul_one _).symm
  unfold fOfInt
  rw [fInt_fPack _ _ (hmag.trans infMag_lt), hunits]
  refine ⟨fFinite_fPack _ _ hmag, ?_⟩
  simp only [decide_eq_true_eq]
  split <;> omega

/-- A finite value is below `2^23` in magnitude, or it has no fraction bits. -/
theorem floorInt_small_or_whole {x : S} (hx : fFinite x = true) :
    (floorInt x).natAbs ≤ 2 ^ 23 ∨ floorInt x * 2 ^ 149 = fInt x := by
  obtain ⟨k, j, hk, -, hunits⟩ := fUnits_eq_significand hx
  unfold floorInt
  rw [← natAbs_fInt] at hunits
  rcases Nat.lt_or_ge j 149 with hj | hj
  · left
    have hle : (fInt x).natAbs ≤ 2 ^ 24 * 2 ^ 148 :=
      hunits ▸ Nat.mul_le_mul hk.le (Nat.pow_le_pow_right two_pos (by omega))
    omega
  · right
    obtain ⟨c, hc⟩ := (pow_dvd_pow 2 hj).mul_left k
    omega

/-- The floor of a finite value is exact. -/
theorem fInt_fFloor {x : S} (hx : fFinite x = true) :
    fFinite (fFloor x) = true ∧ fInt (fFloor x) = floorInt x * 2 ^ 149 := by
  unfold fFloor
  cases hz : fIsZero x with
  | true =>
    have h0 := (fInt_eq_zero x).mpr hz
    exact ⟨hx, by rw [Bool.true_or, if_pos rfl, floorInt, h0]; rfl⟩
  | false =>
    rw [hx, if_neg (by decide)]
    refine fInt_fOfInt_exact ?_
    rcases floorInt_small_or_whole hx with h | h
    · exact exists_mag_of_significand (h.trans (by decide)) (by decide)
    · have hu : (floorInt x).natAbs * 2 ^ 149 = fUnits x := by rw [← natAbs_fInt, ← h, Int.natAbs_mul]; rfl
      exact hu ▸ isMagnitude_fUnits hx

/-! ### Ranges -/

theorem natAbs_fOrd (x : S) : (fOrd x).natAbs = fMag x := by
  unfold fOrd
  split
  · rw [Int.natAbs_neg, Int.natAbs_natCast]
  · exact Int.natAbs_natCast _

theorem fFinite_of_fLe {lo hi x : S} (hl : fFinite lo = true) (hh : fFinite hi = true) (h1 : fLe lo x = true)
    (h2 : fLe x hi = true) : fFinite x = true := by
  have hlo := (fLe_eq_true.mp h1).2.2
  have hhi := (fLe_eq_true.mp h2).2.2
  rw [fFinite_iff, ← natAbs_fOrd] at hl hh ⊢
  omega

/-- A difference that lies between two finite values before rounding lies between them after it. -/
theorem between_fSub {a b lo hi : S} (ha : fFinite a = true) (hb : fFinite b = true) (hl : fFinite lo = true)
    (hh : fFinite hi = true) (h1 : fInt lo ≤ fInt a - fInt b) (h2 : fInt a - fInt b ≤ fInt hi) :
    between lo hi (fSub a b) = true := by
  have hle : fLe lo (fSub a b) = true := by
    rw [fSub_finite ha hb]; exact fLe_addFinite_right hl (by rw [fInt_fNeg]; omega)
  have hge : fLe (fSub a b) hi = true := by
    rw [fSub_finite ha hb]; exact fLe_addFinite_left hh (by rw [fInt_fNeg]; omega)
  simp [between, fFinite_of_fLe hl hh hle hge, hle, hge]

/-! ### The fold (R222) -/

/-- `u - 1` does not overflow: the largest value plus 1 rounds to the largest value. -/
theorem fFinite_fSub_f1 {u : S} (hu : fFinite u = true) : fFinite (fSub u f1) = true := by
  have hmax : fUnits u ≤ magUnits 0x7F7FFFFF :=
    (magUnits_mono ((fFinite_iff u).mp hu) (by decide)).mpr (Nat.le_pred_of_lt ((fFinite_iff u).mp hu))
  have hz : (fInt u + fInt (fNeg f1)).natAbs ≤ magUnits 0x7F7FFFFF + 2 ^ 149 := by
    refine (Int.natAbs_add_le _ _).trans ?_
    rw [natAbs_fInt, natAbs_fInt, fUnits_fNeg]
    exact Nat.add_le_add hmax (by decide)
  have hround : roundMag (fInt u + fInt (fNeg f1)).natAbs 1 ≤ 0x7F7FFFFF :=
    (roundMag_mono (n2 := magUnits 0x7F7FFFFF + 2 ^ 149) one_pos one_pos (Nat.mul_le_mul_right _ hz)).trans (by decide)
  rw [fSub_finite hu fFinite_f1, addFinite_eq]
  exact fFinite_fPack _ _ (hround.trans_lt (by decide))

/-- `u - 1` is a zero or not tiny: near 1 the values are `2^-24` apart, far more than `2^25` units. -/
theorem fSub_f1_not_tiny {u : S} (hu : fFinite u = true) :
    fUnits (fSub u f1) = 0 ∨ 2 ^ 25 ≤ fUnits (fSub u f1) := by
  have hlt := (roundMag_le_inf (fInt u + fInt (fNeg f1)).natAbs 1).trans_lt infMag_lt
  have hmag : fMag (fSub u f1) = roundMag (fInt u + fInt (fNeg f1)).natAbs 1 := by
    rw [fSub_finite hu fFinite_f1, addFinite_eq, fMag_fPack _ _ hlt]
  have hdiff : fInt u + fInt (fNeg f1) = fInt u - 2 ^ 149 := by rw [fInt_fNeg, fInt_f1]; rfl
  rcases Nat.lt_or_ge (fInt u + fInt (fNeg f1)).natAbs (2 ^ 25) with hnear | hfar
  · left
    obtain ⟨k, j, hk, -, hunits⟩ := fUnits_eq_significand hu
    have hpos := fInt_of_not_sign (fSign_of_fInt_pos (x := u) (by omega))
    have hj : 125 ≤ j := by
      by_contra hj
      have : k * 2 ^ j ≤ 2 ^ 24 * 2 ^ 124 := Nat.mul_le_mul hk.le (Nat.pow_le_pow_right two_pos (by omega))
      omega
    obtain ⟨c, hc⟩ := (pow_dvd_pow 2 hj).mul_left k
    have hzero : fInt u + fInt (fNeg f1) = 0 := by omega
    rw [fUnits, hmag, hzero, Int.natAbs_zero, roundMag_zero _ one_pos, magUnits_eq_zero]
  · right
    have hle : 0x01800000 ≤ fMag (fSub u f1) := by
      rw [hmag]
      refine le_roundMag one_pos (by decide) ?_
      rw [Nat.mul_one, show magUnits 0x01800000 = 2 ^ 25 by decide]; exact hfar
    calc 2 ^ 25 = magUnits 0x01800000 := by decide
      _ ≤ fUnits (fSub u f1) := (magUnits_mono (by decide) ((fFinite_iff _).mp (fFinite_fSub_f1 hu))).mpr hle

/-- A quarter of a value that is a zero or not tiny is exact. -/
theorem fInt_fDiv_f4 {d : S} (hd : fFinite d = true) (htiny : fUnits d = 0 ∨ 2 ^ 25 ≤ fUnits d) :
    fFinite (fDiv d f4) = true ∧ 4 * fInt (fDiv d f4) = fInt d := by
  obtain ⟨m, hm, hunits⟩ : ∃ m, IsMagnitude m ∧ fUnits d = 4 * m := by
    rcases htiny with h0 | hbig
    · exact ⟨0, ⟨0, by decide, rfl⟩, h0⟩
    · obtain ⟨k, j, hk, hj, hunits⟩ := fUnits_eq_significand hd
      have hj2 : 2 ≤ j := by
        by_contra hj2
        have : k * 2 ^ j ≤ k * 2 ^ 1 := Nat.mul_le_mul_left _ (Nat.pow_le_pow_right two_pos (by omega))
        omega
      obtain ⟨i, rfl⟩ := Nat.exists_eq_add_of_le hj2
      exact ⟨k * 2 ^ i, exists_mag_of_significand hk.le (by omega), by rw [hunits, pow_add]; ring⟩
  have h4 : fUnits f4 = 4 * 2 ^ 149 := by decide
  obtain ⟨hf, hint⟩ := fInt_fDiv_exact (b := f4) hd (by decide) (by decide) (by rw [h4]; decide) hm
    (by rw [hunits, h4]; ring)
  refine ⟨hf, ?_⟩
  rw [hint, fInt, hunits]
  split <;> push_cast <;> ring

/-- The multiple of 4 that the fold subtracts is the greatest one not above `d`, exactly. -/
theorem fInt_fourTimesFloor {d : S} (hd : fFinite d = true) (htiny : fUnits d = 0 ∨ 2 ^ 25 ≤ fUnits d) :
    fFinite (fMul f4 (fFloor (fDiv d f4))) = true ∧
      fInt (fMul f4 (fFloor (fDiv d f4))) = 4 * floorInt (fDiv d f4) * 2 ^ 149 := by
  obtain ⟨hpf, hp⟩ := fInt_fDiv_f4 hd htiny
  obtain ⟨hqf, hq⟩ := fInt_fFloor hpf
  have hqu : fUnits (fFloor (fDiv d f4)) = (floorInt (fDiv d f4)).natAbs * 2 ^ 149 := by
    rw [← natAbs_fInt, hq, Int.natAbs_mul]; rfl
  have hmag : IsMagnitude (4 * fUnits (fFloor (fDiv d f4))) := by
    rcases floorInt_small_or_whole hpf with h | h
    · rw [hqu, show ∀ n, 4 * (n * 2 ^ 149) = n * 2 ^ 151 by intro n; ring]
      exact exists_mag_of_significand (h.trans (by decide)) (by decide)
    · have hu : 4 * fUnits (fFloor (fDiv d f4)) = fUnits d := by
        rw [← natAbs_fInt, ← natAbs_fInt, hq, h, ← hp, Int.natAbs_mul]; rfl
      exact hu ▸ isMagnitude_fUnits hd
  obtain ⟨hf, hint⟩ := fInt_fMul_exact (a := f4) (by decide) hqf (by decide) hmag
    (by rw [show fUnits f4 = 4 * 2 ^ 149 by decide]; ring)
  refine ⟨hf, hint.trans ?_⟩
  rw [mul_assoc, ← hq, fInt]
  split <;> push_cast <;> ring

/-- The remainder of the fold is in `[0, 4]`; a tiny negative `d` gives 4 by rounding. -/
theorem foldRemainder_between {d : S} (hd : fFinite d = true) (htiny : fUnits d = 0 ∨ 2 ^ 25 ≤ fUnits d) :
    between f0 f4 (fSub d (fMul f4 (fFloor (fDiv d f4)))) = true := by
  obtain ⟨-, hp⟩ := fInt_fDiv_f4 hd htiny
  obtain ⟨htf, ht⟩ := fInt_fourTimesFloor hd htiny
  rw [floorInt] at ht
  have h4 : fInt f4 = 4 * 2 ^ 149 := by decide
  refine between_fSub hd htf fFinite_f0 (by decide) ?_ ?_
  · rw [fInt_f0]; omega
  · rw [h4]; omega

/-- `abs(r - 2) - 1` of a remainder in `[0, 4]` is in `[-1, 1]`. -/
theorem foldTriangle_between {r : S} (hr : between f0 f4 r = true) :
    between fNeg1 f1 (fSub (fAbs (fSub r f2)) f1) = true := by
  have hf2 : fFinite f2 = true := by decide
  have hfNeg2 : fFinite fNeg2 = true := by decide
  have hi2 : fInt f2 = 2 * 2 ^ 149 := by decide
  have hiNeg2 : fInt fNeg2 = -(2 * 2 ^ 149) := by decide
  obtain ⟨hrf, h0, h4⟩ := (between_iff fFinite_f0 (by decide)).mp hr
  rw [fInt_f0] at h0
  rw [show fInt f4 = 4 * 2 ^ 149 by decide] at h4
  obtain ⟨hwf, hlo, hhi⟩ := (between_iff hfNeg2 hf2).mp
    (between_fSub hrf hf2 hfNeg2 hf2 (by rw [hi2, hiNeg2]; omega) (by rw [hi2]; omega))
  have habs : fInt (fAbs (fSub r f2)) ≤ 2 * 2 ^ 149 := by
    rw [fInt_fAbs, ← natAbs_fInt]; omega
  have hnonneg : 0 ≤ fInt (fAbs (fSub r f2)) := by rw [fInt_fAbs]; exact Int.natCast_nonneg _
  exact between_fSub (by simpa using hwf) fFinite_f1 (by decide) fFinite_f1 (by rw [fInt_fNeg1, fInt_f1]; omega)
    (by rw [fInt_f1]; omega)

theorem waveFold_between {u : S} (hu : fFinite u = true) : between fNeg1 f1 (waveFold u) = true :=
  foldTriangle_between (foldRemainder_between (fFinite_fSub_f1 hu) (fSub_f1_not_tiny hu))

end Sys2Proof.Machine

namespace Sys2Proof.Proofs

open Sys2Proof.Machine

/-- Settles O38: `OP.PROC` is `op_process`, with the gain and WaveFold written out. -/
theorem opProcResult : Obligations.OpProcResult := by
  intro s x hx num u d folded shaped r
  have hshaped : shapeSample num s.op.algo s.op.drive x = shaped := shapeSample_eq num s.op.algo s.op.drive x
  change execOpProc x s = _
  rw [execOpProc_of_finite hx, opProcess, hshaped]
  rfl

/-- Settles O39: the remainder of the fold is in `[0, 4]` before and after rounding, and each later step keeps its range. -/
theorem waveFoldBounded : Obligations.WaveFoldBounded :=
  ⟨fun _ hu => waveFold_between hu, by decide, by decide⟩

/-- Settles O37: each legal index names an algorithm, and the clamp of a finite drive is in `[0, 1]`. -/
theorem outputParameters : Obligations.OutputParameters := by
  intro s
  refine ⟨fun index a ha => ?_, fun index hindex => ?_, rfl, rfl, rfl, fun drive hdrive => ⟨clamp_inUnit hdrive, ?_⟩⟩
  · exact execOpAlgo_of_ofCode? ha s
  · exact execOpAlgo_illegal (by omega) s
  · exact execOpDrive_of_finite hdrive s

end Sys2Proof.Proofs

/-!
PROOFS. The system commands (R250, R251): an opcode whose row uses no field has one legal header, and a status register
with zero reserved bits is its `ILL` bit.
-/

namespace Sys2Proof

/-- Where the row of an opcode uses neither `v` nor `u`, the only legal header is the opcode with every other bit zero. -/
theorem decode_illegal_of_ne_header {c : Command} {op : BitVec 8} {row : OpcodeRow} (hop : c.opField = op)
    (hrow : opcodeRow op = some row) (hv : row.usesV = false) (hu : row.usesU = false) (hne : c.w0 ≠ header op 0 0) :
    ∃ why, decode c = .illegal why := by
  cases hd : decode c with
  | illegal why => exact ⟨why, rfl⟩
  | command i =>
    obtain ⟨row', hrow', ⟨hrsv, hv0, hu0⟩, -⟩ := decode_eq_command_iff.mp hd
    obtain rfl : row = row' := Option.some.inj (by rw [← hrow, ← hop, hrow'])
    exact absurd (w0_eq_header_iff.mpr ⟨hop, hv0 hv, hu0 hu, hrsv⟩) hne

end Sys2Proof

namespace Sys2Proof.Machine

theorem status_eq_illFlag {status : BitVec 32} (h : statusReservedZero status) :
    status = if illFlag status then 1 else 0 := by
  refine BitVec.eq_of_getLsbD_eq fun k _ => ?_
  by_cases hk : k = 0
  · subst hk
    cases hill : illFlag status <;> exact hill
  · rw [h k (Nat.pos_of_ne_zero hk)]
    split <;> simp [hk]

end Sys2Proof.Machine

namespace Sys2Proof.Proofs

open Sys2Proof.Machine

/-- Settles O9: the headers are those of `encode`, both rows use no field, and neither command writes but its response. -/
theorem systemCommands : Obligations.SystemCommands := by
  refine ⟨fun c h => ?_, fun c hop hne => ?_, fun c h => ?_, fun c hop hne => ?_, fun _ => rfl, fun _ => rfl,
    fun _ => status_eq_illFlag⟩
  · exact decode_congr (decode_encode .nop) h nofun nofun
  · exact decode_illegal_of_ne_header hop rfl rfl rfl hne
  · exact decode_congr (decode_encode .statusRd) h nofun nofun
  · exact decode_illegal_of_ne_header hop rfl rfl rfl hne

end Sys2Proof.Proofs

/-!
PROOFS. The MIDI decoder (R260 to R266): one equation per kind of byte, what a status byte leaves behind whatever stood before
it, and the streams of R278.
-/

namespace Sys2Proof.Machine

/-! ### One byte -/

section process
variable {channel : Nat} {d : Decoder} {b : Byte}

theorem process_of_realTime (h : 0xF8 ≤ b.toNat) : d.process channel b = (d, none) := if_pos h

theorem process_of_status (hlo : 0x80 ≤ b.toNat) (hhi : b.toNat < 0xF8) :
    d.process channel b = (d.status channel b, none) := by
  rw [Decoder.process, if_neg (by omega), if_pos hlo]

theorem process_of_initial (hb : b.toNat < 0x80) (hd : d.state = .initial) : d.process channel b = (d, none) := by
  rw [Decoder.process, if_neg (by omega), if_neg (by omega), hd]

theorem process_of_need2Bytes (hb : b.toNat < 0x80) (hd : d.state = .need2Bytes) :
    d.process channel b = ({ d with byte1 := b, state := .need1Byte }, none) := by
  rw [Decoder.process, if_neg (by omega), if_neg (by omega), hd]

theorem process_of_need1Byte {c : MidiCommand} (hb : b.toNat < 0x80) (hd : d.state = .need1Byte) (hc : d.cmd = some c) :
    d.process channel b = ({ d with state := c.waiting }, some ⟨c, d.byte1, b⟩) := by
  rw [Decoder.process, if_neg (by omega), if_neg (by omega), hd, hc]

theorem process_of_need1Byte_none (hb : b.toNat < 0x80) (hd : d.state = .need1Byte) (hc : d.cmd = none) :
    d.process channel b = (d, none) := by
  rw [Decoder.process, if_neg (by omega), if_neg (by omega), hd, hc]

end process

/-! ### Status bytes (R263) -/

theorem waiting_ne_initial (c : MidiCommand) : c.waiting ≠ .initial := by cases c <;> decide

theorem waiting_of_oneDataByte {c : MidiCommand} (h : c = .programChange ∨ c = .channelPressure) :
    c.waiting = .need1Byte := by
  rcases h with rfl | rfl <;> rfl

theorem waiting_of_twoDataBytes {c : MidiCommand} (hp : c ≠ .programChange) (hc : c ≠ .channelPressure) :
    c.waiting = .need2Bytes := by
  cases c with
  | programChange => exact absurd rfl hp
  | channelPressure => exact absurd rfl hc
  | noteOff | noteOn | polyAftertouch | controlChange | pitchBend => rfl

theorem ofNibble_bounds {n : Nat} {c : MidiCommand} (h : MidiCommand.ofNibble n = some c) : 8 ≤ n ∧ n ≤ 14 := by
  unfold MidiCommand.ofNibble at h
  split at h
  case h_8 => cases h
  all_goals omega

theorem status_of_other_channel {channel : Nat} {b : Byte} (h : b.toNat % 16 ≠ channel) (d : Decoder) :
    d.status channel b = { d with state := .initial, cmd := none } := if_pos h

theorem status_of_no_command {b : Byte} (h : MidiCommand.ofNibble (b.toNat / 16) = none) (channel : Nat) (d : Decoder) :
    d.status channel b = { d with state := .initial, cmd := none } := by
  unfold Decoder.status
  split
  · rfl
  · rw [h]

theorem status_of_command {channel : Nat} {b : Byte} {c : MidiCommand} (hch : b.toNat % 16 = channel)
    (hc : MidiCommand.ofNibble (b.toNat / 16) = some c) (d : Decoder) :
    d.status channel b = { d with state := c.waiting, cmd := some c } := by
  unfold Decoder.status
  rw [if_neg (not_not.mpr hch), hc]

theorem status_of_ignored {channel : Nat} {b : Byte} (h : b.toNat % 16 ≠ channel ∨ 0xF0 ≤ b.toNat) (d : Decoder) :
    d.status channel b = { d with state := .initial, cmd := none } := by
  rcases h with hch | hsys
  · exact status_of_other_channel hch d
  · refine status_of_no_command (Option.eq_none_iff_forall_ne_some.mpr fun c hc => ?_) channel d
    have := ofNibble_bounds hc
    omega

/-- What a status byte makes of the decoder depends on the byte alone: it selects a command or none. -/
theorem status_cases (channel : Nat) (b : Byte) :
    (∃ c : MidiCommand, ∀ d : Decoder, d.status channel b = { d with state := c.waiting, cmd := some c }) ∨
    ∀ d : Decoder, d.status channel b = { d with state := .initial, cmd := none } := by
  by_cases hch : b.toNat % 16 = channel
  · cases hc : MidiCommand.ofNibble (b.toNat / 16) with
    | some c => exact .inl ⟨c, status_of_command hch hc⟩
    | none => exact .inr (status_of_no_command hc channel)
  · exact .inr (status_of_other_channel hch)

/-- The status byte of a command on the listen channel. -/
theorem process_statusByte {channel nibble : Nat} {c : MidiCommand} (hch : channel ≤ 15)
    (hc : MidiCommand.ofNibble nibble = some c) (d : Decoder) :
    d.process channel (BitVec.ofNat 8 (16 * nibble + channel)) = ({ d with state := c.waiting, cmd := some c }, none) := by
  obtain ⟨hlo, hhi⟩ := ofNibble_bounds hc
  have hb : (BitVec.ofNat 8 (16 * nibble + channel)).toNat = 16 * nibble + channel := by
    rw [BitVec.toNat_ofNat]; omega
  have hnibble : (BitVec.ofNat 8 (16 * nibble + channel)).toNat / 16 = nibble := by omega
  rw [process_of_status (by omega) (by omega), status_of_command (by omega) (hnibble ▸ hc)]

/-! ### The decoder's invariant (R263, R264, R265) -/

/-- A byte keeps the decoder's invariant, and `byte1` of the message it completes is a data byte. -/
theorem Decoder.Inv.process {d : Decoder} (h : d.Inv) (channel : Nat) (b : Byte) :
    (d.process channel b).1.Inv ∧ ∀ m ∈ (d.process channel b).2, m.byte1.toNat < 128 := by
  rcases lt_or_ge b.toNat 0x80 with hb | hb
  · cases hs : d.state with
    | initial => rw [process_of_initial hb hs]; exact ⟨h, nofun⟩
    | need2Bytes =>
      rw [process_of_need2Bytes hb hs]
      exact ⟨⟨fun _ => h.waiting (by simp [hs]), hb⟩, nofun⟩
    | need1Byte =>
      obtain ⟨c, hc⟩ := Option.ne_none_iff_exists'.mp (h.waiting (by simp [hs]))
      rw [process_of_need1Byte hb hs hc]
      exact ⟨⟨fun _ => by simp [hc], h.byte1⟩, fun m hm => by cases hm; exact h.byte1⟩
  · rcases lt_or_ge b.toNat 0xF8 with hb' | hb'
    · rw [process_of_status hb hb']
      rcases status_cases channel b with ⟨c, hst⟩ | hst <;> rw [hst]
      · exact ⟨⟨nofun, h.byte1⟩, nofun⟩
      · exact ⟨⟨fun hne => absurd rfl hne, h.byte1⟩, nofun⟩
    · rw [process_of_realTime hb']; exact ⟨h, nofun⟩

/-! ### Streams -/

theorem processAll_cons (channel : Nat) (d : Decoder) (b : Byte) (bs : List Byte) :
    d.processAll channel (b :: bs) =
      (((d.process channel b).1.processAll channel bs).1,
        (d.process channel b).2.toList ++ ((d.process channel b).1.processAll channel bs).2) := rfl

/-- A byte that completes no message. -/
theorem processAll_cons_of_none {channel : Nat} {d d' : Decoder} {b : Byte} (h : d.process channel b = (d', none))
    (bs : List Byte) : d.processAll channel (b :: bs) = d'.processAll channel bs := by
  rw [processAll_cons, h]; rfl

/-- A byte that completes a message. -/
theorem processAll_cons_of_some {channel : Nat} {d d' : Decoder} {b : Byte} {m : MidiMessage}
    (h : d.process channel b = (d', some m)) (bs : List Byte) :
    d.processAll channel (b :: bs) = ((d'.processAll channel bs).1, m :: (d'.processAll channel bs).2) := by
  rw [processAll_cons, h]; rfl

/-- In `Initial` data bytes are ignored (R266). -/
theorem processAll_of_initial {channel : Nat} {d : Decoder} (hd : d.state = .initial) {bs : List Byte}
    (hbs : ∀ b ∈ bs, b.toNat < 0x80) : d.processAll channel bs = (d, []) := by
  induction bs with
  | nil => rfl
  | cons b bs ih =>
    obtain ⟨hb, hbs⟩ := List.forall_mem_cons.mp hbs
    rw [processAll_cons_of_none (process_of_initial hb hd), ih hbs]

/-- With a one-data-byte command current, every data byte is a message and the decoder waits for the next (R265, R278 (a)). -/
theorem processAll_oneDataByte {channel : Nat} {c : MidiCommand} (hw : c.waiting = .need1Byte) {bs : List Byte}
    (hbs : ∀ b ∈ bs, b.toNat < 0x80) {d : Decoder} (hd : d.state = .need1Byte) (hc : d.cmd = some c) :
    ((d.processAll channel bs).2.map fun m => (m.cmd, m.byte2)) = bs.map (fun b => (c, b)) ∧
      (d.processAll channel bs).1.state = .need1Byte := by
  induction bs generalizing d with
  | nil => exact ⟨rfl, hd⟩
  | cons b bs ih =>
    obtain ⟨hb, hbs⟩ := List.forall_mem_cons.mp hbs
    obtain ⟨hmsgs, hstate⟩ := ih hbs (d := { d with state := c.waiting }) hw hc
    rw [processAll_cons_of_some (process_of_need1Byte hb hd hc), List.map_cons, hmsgs]
    exact ⟨rfl, hstate⟩

/-- With a two-data-byte command current, every pair of data bytes is a message (R264, R265, R278 (a)). -/
theorem processAll_twoDataBytes {channel : Nat} {c : MidiCommand} (hw : c.waiting = .need2Bytes)
    {pairs : List (Byte × Byte)} (hpairs : ∀ p ∈ pairs, p.1.toNat < 0x80 ∧ p.2.toNat < 0x80) {d : Decoder}
    (hd : d.state = .need2Bytes) (hc : d.cmd = some c) :
    (d.processAll channel (pairs.flatMap fun p => [p.1, p.2])).2 = pairs.map fun p => ⟨c, p.1, p.2⟩ := by
  induction pairs generalizing d with
  | nil => rfl
  | cons p pairs ih =>
    obtain ⟨⟨hp1, hp2⟩, hpairs⟩ := List.forall_mem_cons.mp hpairs
    have hsecond : ({ d with byte1 := p.1, state := .need1Byte } : Decoder).process channel p.2 =
        ({ d with byte1 := p.1, state := c.waiting }, some ⟨c, p.1, p.2⟩) := process_of_need1Byte hp2 rfl hc
    rw [List.flatMap_cons, List.cons_append, List.singleton_append, processAll_cons_of_none (process_of_need2Bytes hp1 hd),
      processAll_cons_of_some hsecond, List.map_cons]
    exact congrArg (_ :: ·) (ih hpairs hw hc)

/-! ### What is dead of an earlier message (R265, R278 (b)) -/

/-- The decoders differ at most in a `byte1` that no message will show: one that the next data byte overwrites, or that of a
one-data-byte command. -/
structure Decoder.SameButDeadByte1 (d d' : Decoder) : Prop where
  state : d'.state = d.state
  cmd : d'.cmd = d.cmd
  byte1 : d.state = .need1Byte → (∃ c, d.cmd = some c ∧ c.waiting = .need1Byte) ∨ d'.byte1 = d.byte1

/-- A message without the dead `byte1` of a one-data-byte command (R265). -/
def MidiMessage.live (m : MidiMessage) : MidiCommand × Option Byte × Byte :=
  (m.cmd, if m.cmd.waiting = .need1Byte then none else some m.byte1, m.byte2)

theorem live_of_oneDataByte {c : MidiCommand} (hc : c.waiting = .need1Byte) (b1 b2 : Byte) :
    MidiMessage.live ⟨c, b1, b2⟩ = (c, none, b2) := by
  rw [MidiMessage.live, if_pos hc]

/-- A status byte leaves of the earlier state at most a dead `byte1`. -/
theorem status_sameButDeadByte1 (channel : Nat) (b : Byte) (d d' : Decoder) :
    (d.status channel b).SameButDeadByte1 (d'.status channel b) := by
  rcases status_cases channel b with ⟨c, h⟩ | h <;> rw [h, h]
  · exact ⟨rfl, rfl, fun hw => .inl ⟨c, rfl, hw⟩⟩
  · exact ⟨rfl, rfl, nofun⟩

theorem Decoder.SameButDeadByte1.process {d d' : Decoder} (h : d.SameButDeadByte1 d') (channel : Nat) (b : Byte) :
    (d.process channel b).1.SameButDeadByte1 (d'.process channel b).1 ∧
      (d.process channel b).2.map MidiMessage.live = (d'.process channel b).2.map MidiMessage.live := by
  rcases lt_or_ge b.toNat 0x80 with hb | hb
  · cases hs : d.state with
    | initial =>
      rw [process_of_initial hb hs, process_of_initial hb (h.state.trans hs)]
      exact ⟨h, rfl⟩
    | need2Bytes =>
      rw [process_of_need2Bytes hb hs, process_of_need2Bytes hb (h.state.trans hs)]
      exact ⟨⟨rfl, h.cmd, fun _ => .inr rfl⟩, rfl⟩
    | need1Byte =>
      cases hc : d.cmd with
      | none =>
        rw [process_of_need1Byte_none hb hs hc, process_of_need1Byte_none hb (h.state.trans hs) (h.cmd.trans hc)]
        exact ⟨h, rfl⟩
      | some c =>
        rw [process_of_need1Byte hb hs hc, process_of_need1Byte hb (h.state.trans hs) (h.cmd.trans hc)]
        refine ⟨⟨rfl, h.cmd, fun hw => .inl ⟨c, hc, hw⟩⟩, congrArg some ?_⟩
        rcases h.byte1 hs with ⟨c', hc', hw⟩ | hbyte1
        · cases hc.symm.trans hc'
          rw [live_of_oneDataByte hw, live_of_oneDataByte hw]
        · rw [hbyte1]
  · rcases lt_or_ge b.toNat 0xF8 with hb' | hb'
    · rw [process_of_status hb hb', process_of_status hb hb']
      exact ⟨status_sameButDeadByte1 channel b d d', rfl⟩
    · rw [process_of_realTime hb', process_of_realTime hb']
      exact ⟨h, rfl⟩

theorem Decoder.SameButDeadByte1.processAll {channel : Nat} {d d' : Decoder} (h : d.SameButDeadByte1 d')
    (bs : List Byte) :
    (d.processAll channel bs).2.map MidiMessage.live = (d'.processAll channel bs).2.map MidiMessage.live := by
  induction bs generalizing d d' with
  | nil => rfl
  | cons b bs ih =>
    obtain ⟨hnext, hmsg⟩ := h.process channel b
    rw [processAll_cons, processAll_cons, List.map_append, List.map_append, ih hnext, ← Option.toList_map,
      ← Option.toList_map, hmsg]

end Sys2Proof.Machine

namespace Sys2Proof.Proofs

open Sys2Proof.Machine

/-- Settles O53, by induction on the stream: a Real-Time byte leaves the decoder and completes no message. -/
theorem realTimeBytesIgnored : Obligations.RealTimeBytesIgnored := by
  intro channel d bs
  induction bs generalizing d with
  | nil => rfl
  | cons b bs ih =>
    by_cases hb : b.toNat < 0xF8
    · rw [List.filter_cons, if_pos (decide_eq_true hb), processAll_cons, processAll_cons, ih]
    · rw [List.filter_cons, if_neg (by simpa using hb), processAll_cons_of_none (process_of_realTime (by omega)), ih]

/-- Settles O54: the status byte makes the command current, and each message leaves it current. -/
theorem runningStatus : Obligations.RunningStatus := by
  refine ⟨by decide, fun channel nibble c d bs hch hc hone hbs => ?_, fun channel nibble c d pairs hch hc hp hcp hpairs => ?_⟩
  · rw [processAll_cons_of_none (process_statusByte hch hc d)]
    exact processAll_oneDataByte (waiting_of_oneDataByte hone) hbs (waiting_of_oneDataByte hone) rfl
  · rw [processAll_cons_of_none (process_statusByte hch hc d)]
    exact processAll_twoDataBytes (waiting_of_twoDataBytes hp hcp) hpairs (waiting_of_twoDataBytes hp hcp) rfl

/-- Settles O55: after the status byte two decoders differ in a dead `byte1` at most, which every byte keeps so; and a status
byte that is not listened to leaves the decoder in `Initial`. -/
theorem statusByteDiscardsPartial : Obligations.StatusByteDiscardsPartial := by
  refine ⟨fun channel d d' b bs hlo hhi => ?_, fun channel d b bs hlo hhi hignored hbs => ?_⟩
  · rw [processAll_cons_of_none (process_of_status hlo hhi), processAll_cons_of_none (process_of_status hlo hhi)]
    exact (status_sameButDeadByte1 channel b d d').processAll bs
  · rw [processAll_cons_of_none (process_of_status hlo hhi), status_of_ignored hignored, processAll_of_initial rfl hbs]
    exact ⟨rfl, rfl⟩

end Sys2Proof.Proofs

/-!
PROOFS. The host agent (R267 to R277, R290 to R293): what each dispatch, each input and each answer to `V.ACTIVE` does, and
the host's invariant over every step.
-/

namespace Sys2Proof.Machine

/-! ### Dispatch, message by message (R267 to R274) -/

section dispatch
variable (s : State) (b1 b2 : Byte)

theorem dispatch_noteOff : s.dispatch ⟨.noteOff, b1, b2⟩ = s.allocateNote b1 .release := rfl

theorem dispatch_noteOn_zero : s.dispatch ⟨.noteOn, b1, 0⟩ = s.allocateNote b1 .release := rfl

theorem dispatch_noteOn {b2 : Byte} (h : b2 ≠ 0) :
    s.dispatch ⟨.noteOn, b1, b2⟩ = s.allocateNote b1 (.trigger (noteFrequency b1) (velocityVolume b2)) := if_neg h

theorem dispatch_polyAftertouch_of_slot {k : Nat} (h : s.host.alloc.findAllocated b1 = some k) :
    s.dispatch ⟨.polyAftertouch, b1, b2⟩ = s.callback (.polyAftertouch s.params.listenChannel b1 b2 k) := by
  unfold State.dispatch; simp only [h]

theorem dispatch_polyAftertouch_of_none (h : s.host.alloc.findAllocated b1 = none) :
    s.dispatch ⟨.polyAftertouch, b1, b2⟩ = s := by
  unfold State.dispatch; simp only [h]

theorem dispatch_controlChange_of_lt (h : b1.toNat < 120) :
    s.dispatch ⟨.controlChange, b1, b2⟩ = s.callback (.controlChange s.params.listenChannel b1 b2 s.host.alloc) := if_pos h

theorem dispatch_controlChange_of_le (h : 120 ≤ b1.toNat) : s.dispatch ⟨.controlChange, b1, b2⟩ = s :=
  if_neg (Nat.not_lt.mpr h)

theorem dispatch_programChange :
    s.dispatch ⟨.programChange, b1, b2⟩ = s.callback (.programChange s.params.listenChannel b2 s.host.alloc) := rfl

theorem dispatch_channelPressure : s.dispatch ⟨.channelPressure, b1, b2⟩ = s := rfl

theorem dispatch_pitchBend :
    s.dispatch ⟨.pitchBend, b1, b2⟩ = s.issue (bendAll s.nVoices (normalizedBend b1 b2)) := rfl

/-- Everything a dispatch can do: nothing, one allocation that the decoder acts on, one call, or the bends of R274. -/
theorem dispatch_cases (m : MidiMessage) :
    s.dispatch m = s ∨ (∃ act, act ≠ .handOver ∧ s.dispatch m = s.allocateNote m.byte1 act) ∨
    (∃ call, s.dispatch m = s.callback call) ∨ ∃ is, s.dispatch m = s.issue is := by
  obtain ⟨cmd, b1, b2⟩ := m
  cases cmd with
  | noteOff => exact .inr (.inl ⟨.release, nofun, rfl⟩)
  | noteOn =>
    by_cases h : b2 = 0
    · subst h; exact .inr (.inl ⟨.release, nofun, rfl⟩)
    · exact .inr (.inl ⟨.trigger _ _, nofun, dispatch_noteOn s b1 h⟩)
  | polyAftertouch =>
    cases h : s.host.alloc.findAllocated b1 with
    | some k => exact .inr (.inr (.inl ⟨_, dispatch_polyAftertouch_of_slot s b1 b2 h⟩))
    | none => exact .inl (dispatch_polyAftertouch_of_none s b1 b2 h)
  | controlChange =>
    rcases lt_or_ge b1.toNat 120 with h | h
    · exact .inr (.inr (.inl ⟨_, dispatch_controlChange_of_lt s b1 b2 h⟩))
    · exact .inl (dispatch_controlChange_of_le s b1 b2 h)
  | programChange => exact .inr (.inr (.inl ⟨_, rfl⟩))
  | channelPressure => exact .inl rfl
  | pitchBend => exact .inr (.inr (.inr ⟨_, rfl⟩))

end dispatch

/-! ### Moves of the host (log 11) -/

section hostMove
variable {s : State}

theorem hostMove_of_scanning {note : Byte} {k : Nat} {act : NoteAction} (h : s.host.task = .scanning note k act) :
    s.hostMove = s.scanSlot note k act := by
  unfold State.hostMove; rw [h]

theorem hostMove_of_inCallback {due : Bool} (h : s.host.task = .inCallback due) : s.hostMove = s.callbackMove due := by
  unfold State.hostMove; rw [h]

theorem hostMove_of_no_event (h : s.host.task = .ready) (hev : s.host.events = []) : s.hostMove = s := by
  unfold State.hostMove; rw [h, hev]

theorem hostMove_of_event {ev : HostEvent} {rest : List HostEvent} (h : s.host.task = .ready)
    (hev : s.host.events = ev :: rest) :
    s.hostMove = ({ s with host := { s.host with events := rest } } : State).handleEvent ev := by
  unfold State.hostMove; rw [h, hev]

theorem processByte_of_none {b : Byte} (h : (s.host.decoder.process s.params.listenChannel b).2 = none) :
    s.processByte b =
      { s with host := { s.host with decoder := (s.host.decoder.process s.params.listenChannel b).1 } } := by
  unfold State.processByte; simp only [h]

theorem processByte_of_some {b : Byte} {m : MidiMessage}
    (h : (s.host.decoder.process s.params.listenChannel b).2 = some m) :
    s.processByte b =
      ({ s with host :=
        { s.host with decoder := (s.host.decoder.process s.params.listenChannel b).1 } } : State).dispatch m := by
  unfold State.processByte; simp only [h]

end hostMove

/-! ### The answer to `V.ACTIVE` (R291 (c), (d)) -/

section scanSlot
variable {s : State} {note : Byte} {k : Nat} {act : NoteAction}

theorem scanSlot_of_inactive (h : s.lastResponseActive = false) :
    s.scanSlot note k act = s.finishAllocation (s.host.alloc.assign k note) k act [.vRls (voiceNumber k)] := by
  simp only [State.scanSlot, h, Bool.not_false, if_true]

theorem scanSlot_of_active_of_lt (h : s.lastResponseActive = true) (hk : k + 1 < s.nVoices) :
    s.scanSlot note k act =
      ({ s with host := { s.host with task := .scanning note (k + 1) act } } : State).issue
        [.vActive (voiceNumber (k + 1))] := by
  simp only [State.scanSlot, h, Bool.not_true, Bool.false_eq_true, if_false, hk, if_true]

theorem scanSlot_of_active_of_le (h : s.lastResponseActive = true) (hk : s.nVoices ≤ k + 1) :
    s.scanSlot note k act = s.finishAllocation
      ({ s.host.alloc with lastStolen := s.host.alloc.nextRoundRobin s.nVoices }.assign
        (s.host.alloc.nextRoundRobin s.nVoices) note)
      (s.host.alloc.nextRoundRobin s.nVoices) act [.vRls (voiceNumber (s.host.alloc.nextRoundRobin s.nVoices))] := by
  simp only [State.scanSlot, h, Bool.not_true, Bool.false_eq_true, if_false, Nat.not_lt.mpr hk]

end scanSlot

/-! ### The host's invariant (R263 to R265, R290, R291) -/

namespace State.HostInv
variable {s t : State}

/-- The invariant speaks of the host and the number of voices alone. -/
theorem of_sameHost (h : s.HostInv) (hhost : t.host = s.host) (hn : t.nVoices = s.nVoices) : t.HostInv :=
  ⟨by rw [hhost, hn]; exact h.alloc, by rw [hhost]; exact h.decoder, by rw [hhost, hn]; exact h.scanning,
    by rw [hhost]; exact h.running⟩

/-- With the host ready, its allocator and its decoder are all there is to keep. -/
theorem of_ready (ha : t.host.alloc.Inv t.nVoices) (hd : t.host.decoder.Inv) (hr : t.host.task = .ready) : t.HostInv :=
  ⟨ha, hd, (fun _ _ _ h => nomatch hr.symm.trans h), fun _ h => nomatch hr.symm.trans h⟩

/-- A callback that has been called is running. -/
theorem of_inCallback {due : Bool} (ha : t.host.alloc.Inv t.nVoices) (hd : t.host.decoder.Inv)
    (ht : t.host.task = .inCallback due) (hc : t.host.calls ≠ []) : t.HostInv :=
  ⟨ha, hd, (fun _ _ _ h => nomatch ht.symm.trans h), fun _ _ => hc⟩

theorem nextRoundRobin_lt (h : s.HostInv) : s.host.alloc.nextRoundRobin s.nVoices < s.nVoices :=
  Nat.mod_lt _ (Nat.zero_lt_of_lt h.alloc.stolen)

/-- Each outcome of the scan: a slot is the note's, or the next voice is asked (R291 (c), (d)). -/
theorem scanSlot (h : s.HostInv) {note : Byte} {k : Nat} {act : NoteAction} (ht : s.host.task = .scanning note k act) :
    (s.scanSlot note k act).HostInv := by
  obtain ⟨-, hnote, hnoSlot, hnoFree, hcalls⟩ := h.scanning note k act ht
  cases hr : s.lastResponseActive with
  | false =>
    rw [scanSlot_of_inactive hr]
    exact finishAllocation_inv (Allocator.assign_inv h.alloc hnote hnoSlot) h.decoder hcalls
  | true =>
    rcases lt_or_ge (k + 1) s.nVoices with hk | hk
    · rw [scanSlot_of_active_of_lt hr hk]
      exact ⟨h.alloc, h.decoder, fun note' k' act' h' => by cases h'; exact ⟨hk, hnote, hnoSlot, hnoFree, hcalls⟩, nofun⟩
    · rw [scanSlot_of_active_of_le hr hk]
      exact finishAllocation_inv
        (Allocator.assign_inv ⟨h.alloc.length, h.nextRoundRobin_lt, h.alloc.oneSlot, h.alloc.noteNumbers⟩ hnote hnoSlot)
        h.decoder hcalls

/-- A callback allocates note numbers only, and a call stays recorded while it runs (log 12). -/
theorem callbackMove (h : s.HostInv) {due : Bool} (ht : s.host.task = .inCallback due) : (s.callbackMove due).HostInv := by
  have hcalls := h.running due ht
  have ha : (s.hearResponse due).host.alloc.Inv (s.hearResponse due).nVoices := by
    rw [hearResponse_alloc, State.nVoices, hearResponse_voices]; exact h.alloc
  have hd : (s.hearResponse due).host.decoder.Inv := by rw [hearResponse_decoder]; exact h.decoder
  have hc : (s.hearResponse due).host.calls ≠ [] := by rw [hearResponse_calls]; exact hcalls
  rcases s.callbackMove_cases due with hm | ⟨i, _, _, -, -, hm⟩ | ⟨note, call, earlier, -, hp, hm⟩ <;> rw [hm]
  · exact of_ready ha hd rfl
  · exact of_inCallback ha hd rfl hc
  · have hnote : note.toNat < 128 := by
      cases call with
      | polyAftertouch => cases hp
      | controlChange | programChange => exact of_decide_eq_true hp
    exact allocateNote_inv ha hd hnote fun _ => hc

/-- Whatever message the decoder completes; `byte1` is a data byte, and so a note number (R264, R290). -/
theorem dispatch (h : s.HostInv) {m : MidiMessage} (hm : m.byte1.toNat < 128) : (s.dispatch m).HostInv := by
  rcases dispatch_cases s m with hd | ⟨act, hact, hd⟩ | ⟨call, hd⟩ | ⟨is, hd⟩ <;> rw [hd]
  · exact h
  · exact allocateNote_inv h.alloc h.decoder hm fun hh => absurd hh hact
  · exact of_inCallback h.alloc h.decoder rfl (by simp)
  · exact h.of_sameHost rfl rfl

theorem processByte (h : s.HostInv) (b : Byte) : (s.processByte b).HostInv := by
  obtain ⟨hd, hm⟩ := h.decoder.process s.params.listenChannel b
  have hmoved : ({ s with host :=
      { s.host with decoder := (s.host.decoder.process s.params.listenChannel b).1 } } : State).HostInv :=
    ⟨h.alloc, hd, h.scanning, h.running⟩
  cases hr : (s.host.decoder.process s.params.listenChannel b).2 with
  | none => rw [processByte_of_none hr]; exact hmoved
  | some m => rw [processByte_of_some hr]; exact hmoved.dispatch (hm m hr)

theorem handleEvent (h : s.HostInv) (ev : HostEvent) : (s.handleEvent ev).HostInv := by
  cases ev with
  | midi b => exact h.processByte b
  | frames n => exact h.of_sameHost rfl rfl
  | blockReset => exact h.of_sameHost rfl List.length_replicate

theorem hostMove (h : s.HostInv) : s.hostMove.HostInv := by
  cases ht : s.host.task with
  | scanning note k act => rw [hostMove_of_scanning ht]; exact h.scanSlot ht
  | inCallback due => rw [hostMove_of_inCallback ht]; exact h.callbackMove ht
  | ready =>
    cases hev : s.host.events with
    | nil => rw [hostMove_of_no_event ht hev]; exact h
    | cons ev rest =>
      have hrest : ({ s with host := { s.host with events := rest } } : State).HostInv :=
        ⟨h.alloc, h.decoder, h.scanning, h.running⟩
      rw [hostMove_of_event ht hev]; exact hrest.handleEvent ev

end State.HostInv

end Sys2Proof.Machine

namespace Sys2Proof.Proofs

open Sys2Proof.Machine

/-- Settles O52: a command leaves the host and the number of voices, and every move of the host keeps its invariant. -/
theorem hostInvariantKept : Obligations.HostInvariantKept := by
  intro s t h ht
  cases hp : s.pending with
  | nil =>
    rw [step_of_no_pending hp] at ht
    cases ht
    exact h.hostMove
  | cons c rest =>
    obtain ⟨t', _, hx, ho, hn, -, -⟩ := execCommand_answers c { s with pending := rest }
    rw [step_of_pending hp, hx] at ht
    cases ht
    exact h.of_sameHost ho.host hn

/-- Settles O59: the move of a ready host by its oldest input, and the equations of the dispatch. -/
theorem otherHostInputs : Obligations.OtherHostInputs := by
  refine ⟨fun s hp ht => ⟨fun hev => ?_, fun b rest hev => ?_, fun n rest hev => ?_⟩, fun s b1 b2 => ?_⟩
  · rw [step_of_no_pending hp, hostMove_of_no_event ht hev]
  · rw [step_of_no_pending hp, hostMove_of_event ht hev]
    exact ⟨fun h => congrArg _ (processByte_of_none h), fun m h => congrArg _ (processByte_of_some h)⟩
  · rw [step_of_no_pending hp, hostMove_of_event ht hev]
    show Host.Outcome.next (State.issue _ _) = _
    rw [State.issue, List.map_replicate, hp]
    rfl
  · refine ⟨fun k hk hbelow => ?_, fun hno => ?_, dispatch_controlChange_of_lt s b1 b2,
      dispatch_controlChange_of_le s b1 b2, dispatch_programChange s b1 b2, dispatch_channelPressure s b1 b2, fun n => ?_⟩
    · exact dispatch_polyAftertouch_of_slot s b1 b2 ((Allocator.findAllocated_eq_some _ _ _).mpr ⟨hk, hbelow⟩)
    · exact dispatch_polyAftertouch_of_none s b1 b2 ((Allocator.findAllocated_eq_none _ _).mpr hno)
    · rw [State.handleEvent, State.issue, List.map_replicate]

end Sys2Proof.Proofs

/-!
PROOFS. `allocate` (R291): cases (a) and (b) at once, and the scan of cases (c) and (d), two steps per voice.
-/

namespace Sys2Proof.Machine

/-! ### Cases (a) and (b) of `allocate` (R291) -/

/-- A note with a slot, or for which a slot is free, has slot `k` at once, whatever is then done with it. -/
theorem allocateNote_of_slot {s : State} {note : Byte} {k : Nat}
    (h : (s.host.alloc.slots[k]? = some (some note) ∧ ∀ j, j < k → s.host.alloc.slots[j]? ≠ some (some note)) ∨
      ((∀ j : Nat, s.host.alloc.slots[j]? ≠ some (some note)) ∧ s.host.alloc.slots[k]? = some none ∧
        ∀ j, j < k → s.host.alloc.slots[j]? ≠ some none)) :
    ∃ a : Allocator, (∀ act, s.allocateNote note act = s.finishAllocation a k act []) ∧
      a.slots[k]? = some (some note) ∧ a.lastStolen = s.host.alloc.lastStolen ∧
      ∀ j, j ≠ k → a.slots[j]? = s.host.alloc.slots[j]? := by
  rcases h with hslot | ⟨hno, hfree⟩
  · have hfound := (s.host.alloc.findAllocated_eq_some note k).mpr hslot
    refine ⟨s.host.alloc, fun act => ?_, hslot.1, rfl, fun _ _ => rfl⟩
    unfold State.allocateNote; simp only [hfound]
  · have hnone := (s.host.alloc.findAllocated_eq_none note).mpr hno
    have hfirst := (s.host.alloc.firstFree_eq_some k).mpr hfree
    obtain ⟨hk, -⟩ := List.getElem?_eq_some_iff.mp hfree.1
    refine ⟨s.host.alloc.assign k note, fun act => ?_, List.getElem?_set_self hk, rfl,
      fun j hj => List.getElem?_set_ne hj.symm⟩
    unfold State.allocateNote; simp only [hnone, hfirst]

/-- Case (c) of R291 begins. -/
theorem allocateNote_of_full {s : State} {note : Byte} (hno : ∀ j : Nat, s.host.alloc.slots[j]? ≠ some (some note))
    (hfull : ∀ j : Nat, s.host.alloc.slots[j]? ≠ some none) (act : NoteAction) :
    s.allocateNote note act =
      ({ s with host := { s.host with task := .scanning note 0 act } } : State).issue [.vActive (voiceNumber 0)] := by
  have hnone := (s.host.alloc.findAllocated_eq_none note).mpr hno
  have hfirst := s.host.alloc.firstFree_eq_none.mpr hfull
  unfold State.allocateNote; simp only [hnone, hfirst]; rfl

/-- The frequency the host computes is above zero (R194, R267). -/
theorem noteFrequency_pos (note : Byte) : fGt (noteFrequency note) f0 = true := by
  obtain ⟨hfin, hnear⟩ := noteFrequency_near note
  rw [fGt_iff hfin (by decide), show fInt f0 = 0 by decide]
  have hformula : 0 < 440 * (2 : ℝ) ^ (((note.toNat : ℝ) - 69) / 12) := by positivity
  have hvalue : 0 < (fInt (noteFrequency note) : ℝ) / 2 ^ 149 := by
    have := (abs_le.mp hnear).1
    linarith
  exact_mod_cast (div_pos_iff_of_pos_right (by positivity)).mp hvalue

/-! ### The scan of case (c), voice by voice (R291) -/

/-- The host has asked for the voice of slot `k`; the block is that of `s`. -/
def State.asking (s : State) (note : Byte) (k : Nat) (act : NoteAction) (rs : List Response) : State :=
  { s with
    pending := [encode (.vActive (voiceNumber k))], responses := rs,
    host := { s.host with task := .scanning note k act } }

/-- The host has the response for slot `k`. -/
def State.answered (s : State) (note : Byte) (k : Nat) (act : NoteAction) (rs : List Response) : State :=
  { s with pending := [], responses := rs, host := { s.host with task := .scanning note k act } }

theorem voiceNumber_toNat {k : Nat} (hk : k < 256) : (voiceNumber k).toNat = k :=
  (BitVec.toNat_ofNat k 8).trans (Nat.mod_eq_of_lt hk)

section scan
variable {s : State} {note : Byte} {k : Nat} {act : NoteAction} {rs : List Response} {u : Voice}

/-- `V.ACTIVE` on an existing voice writes nothing but its response (R201). -/
theorem step_asking (hk : k < 256) (hu : s.voices[k]? = some u) :
    step (s.asking note k act rs) =
      .next (s.answered note k act (⟨0, if voiceIsActive u then 1 else 0, 0⟩ :: rs)) := by
  have hvoice : (s.answered note k act rs).voice? (voiceNumber k) = some u := by
    rw [State.voice?, voiceNumber_toNat hk]; exact hu
  have hsame : (s.answered note k act rs).setVoice (voiceNumber k) u = s.answered note k act rs := by
    have hset : s.voices.set k u = s.voices := by
      obtain ⟨_, rfl⟩ := List.getElem?_eq_some_iff.mp hu
      exact List.set_getElem_self _
    rw [State.setVoice, voiceNumber_toNat hk]
    show ({ s.answered note k act rs with voices := s.voices.set k u } : State) = _
    rw [hset]; rfl
  rw [step_of_pending (rest := []) rfl, execCommand_of_command (decode_encode _)]
  show (s.answered note k act rs).onVoice (voiceNumber k) true _ = _
  rw [State.onVoice_legal hvoice, hsame]
  rfl

theorem step_answered :
    step (s.answered note k act rs) = .next ((s.answered note k act rs).scanSlot note k act) :=
  (step_of_no_pending rfl).trans (congrArg _ (hostMove_of_scanning rfl))

/-- Two steps per voice: the block answers, and the host goes on. -/
theorem runSteps_asking (hk : k < 256) (hu : s.voices[k]? = some u) (n : Nat) :
    runSteps (n + 2) (s.asking note k act rs) =
      runSteps n ((s.answered note k act (⟨0, if voiceIsActive u then 1 else 0, 0⟩ :: rs)).scanSlot note k act) := by
  rw [runSteps_succ (step_asking hk hu), runSteps_succ step_answered]

/-- An active voice that is not the last: the host asks for the next one. -/
theorem runSteps_asking_of_active (hn : s.nVoices ≤ 256) (hk : k + 1 < s.nVoices) (hu : s.voices[k]? = some u)
    (hact : voiceIsActive u = true) (n : Nat) :
    runSteps (n + 2) (s.asking note k act rs) = runSteps n (s.asking note (k + 1) act (⟨0, 1, 0⟩ :: rs)) := by
  rw [runSteps_asking (by omega) hu, hact]
  exact congrArg _ (scanSlot_of_active_of_lt rfl hk)

/-- The host asks for slot `k` once it knows that all voices below are active. -/
theorem runSteps_asking_zero (hn : s.nVoices ≤ 256) (hk : k < s.nVoices)
    (hact : ∀ j w, j < k → s.voices[j]? = some w → voiceIsActive w = true) (n : Nat) :
    ∃ rs', runSteps (n + 2 * k) (s.asking note 0 act rs) = runSteps n (s.asking note k act rs') := by
  induction k generalizing n with
  | zero => exact ⟨rs, rfl⟩
  | succ k ih =>
    obtain ⟨rs', hrun⟩ := ih (by omega) (fun j w hj => hact j w (by omega)) (n + 2)
    have hu : s.voices[k]? = some (s.voices[k]'(by unfold State.nVoices at hk; omega)) := List.getElem?_eq_getElem _
    refine ⟨⟨0, 1, 0⟩ :: rs', ?_⟩
    rw [show n + 2 * (k + 1) = n + 2 + 2 * k by omega, hrun]
    exact runSteps_asking_of_active hn hk hu (hact k _ (Nat.lt_succ_self k) hu) n

/-- Case (c) of R291: the first inactive voice is found and its slot is the note's. -/
theorem runSteps_asking_steals_inactive (hn : s.nVoices ≤ 256) (hu : s.voices[k]? = some u)
    (hidle : voiceIsActive u = false) (hbelow : ∀ j w, j < k → s.voices[j]? = some w → voiceIsActive w = true) :
    ∃ rs', runSteps (2 * (k + 1)) (s.asking note 0 act rs) =
      .next ((s.answered note k act rs').finishAllocation (s.host.alloc.assign k note) k act [.vRls (voiceNumber k)]) := by
  have hk : k < s.nVoices := (List.getElem?_eq_some_iff.mp hu).1
  obtain ⟨rs', hrun⟩ := runSteps_asking_zero (note := note) (act := act) (rs := rs) hn hk hbelow 2
  refine ⟨⟨0, 0, 0⟩ :: rs', ?_⟩
  rw [show 2 * (k + 1) = 2 + 2 * k by omega, hrun, runSteps_asking (n := 0) (by omega) hu, hidle]
  exact congrArg _ (scanSlot_of_inactive rfl)

/-- Case (d) of R291: all voices are active, and the slot after the last stolen one is the note's. -/
theorem runSteps_asking_steals_roundRobin (hn1 : 1 ≤ s.nVoices) (hn : s.nVoices ≤ 256)
    (hall : ∀ u ∈ s.voices, voiceIsActive u = true) :
    ∃ k rs', runSteps (2 * s.nVoices) (s.asking note 0 act rs) =
      .next ((s.answered note k act rs').finishAllocation
        ({ s.host.alloc with lastStolen := s.host.alloc.nextRoundRobin s.nVoices }.assign
          (s.host.alloc.nextRoundRobin s.nVoices) note)
        (s.host.alloc.nextRoundRobin s.nVoices) act [.vRls (voiceNumber (s.host.alloc.nextRoundRobin s.nVoices))]) := by
  obtain ⟨k, hk⟩ : ∃ k, s.nVoices = k + 1 := ⟨s.nVoices - 1, by omega⟩
  have hmem : ∀ j w, s.voices[j]? = some w → voiceIsActive w = true := fun j w hw => hall w (List.mem_of_getElem? hw)
  obtain ⟨u, hu⟩ : ∃ u, s.voices[k]? = some u := ⟨_, List.getElem?_eq_getElem (by unfold State.nVoices at hk; omega)⟩
  obtain ⟨rs', hrun⟩ := runSteps_asking_zero (note := note) (act := act) (rs := rs) hn (k := k) (by omega)
    (fun j w _ => hmem j w) 2
  refine ⟨k, ⟨0, 1, 0⟩ :: rs', ?_⟩
  rw [show 2 * s.nVoices = 2 + 2 * k by omega, hrun, runSteps_asking (n := 0) (by omega) hu, hmem k u hu]
  exact congrArg _ (scanSlot_of_active_of_le rfl hk.le)

/-- The note's own command stands ready behind the release of the stolen slot, or the callback that asked has the slot. -/
structure State.StealReady (s t : State) (k : Nat) (act : NoteAction) : Prop where
  trigger : ∀ f vol, act = .trigger f vol → t.host.task = .ready ∧ t.host.seen = s.host.seen ∧
    t.pending = [encode (.vRls (voiceNumber k)), encode (.vTrig (voiceNumber k) f vol)]
  release : act = .release → t.host.task = .ready ∧ t.host.seen = s.host.seen ∧
    t.pending = [encode (.vRls (voiceNumber k)), encode (.vRls (voiceNumber k))]
  handOver : act = .handOver → t.host.task = .inCallback false ∧ t.host.seen = .slot k :: s.host.seen ∧
    t.pending = [encode (.vRls (voiceNumber k))]

/-- The end of an allocation that steals slot `j`. -/
theorem answered_finishAllocation_stealReady (a : Allocator) (j : Nat) :
    s.StealReady ((s.answered note k act rs).finishAllocation a j act [.vRls (voiceNumber j)]) j act :=
  ⟨by rintro f vol rfl; exact ⟨rfl, rfl, rfl⟩, by rintro rfl; exact ⟨rfl, rfl, rfl⟩, by rintro rfl; exact ⟨rfl, rfl, rfl⟩⟩

end scan

/-- The scan from the state in which the allocation begins. -/
theorem allocateNote_eq_asking {s : State} {note : Byte} (hp : s.pending = [])
    (hno : ∀ j : Nat, s.host.alloc.slots[j]? ≠ some (some note)) (hfull : ∀ j : Nat, s.host.alloc.slots[j]? ≠ some none)
    (act : NoteAction) : s.allocateNote note act = s.asking note 0 act s.responses := by
  rw [allocateNote_of_full hno hfull, State.issue, hp]; rfl

end Sys2Proof.Machine

namespace Sys2Proof.Proofs

open Sys2Proof.Machine

/-- Settles O57: in the cases (a) and (b) of `allocate` the slot is found at once, and the same allocator is left whatever is
done with it. -/
theorem noteTakesItsSlot : Obligations.NoteTakesItsSlot := by
  intro s note velocity k hslot hvelocity
  obtain ⟨a, hfinish, hk, hstolen, hothers⟩ := allocateNote_of_slot hslot
  obtain ⟨hfreq, hfreqNear⟩ := noteFrequency_near note
  obtain ⟨hvol, hvolNear⟩ := velocityVolume_near velocity hvelocity
  have hoff : s.dispatch ⟨.noteOff, note, velocity⟩ = s.finishAllocation a k .release [] :=
    (dispatch_noteOff s note velocity).trans (hfinish _)
  have hon (hv : velocity ≠ 0) : s.dispatch ⟨.noteOn, note, velocity⟩ =
      s.finishAllocation a k (.trigger (noteFrequency note) (velocityVolume velocity)) [] :=
    (dispatch_noteOn s note hv).trans (hfinish _)
  have hostSame : (s.dispatch ⟨.noteOn, note, velocity⟩).host = (s.finishAllocation a k .release []).host := by
    by_cases hv : velocity = 0
    · rw [hv, dispatch_noteOn_zero, hfinish]
    · rw [hon hv]; rfl
  rw [hfinish .handOver, hoff]
  exact ⟨⟨_, _, hfreq, noteFrequency_pos note, hvol, hfreqNear, hvolNear, fun hv => by rw [hon hv]; rfl⟩, rfl,
    hfinish .release, hostSame, hk, hstolen, rfl, rfl, rfl, rfl, by simp, hothers⟩

/-- Settles O58: the scan reaches the first inactive voice, or the last voice, and there the allocation ends. -/
theorem stealsFirstInactiveElseRoundRobin : Obligations.StealsFirstInactiveElseRoundRobin := by
  intro s note act _ hn1 hn hp hno hfull
  rw [allocateNote_eq_asking hp hno hfull]
  refine ⟨fun k u hu hidle hbelow => ?_, fun hall => ?_⟩
  · obtain ⟨rs, hrun⟩ := runSteps_asking_steals_inactive (rs := s.responses) hn hu hidle hbelow
    obtain ⟨htrigger, hrelease, hhandOver⟩ := answered_finishAllocation_stealReady (s.host.alloc.assign k note) k
    exact ⟨_, hrun, ⟨htrigger, hrelease, hhandOver⟩, rfl, ⟨rfl, rfl, rfl, rfl⟩⟩
  · obtain ⟨k, rs, hrun⟩ := runSteps_asking_steals_roundRobin (rs := s.responses) hn1 hn hall
    obtain ⟨htrigger, hrelease, hhandOver⟩ := answered_finishAllocation_stealReady _ (s.host.alloc.nextRoundRobin s.nVoices)
    exact ⟨_, hrun, ⟨⟨htrigger, hrelease, hhandOver⟩, rfl⟩, ⟨rfl, rfl, rfl, rfl⟩⟩

end Sys2Proof.Proofs

/-!
PROOFS. What a callback hears (log 12), and the bend of R274, which is exact.
-/

namespace Sys2Proof.Machine

/-! ### Callbacks (log 12) -/

/-- What the running callback has heard before it acts: the response of its last command, when one is due. -/
def State.heard (s : State) (due : Bool) : List CallbackResult :=
  if due then (s.responses.head?.map CallbackResult.response).toList ++ s.host.seen else s.host.seen

theorem hearResponse_eq (s : State) (due : Bool) :
    s.hearResponse due = { s with host := { s.host with seen := s.heard due } } := by
  cases due <;> rfl

/-! ### The bend of R274 -/

theorem pitchBendValue_eq {lsb : Byte} (h : lsb.toNat < 128) (msb : Byte) :
    pitchBendValue lsb msb = msb.toNat * 128 + lsb.toNat := by
  rw [pitchBendValue, ← Nat.shiftLeft_add_eq_or_of_lt (i := 7) h, Nat.shiftLeft_eq]

/-- A small whole number divided by 8192 is not rounded. -/
theorem fInt_fDiv_f8192 {z : Int} (hz : z.natAbs ≤ 2 ^ 24) :
    fFinite (fDiv (fOfInt z) f8192) = true ∧ fInt (fDiv (fOfInt z) f8192) * 8192 = z * 2 ^ 149 := by
  obtain ⟨hfin, hint⟩ := fInt_fOfInt_exact (z := z) (exists_mag_of_significand hz (by decide))
  have hunits : fUnits (fOfInt z) = z.natAbs * 2 ^ 149 := by
    have : (fInt (fOfInt z)).natAbs = fUnits (fOfInt z) := by unfold fInt; split <;> omega
    rw [← this, hint, Int.natAbs_mul]; rfl
  have h8192 : fUnits f8192 = 2 ^ 13 * 2 ^ 149 := by decide
  obtain ⟨hfin', hint'⟩ := fInt_fDiv_exact (m := z.natAbs * 2 ^ 136) hfin (b := f8192) (by decide) (by decide)
    (by rw [h8192]; positivity) (exists_mag_of_significand hz (by decide)) (by rw [hunits, h8192]; ring)
  refine ⟨hfin', ?_⟩
  rw [hint', ← hint, fInt, hunits]
  split <;> push_cast <;> ring

theorem normalizedBend_exact {lsb msb : Byte} (hl : lsb.toNat < 128) (hm : msb.toNat < 128) :
    fFinite (normalizedBend lsb msb) = true ∧
      fInt (normalizedBend lsb msb) * 8192 = ((msb.toNat : Int) * 128 + lsb.toNat - 8192) * 2 ^ 149 := by
  rw [normalizedBend, pitchBendValue_eq hl]
  push_cast
  exact fInt_fDiv_f8192 (by omega)

end Sys2Proof.Machine

namespace Sys2Proof.Proofs

open Sys2Proof.Machine

/-- Settles O60: the three moves of `callbackMove_cases`, and what the call's argument permits. -/
theorem callbackMoves : Obligations.CallbackMoves := by
  intro s due call earlier hp ht hcalls
  have hframe := s.callbackMove_hostOnly due
  have hmoves := s.callbackMove_cases due
  refine ⟨s.callbackMove due, by rw [step_of_no_pending hp, hostMove_of_inCallback ht],
    ⟨hframe.params, hframe.voices, hframe.op, hframe.status⟩, hframe.responses, ?_⟩
  rw [hearResponse_eq] at hmoves
  rcases hmoves with h | ⟨i, call', earlier', hc, hpermit, h⟩ | ⟨note, call', earlier', hc, hpermit, h⟩ <;> rw [h]
  · exact ⟨rfl, rfl, rfl, .inl rfl⟩
  · cases hcalls.symm.trans hc
    refine ⟨rfl, rfl, rfl, .inr (.inl ⟨i, by rw [State.issue, hp]; rfl, ?_⟩)⟩
    rintro channel note pressure k rfl
    exact eq_of_beq hpermit
  · cases hcalls.symm.trans hc
    have hsame := State.allocateNote_allocationOnly { s with host := { s.host with seen := s.heard due } } note .handOver
    refine ⟨hsame.decoder, hsame.events, hsame.calls, .inr (.inr ⟨note, ?_, ?_, rfl⟩)⟩
    · cases call with
      | polyAftertouch => cases hpermit
      | controlChange | programChange => exact of_decide_eq_true hpermit
    · rintro channel note' pressure k rfl
      cases hpermit

/-- Settles O56: the bend is an exact quotient, and the dispatch issues one `V.BEND` per voice. -/
theorem pitchBendReachesEveryVoice : Obligations.PitchBendReachesEveryVoice := by
  intro s lsb msb hl hm
  obtain ⟨hfin, hexact⟩ := normalizedBend_exact hl hm
  refine ⟨⟨normalizedBend lsb msb, hfin, hexact, ?_, ?_⟩, rfl⟩
  · rintro rfl rfl
    decide
  · rw [dispatch_pitchBend, issue_pending, bendAll, List.map_map]
    rfl

end Sys2Proof.Proofs

/-!
PROOFS. The table of causes of Illegal with its one effect (R311, R312), `OSC.WT` done twice (R334), and a reset from outside
(R330).
-/

namespace Sys2Proof.Machine

/-- Writing every entry by the same function twice is writing it once. -/
theorem Memory.writeAll_writeAll {m : Memory} (f : Nat → S) (h : Memory.wf m) :
    Memory.writeAll (Memory.writeAll m f) f = Memory.writeAll m f := by
  have hwf := Memory.wf_writeAll m f h
  refine Memory.eq_of_read_eq _ _ (Memory.wf_writeAll _ f hwf) hwf fun i hi => ?_
  rw [Memory.read_writeAll _ f i hwf, if_pos hi, Memory.read_writeAll m f i h, if_pos hi]

theorem setVoice_self {s : State} {v : BitVec 8} {u : Voice} (hu : s.voice? v = some u) : s.setVoice v u = s := by
  obtain ⟨hlt, rfl⟩ := List.getElem?_eq_some_iff.mp hu
  rw [State.setVoice, List.set_getElem_self]

/-- A legal command that leaves its voice unit as it is does nothing but respond. -/
theorem onVoice_of_fixed {s : State} {v : BitVec 8} {u : Voice} {f : Voice → Voice × BitVec 32 × BitVec 32}
    (hu : s.voice? v = some u) (hf : (f u).1 = u) : s.onVoice v true f = .next (s.respond (f u).2.1 (f u).2.2) := by
  rw [State.onVoice_legal hu, hf, setVoice_self hu]

/-- The voice unit with its wavetable written for `shape` (R111). -/
def Voice.withShape (u : Voice) (shape : S) : Voice :=
  { u with osc := { u.osc with wt := Memory.writeAll u.osc.wt (wtEntry (clamp shape f0 f1)) } }

theorem exec_oscWt {shape : S} (h : fFinite shape = true) (v : BitVec 8) (s : State) :
    exec (.oscWt v shape) s = s.onVoice v true fun u => (u.withShape shape, 0, 0) := by
  rw [← h]; rfl

theorem withShape_withShape {u : Voice} (h : Memory.wf u.osc.wt) (shape : S) :
    (u.withShape shape).withShape shape = u.withShape shape := by
  simp only [Voice.withShape, Memory.writeAll_writeAll _ h]

end Sys2Proof.Machine

namespace Sys2Proof.Proofs

open Sys2Proof.Machine

/-- Settles O6: the table of R312 lists the failures of the checks of R84, and `execCommand` has one outcome for each. -/
theorem illegalCausesAndEffect : Obligations.IllegalCausesAndEffect := by
  intro s c rest hp
  rw [step_of_pending hp, illegalByTable_eq_commandIllegal]
  refine ⟨execCommand_refuses (s := { s with pending := rest }), fun hlegal => ?_⟩
  obtain ⟨t, r0, r1, hx, hresp, hstatus, -, hout⟩ := execCommand_completes (s := { s with pending := rest }) hlegal
  exact ⟨t, r0, r1, hx, hout.pending, hstatus, hresp⟩

/-- Settles O14: the second `OSC.WT` writes the table that stands there already, by `Memory.writeAll_writeAll`. -/
theorem oscWtTwiceIsOnce : Obligations.OscWtTwiceIsOnce := by
  intro s t v u shape hu hwf hshape ht
  obtain ⟨t', hx, -, hut, -⟩ := completesWith_of_onVoice (exec_oscWt hshape v s) hu
  obtain rfl : t' = t := Host.Outcome.next.inj (hx.symm.trans ht)
  refine ⟨fun r hr => ?_, ?_⟩
  · obtain rfl : u.withShape shape = r := Option.some.inj (hut.symm.trans hr)
    exact Memory.wf_writeAll _ _ hwf
  · rw [exec_oscWt hshape]
    exact onVoice_of_fixed hut (withShape_withShape hwf shape)

/-- Settles O46: the move of a ready host whose oldest event is the reset. -/
theorem blockResetRestores : Obligations.BlockResetRestores := by
  intro s rest hp htask hev
  rw [step_of_no_pending hp, hostMove_of_event htask hev, ← hp]
  rfl

end Sys2Proof.Proofs
